-- ==== Sys2Proof/Word.lean ====
section
/-! DEFINITION. The value widths of `huffman_freq_counter` (spec/00_scope.md R6, R8). -/

namespace Sys2Proof

/-- A register, a command word, a FREQ entry, a bus datum: `COUNT_W` = `BUS_DATA_W` = 32 bits (R6). -/
abbrev Word := BitVec 32

/-- One byte of BUF (R47). -/
abbrev Byte := BitVec 8

/-- "one byte value (0–255)" (R6, R12). -/
abbrev Symbol := BitVec 8

/-- An index into the node memory: LEFT, RIGHT and ROOT are 9 bits wide (R40, R41). -/
abbrev NodeIdx := BitVec 9

/-- A host-bus byte offset from the block's base: `BUS_ADDR_W` = 17 (R6, R53). -/
abbrev BusAddr := BitVec 17

/-- A bit-string, written left to right in the order its bits are produced or consumed (R8). -/
abbrev Bits := List Bool

end Sys2Proof
end

