-- ==== Sys2Proof/Syntax.lean ====
section
/-! DEFINITION. The names and the records of the block: its six commands (spec/30_encoding.md R72),
its registers (spec/10_state.md R17), its bus transactions (spec/20_memory.md R53), its error codes
(spec/60_exceptions.md R146), a tree node (R40), and the host program notation (R79 to R83). -/

namespace Sys2Proof

/-- The commands of the opcode map (R72), one constructor per row of spec/opcode_table.json.
No command word has an operand field but COUNT's modifier ACC (R73, R76). -/
inductive Instr where
  | nop
  | count (acc : Bool)
  | build
  | gencode
  | encode
  | decode
  deriving DecidableEq, Repr

/-- The control and status registers, in the order of the register map (R17). -/
inductive Reg where
  | id | version | ctrl | status | cmd
  | srcAddr | srcLen | dstAddr | dstCap
  | outLen | dataBits | symCount | total
  | leaves | root | maxLen | errCode | errAddr
  deriving DecidableEq, Repr

/-- The direction of a bus transaction (R53). -/
inductive BusOp where
  | read
  | write
  deriving DecidableEq, Repr

/-- The size of a bus transaction: 1, 2 or 4 bytes (R53). -/
inductive Size where
  | one
  | two
  | four
  deriving DecidableEq, Repr

/-- A host transaction `(op, addr, size, wdata)` (R53). `wdata` is used by a WRITE only. -/
structure Txn where
  op : BusOp
  addr : BusAddr
  size : Size
  wdata : Word
  deriving DecidableEq, Repr

/-- The block's answer to a transaction (R53): OKAY for a WRITE, OKAY with `rdata` for a READ, or a
bus error. `none` stands before the first transaction is answered. -/
inductive Response where
  | none
  | okay
  | okayData (rdata : Word)
  | error
  deriving DecidableEq, Repr

/-- What may happen next around the block: the Host takes a host step (one transaction), the Engine
takes its turn, or the platform asserts the hardware reset (R13, R92, R162). -/
inductive Event where
  | host (t : Txn)
  | engine
  | hardwareReset
  deriving DecidableEq, Repr

/-- The shape of the current tree, STATUS.TREE_KIND (R28). "Value 3 is never produced." -/
inductive TreeKind where
  | empty
  | single
  | multi
  deriving DecidableEq, Repr, Inhabited

/-- The error codes (R146). Codes 11 to 15 are "never produced". -/
inductive ErrCode where
  | none
  | illegalCmd
  | sequence
  | range
  | overlap
  | overflow
  | noCode
  | dstFull
  | decTrunc
  | decTree
  | decCode
  deriving DecidableEq, Repr, Inhabited

/-- One entry of the node memory NODE (R40). -/
structure Node where
  isLeaf : Bool
  sym : Symbol
  nfreq : Word
  left : NodeIdx
  right : NodeIdx
  deriving DecidableEq, Repr, Inhabited

/-- A line of a host program: a primitive form, exactly one bus transaction (R79). `wrBuf` is
`wr8`, `wr16` or `wr32` and `rdBuf` is `rd8`, `rd16` or `rd32`, by its size. -/
inductive Line where
  | wr (r : Reg) (v : Word)
  | rd (r : Reg)
  | wrBuf (size : Size) (a : Nat) (v : Word)
  | rdBuf (size : Size) (a : Nat)
  | rdw (off : Nat)
  deriving DecidableEq, Repr

/-- A host program's statements: a line (R79), `cmd M` and `cmd raw w` (R80), and the
pseudo-instructions (R81): `load` with bytes and, as `loadText`, with a text. -/
inductive Stmt where
  | line (l : Line)
  | cmd (m : Instr)
  | cmdRaw (w : Word)
  | wait
  | run (m : Instr)
  | setsrc (a n : Word)
  | setdst (a c : Word)
  | load (a : Nat) (bytes : List Byte)
  | loadText (a : Nat) (text : List Char)
  | ack
  deriving DecidableEq, Repr

end Sys2Proof
end

