-- ==== Sys2Proof/Config.lean ====
section
/-! DEFINITION. What an implementation fixes (the one open parameter BUF_SIZE, spec/00_scope.md R6),
and the values the spec leaves `any` (spec/93_implementation_defined.md U1 to U6).

A free value is an opaque constant with no body, applied to the number of the draw that reads it
(`State.draws`, notes/assumptions/5.md): nothing in Lean can prove a value of it. -/

namespace Sys2Proof

/-- The implementation's parameters: "`BUF_SIZE` … Nothing else is a parameter" (R6). -/
structure Config where
  bufSize : Nat
  deriving DecidableEq, Repr

/-- BUF_SIZE at its default, 65536 (R6). -/
def Config.default : Config := { bufSize := 65536 }

/-- The byte of BUF at an address, after the hardware reset or in the window of the abandoned or
failed command that made this draw (U1, U2, U3). -/
opaque Config.freeByte (draw addr : Nat) : Byte

/-- A 32-bit register's value in this draw (U4, U6), one per register. -/
opaque Config.freeWord (draw : Nat) (r : Reg) : Word

/-- A NODE entry after a failed DECODE (U5). -/
opaque Config.freeNode (draw i : Nat) : Node

/-- LEAVES in this draw (U5, U6): "values 0..256" (R41; notes/assumptions/7.md). -/
opaque Config.freeLeaves (draw : Nat) : Fin 257

/-- ROOT in this draw (U5, U6): "values 0..510" (R41; notes/assumptions/7.md). -/
opaque Config.freeRoot (draw : Nat) : Fin 511

/-- STATUS.TREE_KIND in this draw (U5, U6): "Value 3 is never produced" (R28). -/
opaque Config.freeKind (draw : Nat) : TreeKind

/-- MAX_LEN as read in this draw (U6). -/
opaque Config.freeMaxLen (draw : Nat) : BitVec 8

/-- ERR_CODE as read in this draw (U6): codes 11 to 15 are "never produced" (R146). -/
opaque Config.freeErrCode (draw : Nat) : ErrCode

/-- STATUS.TREE_VALID as read in this draw (U6). -/
opaque Config.freeTreeValid (draw : Nat) : Bool

/-- STATUS.CODES_VALID as read in this draw (U6). -/
opaque Config.freeCodesValid (draw : Nat) : Bool

end Sys2Proof
end

