-- ==== Sys2Proof/WellFormed.lean ====
section
/-! DEFINITION. What is checked of a parameter, a command and a host program before the machine
sees it (spec/00_scope.md R6, spec/30_encoding.md R74, R79, R84). -/

namespace Sys2Proof

/-- BUF_SIZE "must be a multiple of 4 with 16 ≤ BUF_SIZE ≤ 65536" (R6). -/
def Config.wf (c : Config) : Bool :=
  decide (c.bufSize % 4 = 0) && decide (16 ≤ c.bufSize) && decide (c.bufSize ≤ 65536)

/-- Every term of `Instr` is a legal command: the one operand, ACC, is a single bit that COUNT takes
at both values (R73), and the other commands have none (R76). So nothing is refused here; the words
that are no command are refused by the decoder (R74). -/
def Instr.wf : Instr → Bool
  | .nop => true
  | .count _ => true
  | .build => true
  | .gencode => true
  | .encode => true
  | .decode => true

/-- A line's address must be one the 17-bit bus can carry: `a` is an offset into the BUF window, the
bus offset 0x10000 + a (R79), and `rdw` takes a raw bus offset (R53). -/
def Line.wf : Line → Bool
  | .wr _ _ => true
  | .rd _ => true
  | .wrBuf _ a _ => decide (a < 0x10000)
  | .rdBuf _ a => decide (a < 0x10000)
  | .rdw off => decide (off < 0x20000)

/-- Whether a bus offset reaches a table window or BUF (R17): FREQ and CODE_LEN, NODE, CODE_VAL, and the
BUF_SIZE bytes of BUF. The other offsets from 0x400 up are reserved (R18). -/
def Config.inWindow (c : Config) (off : Nat) : Bool :=
  decide (0x0400 ≤ off ∧ off < 0x0C00) || decide (0x1000 ≤ off ∧ off < 0x1FF8)
    || decide (0x2000 ≤ off ∧ off < 0x4000) || decide (0x10000 ≤ off ∧ off < 0x10000 + c.bufSize)

/-- Where a host program stands (R84): at its start or after a `wait`, where a command may be issued; after
a command was issued, where it may still be running; or after a soft reset abandoned it, where BUSY = 0
(R166, R167) but no `wait` has been made. -/
inductive ProgramPoint where
  | ready
  | running
  | abandoned
  deriving DecidableEq, Repr

/-- Whether a command may be issued: "only while BUSY = 0, that is after a `wait` or at the start" (R84).
DESIGN CHOICE (notes/assumptions/20.md): a soft reset alone, without a `wait`, does not make a point
where one may be, as the second half says, though BUSY = 0 there. -/
def ProgramPoint.mayIssue (q : ProgramPoint) : Bool := decide (q = .ready)

/-- Whether BUF and the table windows may be touched: "only while BUSY = 0" (R84), which a soft reset makes
it (R166). -/
def ProgramPoint.mayTouch (q : ProgramPoint) : Bool := decide (q ≠ .running)

/-- Whether a line may stand at a point of a program (R84). -/
def Line.allowed (c : Config) (q : ProgramPoint) : Line → Bool
  | .wr r _ => decide (r ≠ .cmd) || q.mayIssue
  | .rd _ => true
  | .wrBuf _ a _ => !c.inWindow (0x10000 + a) || q.mayTouch
  | .rdBuf _ a => !c.inWindow (0x10000 + a) || q.mayTouch
  | .rdw off => !c.inWindow off || q.mayTouch

/-- Whether a statement may stand at a point of a program: "A well-formed host program issues a command
only while BUSY = 0 … and touches BUF and the table windows only while BUSY = 0" (R84). -/
def Stmt.allowed (c : Config) (q : ProgramPoint) : Stmt → Bool
  | .line l => l.allowed c q
  | .cmd _ => q.mayIssue
  | .cmdRaw _ => q.mayIssue
  | .wait => true
  | .run _ => q.mayIssue
  | .setsrc _ _ => true
  | .setdst _ _ => true
  | .load a bytes => bytes.isEmpty || !c.inWindow (0x10000 + a) || q.mayTouch
  | .loadText a text => text.isEmpty || !c.inWindow (0x10000 + a) || q.mayTouch
  | .ack => true

/-- The point after a CTRL write: one with bit 0 performs the soft reset, which abandons the command that
runs (R21, R163). -/
def ProgramPoint.afterCtrl (q : ProgramPoint) (w : Word) : ProgramPoint :=
  if w.getLsbD 0 && decide (q = .running) then .abandoned else q

/-- The point after a line. -/
def Line.pointAfter (q : ProgramPoint) : Line → ProgramPoint
  | .wr .cmd _ => .running
  | .wr .ctrl w => q.afterCtrl w
  | .wr _ _ => q
  | .rd _ => q
  | .wrBuf _ _ _ => q
  | .rdBuf _ _ => q
  | .rdw _ => q

/-- The point after a statement: a command is issued by a CMD write and is over after a `wait` (R81, R84). -/
def Stmt.pointAfter (q : ProgramPoint) : Stmt → ProgramPoint
  | .line l => l.pointAfter q
  | .cmd _ => .running
  | .cmdRaw _ => .running
  | .wait => .ready
  | .run _ => .ready
  | .setsrc _ _ => q
  | .setdst _ _ => q
  | .load _ _ => q
  | .loadText _ _ => q
  | .ack => q

/-- Whether a character is one of ASCII, which gives its byte (R81). -/
def asciiChar (ch : Char) : Bool := decide (ch.toNat < 128)

/-- A statement's addresses are ones the bus can carry, and the characters of a text have a byte. -/
def Stmt.addressesOk : Stmt → Bool
  | .line l => l.wf
  | .load a bytes => bytes.isEmpty || decide (a + bytes.length ≤ 0x10000)
  | .loadText a text => (text.isEmpty || decide (a + text.length ≤ 0x10000)) && text.all asciiChar
  | .cmd m => m.wf
  | .run m => m.wf
  | .cmdRaw _ => true
  | .wait => true
  | .setsrc _ _ => true
  | .setdst _ _ => true
  | .ack => true

/-- A well-formed host program (R84), from a point on. A whole program starts at `ready`. -/
def programWf (c : Config) : ProgramPoint → List Stmt → Bool
  | _, [] => true
  | q, st :: rest => st.addressesOk && st.allowed c q && programWf c (st.pointAfter q) rest

end Sys2Proof
end

