-- ==== Sys2Proof/Decode.lean ====
section
/-! DEFINITION. The command word: its fields (spec/30_encoding.md R71), its decoding (R74) and its
encoding (R80). -/

namespace Sys2Proof

/-- OP, bits 7:0 (R71). -/
def opField (w : Word) : BitVec 8 := w.extractLsb' 0 8

/-- ACC, bit 8 (R71). -/
def accField (w : Word) : Bool := w.getLsbD 8

/-- RSVD, bits 31:9 (R71). -/
def rsvdField (w : Word) : BitVec 23 := w.extractLsb' 9 23

/-- Decode of a command word (R74), in the spec's own order; `none` is ILLEGAL. -/
def decode (w : Word) : Option Instr :=
  if rsvdField w ≠ 0 then none
  else if opField w = 0x01 then some (.count (accField w))
  else if accField w then none
  else if opField w = 0x00 then some .nop
  else if opField w = 0x02 then some .build
  else if opField w = 0x03 then some .gencode
  else if opField w = 0x04 then some .encode
  else if opField w = 0x05 then some .decode
  else none

/-- The opcode of a command (R72). -/
def opcode : Instr → BitVec 8
  | .nop => 0x00
  | .count _ => 0x01
  | .build => 0x02
  | .gencode => 0x03
  | .encode => 0x04
  | .decode => 0x05

/-- The accumulate modifier of a command: "For every other opcode ACC must be 0" (R73). -/
def accBit : Instr → Bool
  | .count acc => acc
  | .nop => false
  | .build => false
  | .gencode => false
  | .encode => false
  | .decode => false

/-- word(M): the command word, RSVD = 0, ACC and OP in their places (R71, R80). -/
def encode (i : Instr) : Word :=
  (0#23 ++ BitVec.ofBool (accBit i)) ++ opcode i

/-- The instruction the decoder reads from a row's word as spec/opcode_table.json numbers its bits.
A command is exactly one 32-bit word (R77): every bit above the row's bits is 0, and a number that
does not fit the word is no command. -/
def decodeTableWord (nbits w : Nat) : Option Instr :=
  if w % 2 ^ nbits < 2 ^ 32 then decode (BitVec.ofNat 32 (w % 2 ^ nbits)) else none

end Sys2Proof
end

