-- ==== Sys2Proof/Machine/State.lean ====
section
/-! DEFINITION. The state of the block (spec/10_state.md), the reasons a step can stop, and the state
after the hardware reset (R51). INVENTORY.md lists every field with its rule. -/

namespace Sys2Proof.Machine

/-- The bytes of BUF that hold a known value, as (BUF offset, byte) pairs at strictly rising offsets.
An offset that is not listed has no value of its own: the byte there is `any` (U1), and a read
draws it (notes/assumptions/6.md). -/
abbrev Memory := List Host.Cell

/-- The node memory NODE[0..510] (R40). -/
abbrev Nodes := Vector Node 511

/-- Why a step can stop. The block itself "never stops and never faults" (R13): both reasons are
raised only in states outside the invariants of R49, where the spec gives the tree no meaning. -/
inductive Fault where
  /-- The Engine follows a node index 511, which NODE[0..510] does not have (R40). Raised by GENCODE
  and ENCODE, only on a tree that R49 excludes. Safe: no state that R49 describes reaches it. -/
  | noSuchNode
  /-- A walk from ROOT goes deeper than the 255 levels a tree can have (R7). Raised by GENCODE and
  ENCODE, only on a tree that R49 excludes (a cycle in NODE). Safe: as above. -/
  | treeTooDeep
  deriving DecidableEq, Repr

/-- Why a command would have no meaning in this model. -/
inductive Refusal where
  /-- An arm of `exec` that has no meaning yet, by the mnemonic of spec/opcode_table.json. Safe: the
  machine stops. No arm raises it: all six commands are modelled. -/
  | notModelled (mnemonic : String)
  deriving DecidableEq, Repr

/-- Everything the spec gives the block, and four fields of the model's own (the last four). -/
structure State where
  /-- The parameter BUF_SIZE (R6). No step changes it. -/
  cfg : Config
  /-- CTRL.IRQ_EN (R21). CTRL.SOFT_RESET reads 0 and holds nothing. -/
  irqEn : Bool
  /-- STATUS.BUSY (R22). -/
  busy : Bool
  /-- STATUS.DONE (R23). -/
  done : Bool
  /-- STATUS.ERR (R24). -/
  err : Bool
  /-- STATUS.OVERRUN (R25). -/
  overrun : Bool
  /-- STATUS.TREE_VALID (R26). -/
  treeValid : Bool
  /-- STATUS.CODES_VALID (R27). -/
  codesValid : Bool
  /-- STATUS.TREE_KIND (R28). -/
  treeKind : TreeKind
  /-- CMD (R30). -/
  cmd : Word
  /-- SRC_ADDR (R31). -/
  srcAddr : Word
  /-- SRC_LEN (R32). -/
  srcLen : Word
  /-- DST_ADDR (R33). -/
  dstAddr : Word
  /-- DST_CAP (R34). -/
  dstCap : Word
  /-- OUT_LEN (R35). -/
  outLen : Word
  /-- DATA_BITS (R36). -/
  dataBits : Word
  /-- SYM_COUNT (R37). -/
  symCount : Word
  /-- TOTAL (R38). -/
  total : Word
  /-- LEAVES (R41). -/
  leaves : BitVec 9
  /-- ROOT (R41). -/
  root : NodeIdx
  /-- MAX_LEN (R44). -/
  maxLen : BitVec 8
  /-- ERR_CODE (R45). -/
  errCode : ErrCode
  /-- ERR_ADDR (R46). -/
  errAddr : Word
  /-- FREQ[0..255] (R39). -/
  freq : Vector Word 256
  /-- CODE_LEN[0..255] (R42). -/
  codeLen : Vector (BitVec 8) 256
  /-- CODE_VAL[0..255] (R43). -/
  codeVal : Vector (BitVec 256) 256
  /-- NODE[0..510] (R40). -/
  node : Nodes
  /-- BUF (R47). -/
  buf : Memory
  /-- The model's own: the draw that gives every BUF byte not listed in `buf` its value, made at the
  last hardware reset (R165). -/
  bufDraw : Nat
  /-- The model's own: the number of the next draw of free values. Every draw advances it. -/
  draws : Nat
  /-- The model's own: what happens next around the block, in order (the Host's transactions, the
  Engine's turns, hardware resets). -/
  pending : List Event
  /-- The model's own: the block's answer to the last host transaction. -/
  response : Response
  deriving DecidableEq, Repr

/-- An all-zero NODE entry, as reset leaves it (R40). -/
def Node.zero : Node := { isLeaf := false, sym := 0, nfreq := 0, left := 0, right := 0 }

/-- The state right after the hardware reset (R51, R165): every register, flag and table 0, no
command accepted, every BUF byte `any`; BUF_SIZE at its default; nothing pending. -/
def State.reset : State :=
  { cfg := Config.default
    irqEn := false
    busy := false
    done := false
    err := false
    overrun := false
    treeValid := false
    codesValid := false
    treeKind := .empty
    cmd := 0
    srcAddr := 0
    srcLen := 0
    dstAddr := 0
    dstCap := 0
    outLen := 0
    dataBits := 0
    symCount := 0
    total := 0
    leaves := 0
    root := 0
    maxLen := 0
    errCode := .none
    errAddr := 0
    freq := Vector.replicate 256 0
    codeLen := Vector.replicate 256 0
    codeVal := Vector.replicate 256 0
    node := Vector.replicate 511 Node.zero
    buf := []
    bufDraw := 0
    draws := 1
    pending := []
    response := .none }

end Sys2Proof.Machine
end

