-- ==== Sys2Proof/Machine/Ops.lean ====
section
/-! DEFINITION. The shared operations: bytes of BUF (spec/20_memory.md R59, R60), bit-strings (R61 to
R63), the node memory (R40), free values, and the two ways a command completes
(spec/40_command_common.md R93, R94). -/

namespace Sys2Proof.Machine

/-! ## BUF as data -/

/-- The byte a list of cells holds at an offset, if it lists one. -/
def Memory.find : Memory → Nat → Option Byte
  | [], _ => none
  | (b, v) :: m, a => if a = b then some v else Memory.find m a

/-- The cells with the byte at offset `a` set to `v`, the offsets kept strictly rising. -/
def Memory.store : Memory → Nat → Byte → Memory
  | [], a, v => [(a, v)]
  | (b, w) :: m, a, v =>
    if a < b then (a, v) :: (b, w) :: m
    else if a = b then (a, v) :: m
    else (b, w) :: Memory.store m a v

/-- The cells with a run of bytes stored from offset `a` up. -/
def Memory.storeAll : Memory → Nat → List Byte → Memory
  | m, _, [] => m
  | m, a, v :: vs => Memory.storeAll (Memory.store m a v) (a + 1) vs

/-- The canonical form: strictly rising offsets. (An unlisted offset has no value of its own, so no
entry can equal it.) -/
def Memory.wf (m : Memory) : Bool := decide (m.Pairwise fun c d => c.1 < d.1)

/-! ## Reading and writing BUF -/

/-- BUF[a], MemRead(a, 1) (R59, R60). A byte nothing has written since the last hardware reset is a
free value (R47, R165, U1). -/
def State.readByte (s : State) (a : Nat) : Byte :=
  (Memory.find s.buf a).getD (Config.freeByte s.bufDraw a)

/-- The `n` bytes from offset `a` up, in order. -/
def State.readBytes (s : State) : Nat → Nat → List Byte
  | _, 0 => []
  | a, n + 1 => s.readByte a :: State.readBytes s (a + 1) n

/-- A sequence of bytes as a little-endian number (R59). -/
def leNumber : List Byte → Nat
  | [] => 0
  | b :: bs => b.toNat + 256 * leNumber bs

/-- The `n` low bytes of a number, the lowest first (R59). -/
def leBytes : Nat → Nat → List Byte
  | 0, _ => []
  | n + 1, v => BitVec.ofNat 8 v :: leBytes n (v / 256)

/-- `MemRead(a, n)`: the `n` bytes from `a` as a little-endian number (R9, R59). -/
def State.memRead (s : State) (a n : Nat) : Nat := leNumber (s.readBytes a n)

/-- A sequence of bytes stored from offset `a` up, each as MemWrite(a, 1, v) (R60). -/
def State.writeBytes (s : State) (a : Nat) (bytes : List Byte) : State :=
  { s with buf := Memory.storeAll s.buf a bytes }

/-- `MemWrite(a, n, v)`: `v` stored into the `n` bytes from `a`, little-endian (R9, R59). -/
def State.memWrite (s : State) (a n v : Nat) : State := s.writeBytes a (leBytes n v)

/-! ## Bit-strings -/

/-- The `n` low bits of a number, the most significant first (R120, R122). -/
def msbBits : Nat → Nat → Bits
  | 0, _ => []
  | n + 1, v => v.testBit n :: msbBits n v

/-- A bit-string read as a binary number, its first bit the most significant (R112, R136). -/
def bitsNumber (s : Bits) : Nat := s.foldl (fun v b => 2 * v + b.toNat) 0

/-- Bit `k` of a bit-string, 0 past its end: the pad bits of R62. -/
def bitOr0 (s : Bits) (k : Nat) : Bool := s.getD k false

/-- `byte_j` of Pack (R62). -/
def packedByte (s : Bits) (j : Nat) : Byte :=
  BitVec.ofNat 8 (bitsNumber ((List.range 8).map fun b => bitOr0 s (8 * j + b)))

/-- `Pack(s)`: ⌈|s|/8⌉ bytes, most significant bit first, zero-padded (R62). -/
def pack (s : Bits) : List Byte := (List.range ((s.length + 7) / 8)).map (packedByte s)

/-- `BitAt(base, k)` (R63). -/
def State.bitAt (s : State) (base k : Nat) : Bool := (s.readByte (base + k / 8)).getLsbD (7 - k % 8)

/-! ## The node memory and the symbol tables -/

/-- NODE[i], where NODE has an entry `i` (R40). -/
def nodeAt (nodes : Nodes) (i : NodeIdx) : Option Node := nodes[i.toNat]?

/-- `NODE[i] <- n`. Every caller's `i` is at most 510 (R7). -/
def setNode (nodes : Nodes) (i : Nat) (n : Node) : Nodes := nodes.setIfInBounds i n

/-- A table of 256 entries read at a symbol: FREQ[s], CODE_LEN[s], CODE_VAL[s] (R39, R42, R43). -/
def atSymbol {α : Type} (t : Vector α 256) (s : Symbol) : α := t[s.toNat]'s.isLt

/-- A table of 256 entries with the entry of a symbol set. -/
def setSymbol {α : Type} (t : Vector α 256) (s : Symbol) (v : α) : Vector α 256 :=
  t.set s.toNat v s.isLt

/-- The symbols 0..255 in ascending order. -/
def alphabet : List Symbol := (List.range 256).map (BitVec.ofNat 8)

/-! ## Errors and results of a command -/

/-- `E(addr)`: an error code and the address for ERR_ADDR, computed without wrap (R86, R146). -/
structure CmdError where
  code : ErrCode
  addr : Nat
  deriving DecidableEq, Repr

/-- A part of a command's work: a value, an error it raises (R94), or a node memory outside R49. -/
inductive Answer (α : Type) where
  | ok (a : α)
  | raise (e : CmdError)
  | fault (f : Fault)
  deriving Repr

/-- The first error of a sequence of checks, each `none` where it passes (R91, R150). -/
def firstError (checks : List (Option CmdError)) : Option CmdError := checks.findSome? id

/-- Successful completion, `complete` (R93). -/
def completeOk (s : State) : State :=
  { s with busy := false, done := true, err := false, errCode := .none, errAddr := 0 }

/-- Error completion, `raise E(addr)`, the block's taking of an exception (R94, R145): the state is
the one the error leaves (R149) and then the flags and the error registers are written. -/
def raiseError (e : CmdError) (s : State) : State :=
  { s with
    busy := false, done := false, err := true
    errCode := e.code, errAddr := BitVec.ofNat 32 e.addr }

/-! ## Free values -/

/-- The `n` free bytes of draw `k` from offset `a` up. -/
def freeBytes (k : Nat) : Nat → Nat → List Byte
  | _, 0 => []
  | a, n + 1 => Config.freeByte k a :: freeBytes k (a + 1) n

/-- BUF[a .. a + n − 1] `any`, from draw `k` (U2, U3). -/
def anyBytes (k a n : Nat) (s : State) : State := s.writeBytes a (freeBytes k a n)

/-- OUT_LEN, DATA_BITS and SYM_COUNT `any`, from draw `k` (U4). -/
def anyResults (k : Nat) (s : State) : State :=
  { s with
    outLen := Config.freeWord k .outLen
    dataBits := Config.freeWord k .dataBits
    symCount := Config.freeWord k .symCount }

/-- Every NODE entry, LEAVES, ROOT and TREE_KIND `any`, from draw `k` (U5). -/
def anyTree (k : Nat) (s : State) : State :=
  { s with
    node := Vector.ofFn fun i : Fin 511 => Config.freeNode k i.val
    leaves := BitVec.ofNat 9 (Config.freeLeaves k).val
    root := BitVec.ofNat 9 (Config.freeRoot k).val
    treeKind := Config.freeKind k }

/-- The draw `s.draws` is used up. -/
def drawn (s : State) : State := { s with draws := s.draws + 1 }

end Sys2Proof.Machine
end

