-- ==== Sys2Proof/Machine/Operands.lean ====
section
/-! DEFINITION. The operands of a command: the source range, the destination window, and the checks on
them (spec/40_command_common.md R90). Every operand register value is "used as an unsigned 32-bit
number in unbounded arithmetic" (spec/30_encoding.md R76). -/

namespace Sys2Proof.Machine

/-- `InBuf(a, n)` (R90), on unbounded integers. -/
def inBuf (s : State) (a n : Nat) : Bool := decide (a + n ≤ s.cfg.bufSize)

/-- `Overlap(a1, n1, a2, n2)` (R90). -/
def overlap (a1 n1 a2 n2 : Nat) : Bool :=
  decide (0 < n1) && decide (0 < n2) && decide (a1 < a2 + n2) && decide (a2 < a1 + n1)

/-- `a = csr[SRC_ADDR]`. -/
abbrev State.srcStart (s : State) : Nat := s.srcAddr.toNat

/-- `n = csr[SRC_LEN]`. -/
abbrev State.srcCount (s : State) : Nat := s.srcLen.toNat

/-- `d = csr[DST_ADDR]`. -/
abbrev State.dstStart (s : State) : Nat := s.dstAddr.toNat

/-- `cap = csr[DST_CAP]`. -/
abbrev State.dstRoom (s : State) : Nat := s.dstCap.toNat

/-- The bytes of the source range (R76). -/
def State.source (s : State) : List Byte := s.readBytes s.srcStart s.srcCount

/-- `CheckSrc` (R90). -/
def checkSrc (s : State) : Option CmdError :=
  if inBuf s s.srcStart s.srcCount then none else some ⟨.range, s.srcStart⟩

/-- `CheckDst` (R90). -/
def checkDst (s : State) : Option CmdError :=
  if inBuf s s.dstStart s.dstRoom then none else some ⟨.range, s.dstStart⟩

/-- `CheckApart` (R90). -/
def checkApart (s : State) : Option CmdError :=
  if overlap s.srcStart s.srcCount s.dstStart s.dstRoom then some ⟨.overlap, s.dstStart⟩ else none

/-- The SEQUENCE pre-check: a valid bit must be 1 (R114, R127). -/
def checkValid (valid : Bool) : Option CmdError := if valid then none else some ⟨.sequence, 0⟩

/-- "ENCODE and DECODE apply CheckSrc, then CheckDst, then CheckApart" (R90). -/
def rangeChecks (s : State) : List (Option CmdError) := [checkSrc s, checkDst s, checkApart s]

/-- The destination window BUF[DST_ADDR .. DST_ADDR + DST_CAP − 1] `any`, from draw `k`. -/
def anyWindow (k : Nat) (s : State) : State := anyBytes k s.dstStart s.dstRoom s

end Sys2Proof.Machine
end

