-- ==== Sys2Proof/Machine/Flags.lean ====
section
/-! DEFINITION. STATUS and CTRL: their words as the bus shows them (spec/10_state.md R21 to R29), the
acceptance of a command (spec/40_command_common.md R88), and the interrupt (spec/60_exceptions.md
R153). -/

namespace Sys2Proof.Machine

/-- TREE_KIND's two bits (R28). -/
def kindBits : TreeKind → BitVec 2
  | .empty => 0
  | .single => 1
  | .multi => 2

/-- ERR_CODE's four bits (R146). -/
def errBits : ErrCode → BitVec 4
  | .none => 0
  | .illegalCmd => 1
  | .sequence => 2
  | .range => 3
  | .overlap => 4
  | .overflow => 5
  | .noCode => 6
  | .dstFull => 7
  | .decTrunc => 8
  | .decTree => 9
  | .decCode => 10

/-- The STATUS word from its fields, reserved bits 31:8 zero (the layout above R22). -/
def statusLayout (busy done err overrun treeValid codesValid : Bool) (kind : TreeKind) : Word :=
  0#24 ++ (kindBits kind ++ (BitVec.ofBool codesValid ++ (BitVec.ofBool treeValid
    ++ (BitVec.ofBool overrun ++ (BitVec.ofBool err ++ (BitVec.ofBool done ++ BitVec.ofBool busy))))))

/-- STATUS as it is read while BUSY = 0. -/
def statusWord (s : State) : Word :=
  statusLayout s.busy s.done s.err s.overrun s.treeValid s.codesValid s.treeKind

/-- CTRL as it is read: SOFT_RESET "reads 0" (R21). -/
def ctrlWord (s : State) : Word := 0#30 ++ (BitVec.ofBool s.irqEn ++ 0#1)

/-- A STATUS write clears DONE, ERR and OVERRUN by data bits 1, 2 and 3, and "ignores every other
data bit" (R29). -/
def writeStatus (w : Word) (s : State) : State :=
  { s with
    done := s.done && !w.getLsbD 1
    err := s.err && !w.getLsbD 2
    overrun := s.overrun && !w.getLsbD 3 }

/-- Acceptance of the word `w` (R88): latched into CMD, whether it decodes or not. -/
def acceptCommand (w : Word) (s : State) : State :=
  { s with cmd := w, busy := true, done := false, err := false }

/-- `irq = csr[CTRL].IRQ_EN and (csr[STATUS].DONE or csr[STATUS].ERR)` (R153). -/
def irq (s : State) : Bool := s.irqEn && (s.done || s.err)

end Sys2Proof.Machine
end

