-- ==== Sys2Proof/Machine/Reset.lean ====
section
/-! DEFINITION. The two resets (spec/70_reset_and_hazards.md R162 to R166). -/

namespace Sys2Proof.Machine

/-- "Every register, flag, field and table takes the value of 10_state.md rule R51" (R165, R166): all
but BUF_SIZE, BUF and the model's own fields are those of `State.reset`. -/
def resetRegisters (s : State) : State :=
  { State.reset with
    cfg := s.cfg
    buf := s.buf
    bufDraw := s.bufDraw
    draws := s.draws
    pending := s.pending
    response := s.response }

/-- The hardware reset (R165): "Every BUF byte becomes `any`", from a new draw. -/
def hardwareReset (s : State) : State :=
  { resetRegisters s with buf := [], bufDraw := s.draws, draws := s.draws + 1, response := .none }

/-- Whether a soft reset abandons an ENCODE or a DECODE (R163, R166). -/
def abandonsWriter (s : State) : Bool :=
  s.busy && (decode s.cmd == some .encode || decode s.cmd == some .decode)

/-- The soft reset (R166): BUF keeps every byte, but the window of an abandoned ENCODE or DECODE is
`any` where it lies in BUF; where it does not, the command's pre-checks fail and "the command wrote
nothing" (notes/assumptions/8.md). -/
def softReset (s : State) : State :=
  if abandonsWriter s && inBuf s s.dstStart s.dstRoom then
    resetRegisters (drawn (anyWindow s.draws s))
  else resetRegisters s

end Sys2Proof.Machine
end

