-- ==== Sys2Proof/Machine/Bus.lean ====
section
/-! DEFINITION. The host bus: the register map (spec/10_state.md R17, R18), the access rules
(spec/20_memory.md R53 to R59), reads while a command runs (R50), and the writes that act. -/

namespace Sys2Proof.Machine

/-- The number of bytes of a transaction (R53). -/
def sizeBytes : Size → Nat
  | .one => 1
  | .two => 2
  | .four => 4

/-- The register map's offsets (R17). -/
def regOffset : Reg → Nat
  | .id => 0x000
  | .version => 0x004
  | .ctrl => 0x008
  | .status => 0x00C
  | .cmd => 0x010
  | .srcAddr => 0x014
  | .srcLen => 0x018
  | .dstAddr => 0x01C
  | .dstCap => 0x020
  | .outLen => 0x024
  | .dataBits => 0x028
  | .symCount => 0x02C
  | .total => 0x030
  | .leaves => 0x034
  | .root => 0x038
  | .maxLen => 0x03C
  | .errCode => 0x040
  | .errAddr => 0x044

/-- The registers in the map's order. -/
def allRegs : List Reg :=
  [.id, .version, .ctrl, .status, .cmd, .srcAddr, .srcLen, .dstAddr, .dstCap, .outLen, .dataBits,
    .symCount, .total, .leaves, .root, .maxLen, .errCode, .errAddr]

/-- What a bus offset below 0x10000 reaches, as a word offset: a register, a word of a table window,
or nothing (R17, R18). -/
inductive Target where
  | reg (r : Reg)
  | freq (s : Symbol)
  | codeLen (s : Symbol)
  | nodeFreq (i : Nat)
  | nodeLinks (i : Nat)
  | codeVal (s : Symbol) (j : Nat)
  | reserved
  deriving DecidableEq, Repr

/-- The word an aligned offset below 0x10000 reaches (R17, R39, R40, R42, R43). -/
def target (off : Nat) : Target :=
  if off < 0x048 then
    match allRegs.find? fun r => decide (regOffset r = off) with
    | some r => .reg r
    | none => .reserved
  else if 0x0400 ≤ off ∧ off < 0x0800 then .freq (BitVec.ofNat 8 ((off - 0x0400) / 4))
  else if 0x0800 ≤ off ∧ off < 0x0C00 then .codeLen (BitVec.ofNat 8 ((off - 0x0800) / 4))
  else if 0x1000 ≤ off ∧ off < 0x1FF8 then
    if (off - 0x1000) % 8 = 0 then .nodeFreq ((off - 0x1000) / 8) else .nodeLinks ((off - 0x1000) / 8)
  else if 0x2000 ≤ off ∧ off < 0x4000 then
    .codeVal (BitVec.ofNat 8 ((off - 0x2000) / 32)) ((off - 0x2000) % 32 / 4)
  else .reserved

/-- ID "always reads 0x48554646" (R19). -/
def idWord : Word := 0x48554646

/-- VERSION "always reads 0x00000001" (R20). -/
def versionWord : Word := 0x00000001

/-- A register as it is read while BUSY = 0, unnamed bits 0 (R10, R18, R56). -/
def regWord (s : State) : Reg → Word
  | .id => idWord
  | .version => versionWord
  | .ctrl => ctrlWord s
  | .status => statusWord s
  | .cmd => s.cmd
  | .srcAddr => s.srcAddr
  | .srcLen => s.srcLen
  | .dstAddr => s.dstAddr
  | .dstCap => s.dstCap
  | .outLen => s.outLen
  | .dataBits => s.dataBits
  | .symCount => s.symCount
  | .total => s.total
  | .leaves => s.leaves.setWidth 32
  | .root => s.root.setWidth 32
  | .maxLen => s.maxLen.setWidth 32
  | .errCode => (errBits s.errCode).setWidth 32
  | .errAddr => s.errAddr

/-- A register as it is read while BUSY = 1 (R50): STATUS.TREE_VALID, CODES_VALID and TREE_KIND, the
result, tree-descriptor and error registers are `any`, from draw `k`; the others read their
defined values. -/
def regWordBusy (k : Nat) (s : State) : Reg → Word
  | .id => idWord
  | .version => versionWord
  | .ctrl => ctrlWord s
  | .status =>
    statusLayout s.busy s.done s.err s.overrun (Config.freeTreeValid k) (Config.freeCodesValid k)
      (Config.freeKind k)
  | .cmd => s.cmd
  | .srcAddr => s.srcAddr
  | .srcLen => s.srcLen
  | .dstAddr => s.dstAddr
  | .dstCap => s.dstCap
  | .outLen => Config.freeWord k .outLen
  | .dataBits => Config.freeWord k .dataBits
  | .symCount => Config.freeWord k .symCount
  | .total => Config.freeWord k .total
  | .leaves => BitVec.ofNat 32 (Config.freeLeaves k).val
  | .root => BitVec.ofNat 32 (Config.freeRoot k).val
  | .maxLen => (Config.freeMaxLen k).setWidth 32
  | .errCode => (errBits (Config.freeErrCode k)).setWidth 32
  | .errAddr => Config.freeWord k .errAddr

/-- The second word of a NODE entry: `{IS_LEAF, 0[4:0], SYM, RIGHT, LEFT}` (R40). -/
def nodeLinksWord (n : Node) : Word :=
  BitVec.ofBool n.isLeaf ++ (0#5 ++ (n.sym ++ (n.right ++ n.left)))

/-- NODE[i] as a window reads it (i ≤ 510 by the map). -/
def nodeOr0 (nodes : Nodes) (i : Nat) : Node := (nodes[i]?).getD Node.zero

/-- A word of a table window (R39, R40, R42, R43); a register through `regWord`. -/
def targetWord (s : State) : Target → Word
  | .reg r => regWord s r
  | .freq x => atSymbol s.freq x
  | .codeLen x => (atSymbol s.codeLen x).setWidth 32
  | .nodeFreq i => (nodeOr0 s.node i).nfreq
  | .nodeLinks i => nodeLinksWord (nodeOr0 s.node i)
  | .codeVal x j => (atSymbol s.codeVal x).extractLsb' (32 * j) 32
  | .reserved => 0

/-- The bus error (R53): "changes no state". -/
def busError (s : State) : State := { s with response := .error }

/-- OKAY to a WRITE. -/
def busOkay (s : State) : State := { s with response := .okay }

/-- OKAY to a READ, with its data. -/
def busData (v : Word) (s : State) : State := { s with response := .okayData v }

/-- A READ of a mapped word (R50, R56, R58). -/
def readTarget (t : Target) (s : State) : State :=
  match t with
  | .reserved => busError s
  | .reg r => if s.busy then busData (regWordBusy s.draws s r) (drawn s) else busData (regWord s r) s
  | t => if s.busy then busError s else busData (targetWord s t) s

/-- A CTRL write (R21): SOFT_RESET = 1 resets and discards the written IRQ_EN. -/
def writeCtrl (w : Word) (s : State) : State :=
  if w.getLsbD 0 then softReset s else { s with irqEn := w.getLsbD 1 }

/-- A CMD write: acceptance while idle (R88); a bus error that sets OVERRUN while busy (R89). -/
def writeCmd (w : Word) (s : State) : State :=
  if s.busy then busError { s with overrun := true } else busOkay (acceptCommand w s)

/-- A write that the block admits only while BUSY = 0 (R58). -/
def writeIdle (s t : State) : State := if s.busy then busError s else busOkay t

/-- A WRITE to a register (R17, R21, R29 to R34, R56, R58). -/
def writeReg (r : Reg) (w : Word) (s : State) : State :=
  match r with
  | .ctrl => busOkay (writeCtrl w s)
  | .status => busOkay (writeStatus w s)
  | .cmd => writeCmd w s
  | .srcAddr => writeIdle s { s with srcAddr := w }
  | .srcLen => writeIdle s { s with srcLen := w }
  | .dstAddr => writeIdle s { s with dstAddr := w }
  | .dstCap => writeIdle s { s with dstCap := w }
  | .id => writeIdle s s
  | .version => writeIdle s s
  | .outLen => writeIdle s s
  | .dataBits => writeIdle s s
  | .symCount => writeIdle s s
  | .total => writeIdle s s
  | .leaves => writeIdle s s
  | .root => writeIdle s s
  | .maxLen => writeIdle s s
  | .errCode => writeIdle s s
  | .errAddr => writeIdle s s

/-- A WRITE of a mapped word: a table window ignores it with OKAY while idle (R56). -/
def writeTarget (t : Target) (w : Word) (s : State) : State :=
  match t with
  | .reserved => busError s
  | .reg r => writeReg r w s
  | _ => writeIdle s s

/-- A transaction at BUF offset `a` (R57): OKAY only where it lies in BUF and BUSY = 0. -/
def bufTxn (op : BusOp) (a : Nat) (size : Size) (w : Word) (s : State) : State :=
  if s.busy || !inBuf s a (sizeBytes size) then busError s
  else
    match op with
    | .read => busData (BitVec.ofNat 32 (s.memRead a (sizeBytes size))) s
    | .write => busOkay (s.memWrite a (sizeBytes size) w.toNat)

/-- A host step: one transaction (R13, R53). A misaligned one gets a bus error (R54), and so does one
of size 1 or 2 below 0x10000 (R55). -/
def busStep (t : Txn) (s : State) : State :=
  if t.addr.toNat % sizeBytes t.size ≠ 0 then busError s
  else if t.addr.toNat < 0x10000 then
    if t.size ≠ .four then busError s
    else
      match t.op with
      | .read => readTarget (target t.addr.toNat) s
      | .write => writeTarget (target t.addr.toNat) t.wdata s
  else bufTxn t.op (t.addr.toNat - 0x10000) t.size t.wdata s

end Sys2Proof.Machine
end

