-- ==== Sys2Proof/Machine/CodeTable.lean ====
section
/-! DEFINITION. The code table generator: GENCODE (spec/43_code_table.md R112 to R119). -/

namespace Sys2Proof.Machine

/-- CODE_LEN and CODE_VAL (R42, R43). -/
structure CodeTable where
  len : Vector (BitVec 8) 256
  val : Vector (BitVec 256) 256
  deriving DecidableEq, Repr

/-- Every CODE_LEN and CODE_VAL entry 0 (R114). -/
def CodeTable.zero : CodeTable := { len := Vector.replicate 256 0, val := Vector.replicate 256 0 }

/-- `CODE_LEN[s] <- d; CODE_VAL[s] <- zext_256(v)` (R114). -/
def CodeTable.put (t : CodeTable) (s : Symbol) (d v : Nat) : CodeTable :=
  { len := setSymbol t.len s (BitVec.ofNat 8 d), val := setSymbol t.val s (BitVec.ofNat 256 v) }

/-- How many nodes a path from ROOT can have: "depth at most L − 1 ≤ 255" (R7). -/
def maxPath : Nat := 256

/-- `Walk(i, d, v)` (R114): 0 to the left, 1 to the right. The first argument counts the nodes a path
may still have; a tree of R49 never uses it up (R7). -/
def walk (nodes : Nodes) : Nat → NodeIdx → Nat → Nat → CodeTable → Answer CodeTable
  | 0, _, _, _, _ => .fault .treeTooDeep
  | fuel + 1, i, d, v, t =>
    match nodeAt nodes i with
    | none => .fault .noSuchNode
    | some n =>
      if n.isLeaf then .ok (t.put n.sym d v)
      else
        match walk nodes fuel n.left (d + 1) (2 * v) t with
        | .ok t' => walk nodes fuel n.right (d + 1) (2 * v + 1) t'
        | .raise e => .raise e
        | .fault f => .fault f

/-- The code table GENCODE derives from a tree, by TREE_KIND (R113, R114). -/
def codesOf (kind : TreeKind) (nodes : Nodes) (root : NodeIdx) : Answer CodeTable :=
  match kind with
  | .empty => .ok CodeTable.zero
  | .single =>
    match nodeAt nodes root with
    | none => .fault .noSuchNode
    | some n => .ok (CodeTable.zero.put n.sym 1 0)
  | .multi => walk nodes maxPath root 0 0 CodeTable.zero

/-- `max over s of CODE_LEN[s]` (R44, R114). -/
def maxCodeLen (t : CodeTable) : BitVec 8 :=
  BitVec.ofNat 8 (t.len.toList.foldl (fun m l => max m l.toNat) 0)

/-- The code table stored, and CODES_VALID set (R114). -/
def coded (t : CodeTable) (s : State) : State :=
  { s with codeLen := t.len, codeVal := t.val, maxLen := maxCodeLen t, codesValid := true }

/-- GENCODE (R114). -/
def execGencode (s : State) : Host.Outcome State Fault Refusal :=
  match firstError [checkValid s.treeValid] with
  | some e => .next (raiseError e s)
  | none =>
    match codesOf s.treeKind s.node s.root with
    | .ok t => .next (completeOk (coded t s))
    | .raise e => .next (raiseError e s)
    | .fault f => .fault f

end Sys2Proof.Machine
end

