-- ==== Sys2Proof/Machine/Counter.lean ====
section
/-! DEFINITION. The frequency counter: COUNT and COUNT.ACC (spec/41_freq_counter.md R97). -/

namespace Sys2Proof.Machine

/-- `FREQ[s] <- FREQ[s] + 1`. The sum keeps the entry's 32 bits (R9), which cannot overflow where
TOTAL = Σ FREQ (R97; notes/assumptions/12.md). -/
def bump (freq : Vector Word 256) (s : Symbol) : Vector Word 256 :=
  setSymbol freq s (atSymbol freq s + 1)

/-- The loop over the source bytes. -/
def countBytes (freq : Vector Word 256) (bytes : List Byte) : Vector Word 256 :=
  bytes.foldl bump freq

/-- `base`, the TOTAL a count starts from (R97). -/
def countBase (acc : Bool) (s : State) : Nat := if acc then s.total.toNat else 0

/-- The FREQ table a count starts from (R73, R97). -/
def countStart (acc : Bool) (s : State) : Vector Word 256 :=
  if acc then s.freq else Vector.replicate 256 0

/-- The OVERFLOW pre-check (R97). -/
def checkTotal (acc : Bool) (s : State) : Option CmdError :=
  if 2 ^ 32 - 1 < countBase acc s + s.srcCount then some ⟨.overflow, 0⟩ else none

/-- FREQ, TOTAL and the two valid bits after a count (R97). -/
def counted (acc : Bool) (s : State) : State :=
  { s with
    freq := countBytes (countStart acc s) s.source
    total := BitVec.ofNat 32 (countBase acc s + s.srcCount)
    treeValid := false
    codesValid := false }

/-- COUNT / COUNT.ACC (R97). -/
def execCount (acc : Bool) (s : State) : Host.Outcome State Fault Refusal :=
  match firstError [checkSrc s, checkTotal acc s] with
  | some e => .next (raiseError e s)
  | none => .next (completeOk (counted acc s))

end Sys2Proof.Machine
end

