-- ==== Sys2Proof/Machine/Encoder.lean ====
section
/-! DEFINITION. The encoder: the payload format and ENCODE (spec/44_encoder.md R120 to R128). -/

namespace Sys2Proof.Machine

/-- A leaf's bits: 1, then its symbol, most significant bit first (R120). -/
def leafBits (s : Symbol) : Bits := true :: msbBits 8 s.toNat

/-- `Serialize(i)`: the subtree at NODE[i] in preorder (R120). The first argument counts the nodes a
path may still have (R7), as in `walk`. -/
def serialize (nodes : Nodes) : Nat → NodeIdx → Answer Bits
  | 0, _ => .fault .treeTooDeep
  | fuel + 1, i =>
    match nodeAt nodes i with
    | none => .fault .noSuchNode
    | some n =>
      if n.isLeaf then .ok (leafBits n.sym)
      else
        match serialize nodes fuel n.left with
        | .ok l =>
          match serialize nodes fuel n.right with
          | .ok r => .ok (false :: (l ++ r))
          | .raise e => .raise e
          | .fault f => .fault f
        | .raise e => .raise e
        | .fault f => .fault f

/-- `Code(s)` (R122): CODE_VAL[s]'s CODE_LEN[s] low bits, the most significant first. -/
def code (s : State) (x : Symbol) : Bits :=
  msbBits (atSymbol s.codeLen x).toNat (atSymbol s.codeVal x).toNat

/-- `Data(x)` (R123): the codes of the symbols in input order. -/
def dataBitsOf (s : State) (x : List Symbol) : Bits := x.flatMap (code s)

/-- `LE32(N)` (R124). -/
def le32 (n : Nat) : List Byte := leBytes 4 n

/-- `Payload(x)` (R125). -/
def payload (s : State) (x : List Symbol) : Answer (List Byte) :=
  if x.length = 0 then .ok (le32 x.length)
  else
    match serialize s.node maxPath s.root with
    | .ok t => .ok (le32 x.length ++ pack t ++ pack (dataBitsOf s x))
    | .raise e => .raise e
    | .fault f => .fault f

/-- The first input byte with no code, as the error it raises; `a` is the first byte's address (R127:
"first offending byte wins"). -/
def checkCodes (s : State) : Nat → List Symbol → Option CmdError
  | _, [] => none
  | a, x :: xs => if atSymbol s.codeLen x = 0 then some ⟨.noCode, a⟩ else checkCodes s (a + 1) xs

/-- ENCODE's pre-checks, in order (R127, R150). -/
def encodeChecks (s : State) : List (Option CmdError) := checkValid s.codesValid :: rangeChecks s

/-- The state NO_CODE or DST_FULL leaves: the window and the result registers `any` (R149). -/
def encodeFailed (s : State) : State := drawn (anyResults s.draws (anyWindow s.draws s))

/-- The payload stored and the result registers written (R127). -/
def encoded (p : List Byte) (s : State) : State :=
  { s.writeBytes s.dstStart p with
    outLen := BitVec.ofNat 32 p.length
    dataBits := if s.srcCount = 0 then 0 else BitVec.ofNat 32 (dataBitsOf s s.source).length
    symCount := s.srcLen }

/-- ENCODE (R127). -/
def execEncode (s : State) : Host.Outcome State Fault Refusal :=
  match firstError (encodeChecks s) with
  | some e => .next (raiseError e s)
  | none =>
    match checkCodes s s.srcStart s.source with
    | some e => .next (raiseError e (encodeFailed s))
    | none =>
      match payload s s.source with
      | .ok p =>
        if s.dstRoom < p.length then
          .next (raiseError ⟨.dstFull, s.dstStart + s.dstRoom⟩ (encodeFailed s))
        else .next (completeOk (encoded p s))
      | .raise e => .next (raiseError e (encodeFailed s))
      | .fault f => .fault f

end Sys2Proof.Machine
end

