-- ==== Sys2Proof/Machine/TreeBuilder.lean ====
section
/-! DEFINITION. The tree builder: BUILD (spec/42_tree_builder.md R102 to R111). -/

namespace Sys2Proof.Machine

/-- The symbols with FREQ[s] > 0, in ascending order (R102). -/
def presentSymbols (freq : Vector Word 256) : List Symbol :=
  alphabet.filter fun s => decide (0 < (atSymbol freq s).toNat)

/-- The leaf of a symbol (R102). -/
def leafNode (s : Symbol) (n : Word) : Node := { isLeaf := true, sym := s, nfreq := n, left := 0, right := 0 }

/-- An internal node: "Internal nodes carry no symbol" (R40, R104). -/
def innerNode (n : Word) (l r : NodeIdx) : Node := { isLeaf := false, sym := 0, nfreq := n, left := l, right := r }

/-- Leaf placement: the leaves of the symbols at NODE[k], NODE[k+1], … (R102). -/
def placeLeaves (freq : Vector Word 256) : List Symbol → Nat → Nodes → Nodes
  | [], _, nodes => nodes
  | s :: rest, k, nodes =>
    placeLeaves freq rest (k + 1) (setNode nodes k (leafNode s (atSymbol freq s)))

/-- NODE[i].NFREQ. -/
def nfreqAt (nodes : Nodes) (i : Nat) : Word := ((nodes[i]?).map Node.nfreq).getD 0

/-- The priority order: (NODE[i].NFREQ, i) lexicographically less than (NODE[j].NFREQ, j) (R103). -/
def precedes (nodes : Nodes) (i j : Nat) : Bool :=
  decide ((nfreqAt nodes i).toNat < (nfreqAt nodes j).toNat)
    || (decide ((nfreqAt nodes i).toNat = (nfreqAt nodes j).toNat) && decide (i < j))

/-- The least of an index and a queue, and the others. -/
def extractMin (nodes : Nodes) : Nat → List Nat → Nat × List Nat
  | x, [] => (x, [])
  | x, y :: q =>
    if precedes nodes y x then
      let (m, r) := extractMin nodes y q
      (m, x :: r)
    else
      let (m, r) := extractMin nodes x q
      (m, y :: r)

/-- PopMin "removes and returns the least index of the queue" (R103). -/
def popMin (nodes : Nodes) : List Nat → Option (Nat × List Nat)
  | [] => none
  | x :: q => some (extractMin nodes x q)

/-- The merges (R104): `m` of them are left, the next writes NODE[next]. The first popped index is
LEFT, the second RIGHT (R105). NFREQ keeps its 32 bits, which cannot overflow where TOTAL = Σ FREQ
(R109; notes/assumptions/12.md). BUILD calls it with one merge fewer than the queue has
indices, so both pops find one. -/
def mergeAll : Nat → Nat → List Nat → Nodes → Nodes
  | 0, _, _, nodes => nodes
  | m + 1, next, q, nodes =>
    match popMin nodes q with
    | none => nodes
    | some (a, q1) =>
      match popMin nodes q1 with
      | none => nodes
      | some (b, q2) =>
        mergeAll m (next + 1) (next :: q2)
          (setNode nodes next
            (innerNode (nfreqAt nodes a + nfreqAt nodes b) (BitVec.ofNat 9 a) (BitVec.ofNat 9 b)))

/-- L, the number of present symbols (R102). -/
def leafCount (freq : Vector Word 256) : Nat := (presentSymbols freq).length

/-- NODE after BUILD: the leaves, then the merges. -/
def builtNodes (freq : Vector Word 256) (nodes : Nodes) : Nodes :=
  mergeAll (leafCount freq - 1) (leafCount freq) (List.range (leafCount freq))
    (placeLeaves freq (presentSymbols freq) 0 nodes)

/-- TREE_KIND by the number of leaves (R104). -/
def builtKind (l : Nat) : TreeKind := if l = 0 then .empty else if l = 1 then .single else .multi

/-- ROOT by the number of leaves: 2L − 2 where L ≥ 2, else 0 (R104). -/
def builtRoot (l : Nat) : Nat := if l ≤ 1 then 0 else 2 * l - 2

/-- NODE, LEAVES, ROOT, TREE_KIND and the two valid bits after BUILD (R104, R107). -/
def built (s : State) : State :=
  { s with
    node := builtNodes s.freq s.node
    leaves := BitVec.ofNat 9 (leafCount s.freq)
    root := BitVec.ofNat 9 (builtRoot (leafCount s.freq))
    treeKind := builtKind (leafCount s.freq)
    treeValid := true
    codesValid := false }

/-- BUILD "always succeeds" (R104). -/
def execBuild (s : State) : Host.Outcome State Fault Refusal := .next (completeOk (built s))

end Sys2Proof.Machine
end

