-- ==== Sys2Proof/Machine/Decoder.lean ====
section
/-! DEFINITION. The decoder: DECODE (spec/45_decoder.md R133 to R141).

The bits of a section are read through a function `rd`, BitAt of the section's start on the state
DECODE starts in. The output bytes are stored when the walk is over: no byte of the source lies in
the window (CheckApart, R60, R90), so no bit read can have been written before it
(notes/assumptions/10.md). -/

namespace Sys2Proof.Machine

/-- The variables of LoadTree (R136): `seen` is the set of the leaf symbols read so far. -/
structure Loader where
  pos : Nat
  next : Nat
  internals : Nat
  leaves : Nat
  seen : List Symbol
  nodes : Nodes
  deriving DecidableEq, Repr

/-- `sum over k in 0..7 of BitAt(tb, pos + k) * 2^(7 - k)` (R136). -/
def symbolAt (rd : Nat → Bool) (pos : Nat) : Symbol :=
  BitVec.ofNat 8 (bitsNumber ((List.range 8).map fun k => rd (pos + k)))

/-- `Parse()` (R136): the index of the node it wrote, and the variables after it. `tb` is the tree
section's start, `limit` its bits, `stop` = a + n the address DEC_TRUNC records. The first
argument counts the levels of the recursion that are left: it starts at 256 and is never used up,
since the 256th internal node raises DEC_TREE. -/
def parse (rd : Nat → Bool) (tb limit stop : Nat) : Nat → Loader → Answer (Nat × Loader)
  | 0, _ => .fault .treeTooDeep
  | fuel + 1, p =>
    if limit ≤ p.pos then .raise ⟨.decTrunc, stop⟩
    else if rd p.pos then
      if limit < p.pos + 1 + 8 then .raise ⟨.decTrunc, stop⟩
      else if symbolAt rd (p.pos + 1) ∈ p.seen then .raise ⟨.decTree, tb + p.pos / 8⟩
      else
        .ok (p.next,
          { pos := p.pos + 1 + 8
            next := p.next + 1
            internals := p.internals
            leaves := p.leaves + 1
            seen := symbolAt rd (p.pos + 1) :: p.seen
            nodes := setNode p.nodes p.next (leafNode (symbolAt rd (p.pos + 1)) 0) })
    else if p.internals = 255 then .raise ⟨.decTree, tb + p.pos / 8⟩
    else
      match parse rd tb limit stop fuel
        { p with pos := p.pos + 1, next := p.next + 1, internals := p.internals + 1 } with
      | .ok (l, pl) =>
        match parse rd tb limit stop fuel pl with
        | .ok (r, pr) =>
          .ok (p.next,
            { pr with nodes := setNode pr.nodes p.next (innerNode 0 (BitVec.ofNat 9 l) (BitVec.ofNat 9 r)) })
        | .raise e => .raise e
        | .fault f => .fault f
      | .raise e => .raise e
      | .fault f => .fault f

/-- `LoadTree(tb, limit)` (R136): the loader's variables after the whole tree. -/
def loadTree (rd : Nat → Bool) (tb limit stop : Nat) (nodes : Nodes) : Answer Loader :=
  match parse rd tb limit stop maxPath
    { pos := 0, next := 0, internals := 0, leaves := 0, seen := [], nodes := nodes } with
  | .ok (_, p) => .ok p
  | .raise e => .raise e
  | .fault f => .fault f

/-- `kind = (NODE[0].IS_LEAF == 1) ? SINGLE : MULTI` (R136). -/
def loadedKind (nodes : Nodes) : TreeKind :=
  if (nodes[0]'(by decide)).isLeaf then .single else .multi

/-- The `while` loop of WalkData (R139) from node `i` and bit `q`: left on 0, right on 1, to a leaf.
The first argument is limit − q, the bits that are left. -/
def descend (rd : Nat → Bool) (stop : Nat) (nodes : Nodes) : Nat → Nat → NodeIdx → Answer (Symbol × Nat)
  | 0, q, i =>
    match nodeAt nodes i with
    | none => .fault .noSuchNode
    | some n => if n.isLeaf then .ok (n.sym, q) else .raise ⟨.decTrunc, stop⟩
  | left + 1, q, i =>
    match nodeAt nodes i with
    | none => .fault .noSuchNode
    | some n =>
      if n.isLeaf then .ok (n.sym, q)
      else descend rd stop nodes left (q + 1) (if rd q then n.right else n.left)

/-- One symbol of a SINGLE tree (R139): its only code is `0`. `db` is the data section's start. -/
def singleSymbol (rd : Nat → Bool) (db limit stop : Nat) (nodes : Nodes) (q : Nat) : Answer (Symbol × Nat) :=
  if limit ≤ q then .raise ⟨.decTrunc, stop⟩
  else if rd q then .raise ⟨.decCode, db + q / 8⟩
  else .ok ((nodes[0]'(by decide)).sym, q + 1)

/-- One symbol of the data section (R139), by the tree's kind. -/
def nextSymbol (rd : Nat → Bool) (db limit stop : Nat) (kind : TreeKind) (nodes : Nodes) (q : Nat) :
    Answer (Symbol × Nat) :=
  match kind with
  | .single => singleSymbol rd db limit stop nodes q
  | .multi => descend rd stop nodes (limit - q) q 0
  | .empty => descend rd stop nodes (limit - q) q 0

/-- `WalkData` (R139): the symbols emitted and the bits consumed. The first argument is the number of
symbols that are left. -/
def walkData (rd : Nat → Bool) (db limit stop : Nat) (kind : TreeKind) (nodes : Nodes) :
    Nat → Nat → Answer (List Symbol × Nat)
  | 0, q => .ok ([], q)
  | n + 1, q =>
    match nextSymbol rd db limit stop kind nodes q with
    | .ok (x, q') =>
      match walkData rd db limit stop kind nodes n q' with
      | .ok (xs, q'') => .ok (x :: xs, q'')
      | .raise e => .raise e
      | .fault f => .fault f
    | .raise e => .raise e
    | .fault f => .fault f

/-- What a DECODE that succeeds with N > 0 leaves (R133). -/
structure Decoded where
  symbols : List Symbol
  bits : Nat
  tree : Loader
  deriving DecidableEq, Repr

/-- N, `ReadHeader()` of a payload with at least 4 bytes (R134). -/
def headerCount (s : State) : Nat := s.memRead s.srcStart 4

/-- LoadTree and WalkData of the payload in the source range, for `count` symbols (R133). -/
def decodeBody (s : State) (count : Nat) : Answer Decoded :=
  let tb := s.srcStart + 4
  let stop := s.srcStart + s.srcCount
  match loadTree (s.bitAt tb) tb (8 * (s.srcCount - 4)) stop s.node with
  | .ok p =>
    let db := tb + (p.pos + 7) / 8
    match walkData (s.bitAt db) db (8 * (stop - db)) stop (loadedKind p.nodes) p.nodes count 0 with
    | .ok (xs, q) => .ok { symbols := xs, bits := q, tree := p }
    | .raise e => .raise e
    | .fault f => .fault f
  | .raise e => .raise e
  | .fault f => .fault f

/-- Both valid bits 0 (R133, R141). -/
def invalidated (s : State) : State := { s with treeValid := false, codesValid := false }

/-- The state an error after the pre-checks leaves (R141, R149). -/
def decodeFailed (s : State) : State :=
  drawn (anyTree s.draws (anyResults s.draws (anyWindow s.draws (invalidated s))))

/-- What a DECODE of a zero-count payload leaves (R133). -/
def decodedEmpty (s : State) : State :=
  { s with
    leaves := 0
    root := 0
    treeKind := .empty
    treeValid := true
    codesValid := false
    outLen := 0
    dataBits := 0
    symCount := 0 }

/-- What a DECODE of a payload with `count` > 0 symbols leaves (R133). -/
def decoded (count : Nat) (r : Decoded) (s : State) : State :=
  { s.writeBytes s.dstStart r.symbols with
    node := r.tree.nodes
    leaves := BitVec.ofNat 9 r.tree.leaves
    root := 0
    treeKind := loadedKind r.tree.nodes
    treeValid := true
    codesValid := false
    outLen := BitVec.ofNat 32 count
    dataBits := BitVec.ofNat 32 r.bits
    symCount := BitVec.ofNat 32 count }

/-- DECODE (R133). -/
def execDecode (s : State) : Host.Outcome State Fault Refusal :=
  match firstError (rangeChecks s) with
  | some e => .next (raiseError e s)
  | none =>
    if s.srcCount < 4 then
      .next (raiseError ⟨.decTrunc, s.srcStart + s.srcCount⟩ (decodeFailed s))
    else if headerCount s = 0 then .next (completeOk (decodedEmpty s))
    else if s.dstRoom < headerCount s then
      .next (raiseError ⟨.dstFull, s.dstStart + s.dstRoom⟩ (decodeFailed s))
    else
      match decodeBody s (headerCount s) with
      | .ok r => .next (completeOk (decoded (headerCount s) r s))
      | .raise e => .next (raiseError e (decodeFailed s))
      | .fault f => .fault f

end Sys2Proof.Machine
end

