-- ==== Sys2Proof/Machine/Nop.lean ====
section
/-! DEFINITION. NOP (spec/40_command_common.md R95). -/

namespace Sys2Proof.Machine

/-- NOP: `complete` (R95). -/
def execNop (s : State) : Host.Outcome State Fault Refusal := .next (completeOk s)

end Sys2Proof.Machine
end

