-- ==== Sys2Proof/Machine/Engine.lean ====
section
/-! DEFINITION. The engine step (spec/40_command_common.md R92) and the events around the block
(spec/00_scope.md R13). -/

namespace Sys2Proof.Machine

/-- The engine step of an accepted command (R86, R92): decode CMD, perform the command and complete
it; a word that is no command completes with ILLEGAL_CMD, ERR_ADDR = 0 (R75). -/
def engineStep (s : State) : Host.Outcome State Fault Refusal :=
  match decode s.cmd with
  | some i => exec i s
  | none => .next (raiseError ⟨.illegalCmd, 0⟩ s)

/-- The Engine's turn: "The Engine takes no step while BUSY = 0" (R92). -/
def engineTurn (s : State) : Host.Outcome State Fault Refusal :=
  if s.busy then engineStep s else .next s

/-- One event. -/
def runEvent (e : Event) (s : State) : Host.Outcome State Fault Refusal :=
  match e with
  | .host t => .next (busStep t s)
  | .engine => engineTurn s
  | .hardwareReset => .next (hardwareReset s)

/-- What happens next: the first pending event; where none is pending, the Engine's turn, which an
accepted command always gets (weak fairness, R177), and otherwise nothing (idle, R161). -/
def nextEvent (s : State) : Host.Outcome State Fault Refusal :=
  match s.pending with
  | [] => engineTurn s
  | e :: rest => runEvent e { s with pending := rest }

end Sys2Proof.Machine
end

