-- ==== Sys2Proof/Machine/Step.lean ====
section
/-! DEFINITION. One step of the block and its surroundings (spec/00_scope.md R13). -/

namespace Sys2Proof.Machine

/-- One step: the next event, a host step, an engine step or a reset (R13). -/
def step (s : State) : Host.Outcome State Fault Refusal := nextEvent s

/-- `s` with the word of an instruction where the next step takes its command from: the block fetches
nothing (R16, R69), so the word is accepted into CMD as a CMD write accepts it (R88) and the
Engine's turn is next (notes/assumptions/3.md). -/
def State.withFetchWord (s : State) (nbits w : Nat) : State :=
  { acceptCommand (BitVec.ofNat 32 (w % 2 ^ nbits)) s with pending := .engine :: s.pending }

end Sys2Proof.Machine
end

