-- ==== Sys2Proof/Machine/HostProgram.lean ====
section
/-! DEFINITION. Host programs as events (spec/30_encoding.md R79 to R84): the transaction of each line,
the expansion of each pseudo-instruction, and the text encoding of a transaction. -/

namespace Sys2Proof.Machine

/-- A READ of a register (R79). -/
def readReg (r : Reg) : Txn := { op := .read, addr := BitVec.ofNat 17 (regOffset r), size := .four, wdata := 0 }

/-- A WRITE of a register (R79). -/
def writeRegTxn (r : Reg) (v : Word) : Txn :=
  { op := .write, addr := BitVec.ofNat 17 (regOffset r), size := .four, wdata := v }

/-- The transaction of a line (R79). -/
def lineTxn : Line → Txn
  | .wr r v => writeRegTxn r v
  | .rd r => readReg r
  | .wrBuf size a v => { op := .write, addr := BitVec.ofNat 17 (0x10000 + a), size := size, wdata := v }
  | .rdBuf size a => { op := .read, addr := BitVec.ofNat 17 (0x10000 + a), size := size, wdata := 0 }
  | .rdw off => { op := .read, addr := BitVec.ofNat 17 off, size := .four, wdata := 0 }

/-- `load a, b0 b1 …`: one `wr8` a byte (R81). -/
def loadTxns : Nat → List Byte → List Txn
  | _, [] => []
  | a, b :: bs => lineTxn (.wrBuf .one a (b.setWidth 32)) :: loadTxns (a + 1) bs

/-- The bytes of a text, one a character: its ASCII code (R81). -/
def textBytes (text : List Char) : List Byte := text.map fun ch => BitVec.ofNat 8 ch.toNat

/-- What the Host does: one transaction, or the loop of `wait`, "the only control transfer in a host
program" (R81). -/
inductive HostAct where
  | txn (t : Txn)
  | wait
  deriving DecidableEq, Repr

/-- What the Host does for a statement (R79 to R81). -/
def stmtActs : Stmt → List HostAct
  | .line l => [.txn (lineTxn l)]
  | .cmd m => [.txn (writeRegTxn .cmd (encode m))]
  | .cmdRaw w => [.txn (writeRegTxn .cmd w)]
  | .wait => [.wait]
  | .run m => [.txn (writeRegTxn .cmd (encode m)), .wait]
  | .setsrc a n => [.txn (writeRegTxn .srcAddr a), .txn (writeRegTxn .srcLen n)]
  | .setdst a c => [.txn (writeRegTxn .dstAddr a), .txn (writeRegTxn .dstCap c)]
  | .load a bytes => (loadTxns a bytes).map .txn
  | .loadText a text => (loadTxns a (textBytes text)).map .txn
  | .ack => [.txn (writeRegTxn .status 0x0000000E)]

/-- What the Host does for a program. -/
def programActs (p : List Stmt) : List HostAct := p.flatMap stmtActs

/-- A CMD write: accepted where no command runs (R88), refused where one does (R89). -/
def issuesCommand (t : Txn) : Bool := decide (t.op = .write ∧ t.size = .four ∧ t.addr = 0x00010)

/-- A CTRL write that performs the soft reset (R21), which abandons a running command (R163). -/
def resetsBlock (t : Txn) : Bool :=
  decide (t.op = .write ∧ t.size = .four ∧ t.addr = 0x00008) && t.wdata.getLsbD 0

/-- The events of what the Host does, in order. `running` is `none` where BUSY = 0, and `some k` where a
command runs whose Engine's turn comes after `k` more host steps. `delays` are these numbers for
the commands to come, in the order of their acceptance, 0 past its end: "any finite number" (U7,
R177; notes/assumptions/19.md). A `wait` READs STATUS until it returns BUSY = 0: once where no
command runs, else `k` times before the Engine's turn and once after it. -/
def actEvents : Option Nat → List Nat → List HostAct → List Event
  | _, _, [] => []
  | none, delays, .wait :: rest => .host (readReg .status) :: actEvents none delays rest
  | some k, delays, .wait :: rest =>
    List.replicate k (.host (readReg .status))
      ++ .engine :: .host (readReg .status) :: actEvents none delays rest
  | none, delays, .txn t :: rest =>
    .host t ::
      (if issuesCommand t then actEvents (some (delays.headD 0)) delays.tail rest
       else actEvents none delays rest)
  | some 0, delays, .txn t :: rest =>
    .engine :: .host t ::
      (if issuesCommand t then actEvents (some (delays.headD 0)) delays.tail rest
       else actEvents none delays rest)
  | some (k + 1), delays, .txn t :: rest =>
    .host t :: actEvents (if resetsBlock t then none else some k) delays rest

/-- The events of a program that starts where no command runs. -/
def programEvents (delays : List Nat) (p : List Stmt) : List Event := actEvents none delays (programActs p)

/-- `s` with a host program's events pending after the ones it has. -/
def State.withProgram (s : State) (delays : List Nat) (p : List Stmt) : State :=
  { s with pending := s.pending ++ programEvents delays p }

/-- A hexadecimal digit, capital letters. -/
def hexDigit (n : Nat) : Char :=
  ['0', '1', '2', '3', '4', '5', '6', '7', '8', '9', 'A', 'B', 'C', 'D', 'E', 'F'].getD n '0'

/-- The `n` low hexadecimal digits of a number, the most significant first. -/
def hexDigits : Nat → Nat → List Char
  | 0, _ => []
  | n + 1, v => hexDigit (v / 16 ^ n % 16) :: hexDigits n v

/-- The encoding of a transaction, `W@0x00010/4=0x00000002` or `R@0x0000C/4` (R83), as characters. -/
def txnText (t : Txn) : List Char :=
  let place := ['@', '0', 'x'] ++ hexDigits 5 t.addr.toNat ++ ['/', hexDigit (sizeBytes t.size)]
  match t.op with
  | .read => 'R' :: place
  | .write => 'W' :: (place ++ ['=', '0', 'x'] ++ hexDigits 8 t.wdata.toNat)

/-- The transaction of an event, if it is one. -/
def eventTxn : Event → Option Txn
  | .host t => some t
  | .engine => none
  | .hardwareReset => none

/-- The encoding of a program as it ran: "the list of its transactions" (R83), each `wait` as often as it
read STATUS. -/
def programText (delays : List Nat) (p : List Stmt) : List (List Char) :=
  ((programEvents delays p).filterMap eventTxn).map txnText

end Sys2Proof.Machine
end

