-- ==== Sys2Proof/Safety.lean ====
section
/-! DEFINITION. The terms claims are made in: a coding tree as such, what it means that NODE holds it,
its codes and its serialization, and the invariants of spec/10_state.md R49. -/

namespace Sys2Proof.Machine

/-- A coding tree: "a *leaf* (owns one Symbol …) or an *internal* node (owns exactly two child
nodes)" (R12). -/
inductive CodeTree where
  | leaf (s : Symbol)
  | node (l r : CodeTree)
  deriving DecidableEq, Repr

/-- The leaves' symbols, left to right. -/
def CodeTree.symbols : CodeTree → List Symbol
  | .leaf s => [s]
  | .node l r => l.symbols ++ r.symbols

/-- How many steps the longest path from the root has. -/
def CodeTree.depth : CodeTree → Nat
  | .leaf _ => 0
  | .node l r => max l.depth r.depth + 1

/-- How many nodes a tree has. -/
def CodeTree.size : CodeTree → Nat
  | .leaf _ => 1
  | .node l r => l.size + r.size + 1

/-- Each leaf's symbol with its root-to-leaf path, 0 for a left and 1 for a right step (R112). -/
def CodeTree.paths : CodeTree → List (Symbol × Bits)
  | .leaf s => [(s, [])]
  | .node l r =>
    (l.paths.map fun p => (p.1, false :: p.2)) ++ (r.paths.map fun p => (p.1, true :: p.2))

/-- The code of each symbol of a tree: its path (R112), but `0` for a tree of one leaf (R113). -/
def CodeTree.codes : CodeTree → List (Symbol × Bits)
  | .leaf s => [(s, [false])]
  | .node l r => (CodeTree.node l r).paths

/-- The grammar of a tree section (R120). -/
def CodeTree.bits : CodeTree → Bits
  | .leaf s => leafBits s
  | .node l r => false :: (l.bits ++ r.bits)

/-- TREE_KIND of a tree (R28). -/
def CodeTree.kind : CodeTree → TreeKind
  | .leaf _ => .single
  | .node _ _ => .multi

/-- A node as a tree section gives it: an internal node, or a leaf with its symbol (R120). -/
abbrev SectionNode := Option Symbol

/-- The bits of a node in a tree section: its flag bit, and a leaf's symbol after it (R120). -/
def SectionNode.bits : SectionNode → Bits
  | none => [false]
  | some s => leafBits s

/-- The bits of a sequence of nodes in a tree section. -/
def sectionBits (l : List SectionNode) : Bits := l.flatMap SectionNode.bits

/-- The leaf symbols among the nodes of a tree section, in order. -/
def sectionSymbols (l : List SectionNode) : List Symbol := l.filterMap id

/-- A tree's nodes in preorder, as its section gives them (R120). -/
def CodeTree.nodes : CodeTree → List SectionNode
  | .leaf s => [some s]
  | .node l r => none :: (l.nodes ++ r.nodes)

/-- The nodes that a tree section starts with do not make up a tree yet: there is none, or an internal
node whose left subtree is not complete, or one whose left subtree is and whose right is not. -/
inductive Unfinished : List SectionNode → Prop
  | start : Unfinished []
  | inLeft (l : List SectionNode) : Unfinished l → Unfinished (none :: l)
  | inRight (t : CodeTree) (l : List SectionNode) : Unfinished l → Unfinished (none :: (t.nodes ++ l))

/-- The nodes that a tree section starts with are an unfinished tree with nothing malformed in it (R138):
its leaf symbols are distinct and it has at most 255 internal nodes. -/
structure WellFormedSoFar (l : List SectionNode) : Prop where
  unfinished : Unfinished l
  distinct : (sectionSymbols l).Nodup
  internals : l.count none ≤ 255

/-- A node is malformed after the nodes `l`, "in exactly two cases" (R138): a leaf that repeats a symbol,
or a 256th internal node. -/
def Malformed (l : List SectionNode) : SectionNode → Prop
  | none => l.count none = 255
  | some s => s ∈ sectionSymbols l

/-- NODE holds the tree at index `i`: the nodes reached from `i` by LEFT and RIGHT are the tree's. -/
def holds (nodes : Nodes) : NodeIdx → CodeTree → Bool
  | i, .leaf s =>
    match nodeAt nodes i with
    | some n => n.isLeaf && n.sym == s
    | none => false
  | i, .node l r =>
    match nodeAt nodes i with
    | some n => !n.isLeaf && holds nodes n.left l && holds nodes n.right r
    | none => false

/-- The tree's nodes written from NODE[i] up in preorder, as LoadTree places them: "the preorder
indices of its children", every NFREQ 0 (R137). -/
def placeTree (nodes : Nodes) (i : Nat) : CodeTree → Nodes
  | .leaf s => setNode nodes i (leafNode s 0)
  | .node l r =>
    setNode (placeTree (placeTree nodes (i + 1) l) (i + 1 + l.size) r) i
      (innerNode 0 (BitVec.ofNat 9 (i + 1)) (BitVec.ofNat 9 (i + 1 + l.size)))

/-- The indices of the nodes reached from `i` along a tree, one entry for each path. -/
def reached (nodes : Nodes) : NodeIdx → CodeTree → List NodeIdx
  | i, .leaf _ => [i]
  | i, .node l r =>
    match nodeAt nodes i with
    | some n => i :: (reached nodes n.left l ++ reached nodes n.right r)
    | none => [i]

/-- "the nodes reachable from ROOT … form a tree. Every node is reached by exactly one path … There
are LEAVES … leaves, and their SYM values are pairwise distinct" (R49.4). -/
structure TreeAt (s : State) (t : CodeTree) : Prop where
  inNode : holds s.node s.root t = true
  onePath : (reached s.node s.root t).Nodup
  distinct : t.symbols.Nodup
  count : s.leaves.toNat = t.symbols.length

/-- The invariants of R49, in every state whether a command is running or not, and with them what
they rest on: BUF_SIZE is legal (R6), BUF's cells are canonical and lie in BUF, STATUS agrees with
the error registers (R93, R94), and an accepted command has neither flag up (R50, R88). -/
structure Invariants (s : State) : Prop where
  sizeLegal : s.cfg.wf = true
  bufCanonical : Memory.wf s.buf = true
  bufInRange : ∀ c ∈ s.buf, c.1 < s.cfg.bufSize
  totalIsSum : s.total.toNat = (s.freq.toList.map BitVec.toNat).sum
  codesNeedTree : s.codesValid = true → s.treeValid = true
  singleTree : s.treeValid = true → s.treeKind = .single →
    s.leaves = 1 ∧ ∃ n, nodeAt s.node s.root = some n ∧ n.isLeaf = true
  multiTree : s.treeValid = true → s.treeKind = .multi → 2 ≤ s.leaves.toNat ∧ ∃ t, TreeAt s t
  emptyTree : s.treeValid = true → s.treeKind = .empty → s.leaves = 0 ∧ s.root = 0
  codesCurrent : s.codesValid = true →
    ∃ t, codesOf s.treeKind s.node s.root = .ok t ∧ s.codeLen = t.len ∧ s.codeVal = t.val ∧
      s.maxLen = maxCodeLen t
  oneFlag : ¬(s.done = true ∧ s.err = true)
  busyClear : s.busy = true → s.done = false ∧ s.err = false
  errNamed : s.err = true → s.errCode ≠ .none
  doneUnnamed : s.done = true → s.errCode = .none ∧ s.errAddr = 0

/-- A state with what a successful completion writes (R93). -/
def succeeded (s : State) : State :=
  { s with busy := false, done := true, err := false, errCode := .none, errAddr := 0 }

/-- A state with what an error completion writes (R94). -/
def failedWith (c : ErrCode) (addr : Nat) (s : State) : State :=
  { s with busy := false, done := false, err := true, errCode := c, errAddr := BitVec.ofNat 32 addr }

/-- The source range and the destination window lie in BUF and share no byte (R90). -/
structure RangesLegal (s : State) : Prop where
  src : s.srcAddr.toNat + s.srcLen.toNat ≤ s.cfg.bufSize
  dst : s.dstAddr.toNat + s.dstCap.toNat ≤ s.cfg.bufSize
  apart : s.srcLen.toNat = 0 ∨ s.dstCap.toNat = 0 ∨
    s.dstAddr.toNat + s.dstCap.toNat ≤ s.srcAddr.toNat ∨
    s.srcAddr.toNat + s.srcLen.toNat ≤ s.dstAddr.toNat

/-- BUF reads the same in two states outside the `n` bytes from `a` up. -/
def SameOutside (a n : Nat) (s t : State) : Prop :=
  ∀ b, (b < a ∨ a + n ≤ b) → t.readByte b = s.readByte b

/-- BUF reads the same in two states. -/
def SameBuf (s t : State) : Prop := ∀ b, t.readByte b = s.readByte b

/-- BUF holds a sequence of bytes from `a` up. -/
def BytesAt (s : State) (a : Nat) (p : List Byte) : Prop :=
  ∀ i, (h : i < p.length) → s.readByte (a + i) = p[i]

/-- The section that starts at BUF offset `base` begins with a bit-string (R61, R63). -/
def BitsAt (s : State) (base : Nat) (b : Bits) : Prop :=
  ∀ k, (h : k < b.length) → s.bitAt base k = b[k]

/-- The bits of a sequence of codes (R123). -/
def codeBits (cs : List (Symbol × Bits)) : Bits := cs.flatMap Prod.snd

/-- The payload of `n` symbols under a tree, with their code bits (R125). -/
def payloadOf (n : Nat) (t : CodeTree) (data : Bits) : List Byte :=
  if n = 0 then le32 0 else le32 n ++ pack t.bits ++ pack data

/-- L, the number of symbols with FREQ[s] > 0 (R102). -/
def presentCount (f : Vector Word 256) : Nat :=
  (alphabet.filter fun x => decide (atSymbol f x ≠ 0)).length

/-- An index below NODE[l + m] that is no child of the merged nodes NODE[l], …, NODE[l + m − 1]: it is
in the queue at merge `m` of a BUILD with `l` leaves (R104). -/
def InQueue (nodes : Nodes) (l m j : Nat) : Prop :=
  j < l + m ∧ ∀ k, k < m → ∀ n, nodes[l + k]? = some n → n.left.toNat ≠ j ∧ n.right.toNat ≠ j

/-- A run that never stops: the block "never stops and never faults" (R13). -/
def Runs (s : State) : Prop := ∀ n, ∃ t, Host.Core.run Sys2Proof.core n s = .next t

end Sys2Proof.Machine
end

