-- ==== Sys2Proof/Certificates/Slice0/Obligations.lean ====
section
/-! DEFINITION. The statements about the block, in the terms of Safety.lean. Each docstring names the rules
of spec/ it formalises; OBLIGATIONS.json quotes them. -/

open Sys2Proof Sys2Proof.Machine

/-! ## The command word -/

/-- The seven legal words and what each decodes to (R74). -/
def Obligations.ExactlySevenWordsDecode : Prop :=
  ∀ (w : Word) (i : Instr), decode w = some i ↔
    (w, i) ∈ ([(0x00000000, .nop), (0x00000001, .count false), (0x00000101, .count true),
      (0x00000002, .build), (0x00000003, .gencode), (0x00000004, .encode), (0x00000005, .decode)] :
        List (Word × Instr))

/-- Decoding an encoded command gives it back, by the decoder and through the opcode table's word. -/
def Obligations.EncodedCommandsDecode : Prop :=
  (∀ i : Instr, i.wf = true →
    decode (encode i) = some i ∧ decodeTableWord 32 (encode i).toNat = some i) ∧
  ∀ (w : Word) (i : Instr), decode w = some i → encode i = w

/-- The host notation's words, and that `cmd M` and `cmd raw w` are CMD writes (R80). -/
def Obligations.NotationWordsAreCmdWrites : Prop :=
  encode .nop = 0x00000000 ∧ encode (.count false) = 0x00000001 ∧ encode (.count true) = 0x00000101 ∧
  encode .build = 0x00000002 ∧ encode .gencode = 0x00000003 ∧ encode .encode = 0x00000004 ∧
  encode .decode = 0x00000005 ∧
  (∀ m, stmtActs (.cmd m) = [.txn { op := .write, addr := 0x00010, size := .four, wdata := encode m }]) ∧
  ∀ w, stmtActs (.cmdRaw w) = [.txn { op := .write, addr := 0x00010, size := .four, wdata := w }]

/-! ## Steps -/

/-- A step takes the next pending event: a host transaction, a hardware reset, or an Engine's turn that
finds BUSY = 0 and does nothing. (That the events stand in a list is the model's choice,
notes/assumptions/2.md.) -/
def Obligations.StepTakesTheNextEvent : Prop :=
  ∀ (s : State) (rest : List Event),
    (∀ t, s.pending = .host t :: rest → step s = .next (busStep t { s with pending := rest })) ∧
    (s.pending = .hardwareReset :: rest → step s = .next (hardwareReset { s with pending := rest })) ∧
    (s.pending = .engine :: rest → s.busy = false → step s = .next { s with pending := rest }) ∧
    (s.pending = [] → s.busy = false → step s = .next s)

/-- An engine step runs the command that CMD decodes to (R86, R92), on the Engine's turn. R92 says that the
Engine may step while BUSY = 1; that its turns stand in a list (notes/assumptions/2.md), and that
with nothing pending it moves in the very next step (the second clause, notes/assumptions/14.md),
are the model's. -/
def Obligations.StepRunsTheDecodedCommand : Prop :=
  ∀ (s : State) (i : Instr), s.busy = true → decode s.cmd = some i →
    (∀ rest, s.pending = .engine :: rest → step s = exec i { s with pending := rest }) ∧
    (s.pending = [] → step s = exec i s)

/-- A command's word placed by `withFetchWord` runs in the very next step, from the state its acceptance
leaves (R88; the placing itself is the model's, notes/assumptions/3.md). -/
def Obligations.PlacedWordRunsNext : Prop :=
  ∀ (s : State) (i : Instr), step (s.withFetchWord 32 (encode i).toNat)
    = exec i { s with cmd := encode i, busy := true, done := false, err := false }

/-- A word that is no command is accepted like any and completes with ILLEGAL_CMD, ERR_ADDR = 0, and
nothing else changes; opcodes 0x06 to 0xFF are illegal (R75). -/
def Obligations.IllegalWordsCompleteWithAnError : Prop :=
  (∀ (s : State) (w : Word) (rest : List Event), s.busy = false → decode w = none →
    s.pending = .host { op := .write, addr := 0x00010, size := .four, wdata := w } :: .engine :: rest →
    Host.Core.run Sys2Proof.core 2 s
      = .next (failedWith .illegalCmd 0 { s with cmd := w, pending := rest, response := .okay })) ∧
  ∀ w : Word, 6 ≤ w.toNat % 256 → decode w = none

/-- A CMD write while idle accepts the word, whatever it is (R88); while busy it gets a bus error and sets
OVERRUN, and that is all (R89). -/
def Obligations.CmdWritesAcceptOrOverrun : Prop :=
  ∀ (s : State) (w : Word),
    (s.busy = false →
      busStep { op := .write, addr := 0x00010, size := .four, wdata := w } s
        = { s with cmd := w, busy := true, done := false, err := false, response := .okay } ∧
      irq { s with cmd := w, busy := true, done := false, err := false, response := .okay } = false) ∧
    (s.busy = true →
      busStep { op := .write, addr := 0x00010, size := .four, wdata := w } s
        = { s with overrun := true, response := .error })

/-! ## NOP -/

/-- NOP completes in every state and writes only the completion state; no other word with OP = 0x00 is
legal; from reset it leaves STATUS = 2 (R95). -/
def Obligations.NopCompletes : Prop :=
  (∀ s : State, exec .nop s = .next (succeeded s)) ∧
  (∀ w : Word, w.toNat % 256 = 0 → w ≠ 0 → decode w = none) ∧
  statusWord (succeeded State.reset) = 0x00000002

/-! ## COUNT -/

/-- COUNT and COUNT.ACC (R97): RANGE, then OVERFLOW, each of which changes nothing but the completion
state; otherwise FREQ counts the source bytes on its start, and TOTAL and the valid bits follow. -/
def Obligations.CountFollowsItsRule : Prop :=
  ∀ (s : State) (acc : Bool),
    (s.cfg.bufSize < s.srcAddr.toNat + s.srcLen.toNat →
      exec (.count acc) s = .next (failedWith .range s.srcAddr.toNat s)) ∧
    (s.srcAddr.toNat + s.srcLen.toNat ≤ s.cfg.bufSize →
      2 ^ 32 - 1 < (if acc then s.total.toNat else 0) + s.srcLen.toNat →
      exec (.count acc) s = .next (failedWith .overflow 0 s)) ∧
    (s.srcAddr.toNat + s.srcLen.toNat ≤ s.cfg.bufSize →
      (if acc then s.total.toNat else 0) + s.srcLen.toNat ≤ 2 ^ 32 - 1 →
      ∃ f : Vector Word 256,
        exec (.count acc) s = .next (succeeded
          { s with
            freq := f
            total := BitVec.ofNat 32 ((if acc then s.total.toNat else 0) + s.srcLen.toNat)
            treeValid := false
            codesValid := false }) ∧
        ∀ x, atSymbol f x = (if acc then atSymbol s.freq x else 0) + BitVec.ofNat 32 (s.source.count x))

/-- After COUNT with ACC = 0, FREQ is the Frequency Map of the source bytes (R98). -/
def Obligations.CountGivesTheFrequencyMap : Prop :=
  ∀ s : State, s.srcAddr.toNat + s.srcLen.toNat ≤ s.cfg.bufSize →
    ∃ t, exec (.count false) s = .next t ∧ t.done = true ∧
      (∀ x, (atSymbol t.freq x).toNat = s.source.count x) ∧
      (t.freq.toList.map BitVec.toNat).sum = t.total.toNat ∧ t.total.toNat = s.srcLen.toNat ∧
      ∀ x, 0 < (atSymbol t.freq x).toNat ↔ x ∈ s.source

/-- COUNT over x and then COUNT.ACC over y leave the FREQ and TOTAL of one COUNT over x and y together,
in either order (R101, its first law). -/
def Obligations.CountsAccumulate : Prop :=
  ∀ s t u v w z : State,
    exec (.count false) s = .next t → t.done = true → u.freq = t.freq → u.total = t.total →
    exec (.count true) u = .next v → v.done = true →
    (w.source = s.source ++ u.source ∨ w.source = u.source ++ s.source) →
    exec (.count false) w = .next z → z.done = true →
    v.freq = z.freq ∧ v.total = z.total

/-! ## BUILD -/

/-- BUILD always completes with success and writes NODE, LEAVES, ROOT, TREE_KIND and the valid bits: no
present symbol gives EMPTY and one gives SINGLE, neither an error (R106). -/
def Obligations.BuildSignalsTheTreeKind : Prop :=
  ∀ s : State, ∃ nodes : Nodes,
    exec .build s = .next (succeeded
      { s with
        node := nodes
        leaves := BitVec.ofNat 9 (presentCount s.freq)
        root := BitVec.ofNat 9 (if presentCount s.freq ≤ 1 then 0 else 2 * presentCount s.freq - 2)
        treeKind :=
          if presentCount s.freq = 0 then .empty
          else if presentCount s.freq = 1 then .single
          else .multi
        treeValid := true
        codesValid := false })

/-- The leaf of the k-th smallest present symbol is NODE[k] (R102). -/
def Obligations.BuildPlacesLeavesInSymbolOrder : Prop :=
  ∀ (s t : State) (xs : List Symbol), exec .build s = .next t →
    xs.Pairwise (fun a b => a.toNat < b.toNat) → (∀ x, x ∈ xs ↔ 0 < (atSymbol s.freq x).toNat) →
    xs.length = presentCount s.freq ∧
    ∀ k, (h : k < xs.length) → t.node[k]?
      = some { isLeaf := true, sym := xs[k], nfreq := atSymbol s.freq xs[k], left := 0, right := 0 }

/-- BUILD writes only NODE[0 .. 2L − 2] and the tree's registers; every other NODE entry keeps its value,
and no index reached from ROOT lies outside the range (R107). -/
def Obligations.BuildKeepsTheRestOfNode : Prop :=
  ∀ s t : State, exec .build s = .next t →
    t = succeeded
      { s with
        node := t.node, leaves := t.leaves, root := t.root, treeKind := t.treeKind
        treeValid := true, codesValid := false } ∧
    (∀ i, 2 * presentCount s.freq ≤ i + 1 ∨ presentCount s.freq = 0 → t.node[i]? = s.node[i]?) ∧
    ∀ tree, presentCount s.freq ≠ 0 → holds t.node t.root tree = true →
      ∀ j ∈ reached t.node t.root tree, j.toNat + 1 < 2 * presentCount s.freq

/-- Each merge makes the two least indices of its queue the children of the next node, the least LEFT and
the second RIGHT, with the sum of their frequencies (R103, R104, R105). -/
def Obligations.BuildMergesTheTwoLeast : Prop :=
  ∀ (s t : State) (m : Nat), exec .build s = .next t → m + 1 < presentCount s.freq →
    ∃ a b : Nat, ∃ n : Node, t.node[presentCount s.freq + m]? = some n ∧
      n.isLeaf = false ∧ n.sym = 0 ∧ n.left = BitVec.ofNat 9 a ∧ n.right = BitVec.ofNat 9 b ∧
      n.nfreq = nfreqAt t.node a + nfreqAt t.node b ∧
      InQueue t.node (presentCount s.freq) m a ∧ InQueue t.node (presentCount s.freq) m b ∧
      ((nfreqAt t.node a).toNat < (nfreqAt t.node b).toNat ∨
        (nfreqAt t.node a = nfreqAt t.node b ∧ a < b)) ∧
      ∀ j, InQueue t.node (presentCount s.freq) m j → j ≠ a → j ≠ b →
        (nfreqAt t.node b).toNat < (nfreqAt t.node j).toNat ∨
          (nfreqAt t.node b = nfreqAt t.node j ∧ b < j)

/-- The frequency invariant of a built tree (R109), where TOTAL is the sum of FREQ (R49.1). -/
def Obligations.BuildFrequenciesAddUp : Prop :=
  ∀ s t : State, exec .build s = .next t → s.total.toNat = (s.freq.toList.map BitVec.toNat).sum →
    (2 ≤ presentCount s.freq →
      (∀ k, presentCount s.freq ≤ k → k + 1 < 2 * presentCount s.freq →
        ∃ n, t.node[k]? = some n ∧ n.isLeaf = false ∧
          n.nfreq.toNat
            = (nfreqAt t.node n.left.toNat).toNat + (nfreqAt t.node n.right.toNat).toNat) ∧
      (∀ k, k < presentCount s.freq →
        ∃ n, t.node[k]? = some n ∧ n.isLeaf = true ∧ n.nfreq = atSymbol s.freq n.sym) ∧
      (nfreqAt t.node t.root.toNat).toNat = (s.freq.toList.map BitVec.toNat).sum ∧
      nfreqAt t.node t.root.toNat = s.total) ∧
    (presentCount s.freq = 1 → nfreqAt t.node 0 = s.total)

/-- The tree BUILD leaves depends on FREQ alone (R108, its first sentence). -/
def Obligations.BuildDependsOnFreqAlone : Prop :=
  ∀ s t s' t' : State, s.freq = s'.freq → exec .build s = .next t → exec .build s' = .next t' →
    t.leaves = t'.leaves ∧ t.root = t'.root ∧ t.treeKind = t'.treeKind ∧
    ∀ i, i + 1 < 2 * presentCount s.freq → t.node[i]? = t'.node[i]?

/-- A MULTI tree from BUILD: L leaves, one for each present symbol, 2L − 1 nodes, each reached by one path,
the root the last node written, no leaf deeper than L − 1 (R110). -/
def Obligations.BuildMakesATree : Prop :=
  ∀ s t : State, exec .build s = .next t → 2 ≤ presentCount s.freq →
    ∃ tree, TreeAt t tree ∧ tree.symbols.length = presentCount s.freq ∧
      (∀ x, x ∈ tree.symbols ↔ 0 < (atSymbol s.freq x).toNat) ∧
      tree.size = 2 * presentCount s.freq - 1 ∧
      (reached t.node t.root tree).length = 2 * presentCount s.freq - 1 ∧
      t.root.toNat = 2 * presentCount s.freq - 2 ∧
      tree.depth ≤ presentCount s.freq - 1

/-! ## GENCODE -/

/-- GENCODE without a valid tree and ENCODE without valid codes raise SEQUENCE(0) and change nothing but
the completion state, whatever the operand registers hold (R114, R127, R149, R150). -/
def Obligations.SequenceErrors : Prop :=
  ∀ s : State,
    (s.treeValid = false → exec .gencode s = .next (failedWith .sequence 0 s)) ∧
    (s.codesValid = false → exec .encode s = .next (failedWith .sequence 0 s))

/-- GENCODE of a SINGLE or MULTI tree stores each symbol's code: the root-to-leaf path, 0 for LEFT and 1
for RIGHT, first step most significant, and `0` for a tree of one leaf (R112, R113); a symbol that
is no leaf has no code (R115), and MAX_LEN is the greatest length (R44). Of an EMPTY tree it stores
an all-zero table and MAX_LEN = 0 (R114). -/
def Obligations.GencodeStoresEachPath : Prop :=
  (∀ s : State, s.treeValid = true → s.treeKind = .empty →
    exec .gencode s = .next (succeeded
      { s with
        codeLen := Vector.replicate 256 0
        codeVal := Vector.replicate 256 0
        maxLen := 0
        codesValid := true })) ∧
  ∀ (s : State) (tree : CodeTree), s.treeValid = true → s.treeKind = tree.kind → TreeAt s tree →
    ∃ (len : Vector (BitVec 8) 256) (val : Vector (BitVec 256) 256) (m : BitVec 8),
      exec .gencode s = .next (succeeded
        { s with codeLen := len, codeVal := val, maxLen := m, codesValid := true }) ∧
      (∀ c ∈ tree.codes, (atSymbol len c.1).toNat = c.2.length ∧ 1 ≤ c.2.length ∧
        (atSymbol val c.1).toNat = bitsNumber c.2) ∧
      (∀ x, x ∉ tree.symbols → atSymbol len x = 0 ∧ atSymbol val x = 0) ∧
      (∀ x, atSymbol len x ≤ m) ∧ ∃ x, atSymbol len x = m

/-- After GENCODE no code is a prefix of another symbol's (R118). -/
def Obligations.CodesArePrefixFree : Prop :=
  ∀ s t : State, Invariants s → exec .gencode s = .next t → t.done = true →
    ∀ x y : Symbol, x ≠ y → 0 < (atSymbol t.codeLen x).toNat → 0 < (atSymbol t.codeLen y).toNat →
      ¬code t x <+: code t y

/-- After GENCODE of a MULTI tree every symbol of the tree has a code of length 1 to 255 and the lengths
fill the tree, Σ 2^(−CODE_LEN) = 1; of a SINGLE tree the sum is 1/2 (R117). Both sides are
multiplied by 2^255. -/
def Obligations.CodeLengthsFillTheTree : Prop :=
  ∀ s t : State, Invariants s → exec .gencode s = .next t → t.done = true →
    (s.treeKind = .multi →
      (∀ tree, TreeAt s tree → ∀ x ∈ tree.symbols,
        1 ≤ (atSymbol t.codeLen x).toNat ∧ (atSymbol t.codeLen x).toNat ≤ 255) ∧
      ((alphabet.filter fun x => decide (0 < (atSymbol t.codeLen x).toNat)).map
        fun x => 2 ^ (255 - (atSymbol t.codeLen x).toNat)).sum = 2 ^ 255) ∧
    (s.treeKind = .single →
      ((alphabet.filter fun x => decide (0 < (atSymbol t.codeLen x).toNat)).map
        fun x => 2 ^ (255 - (atSymbol t.codeLen x).toNat)).sum = 2 ^ 254)

/-! ## ENCODE -/

/-- ENCODE with valid codes, legal ranges, a code for every input byte and room for the payload writes
Payload(x) at the window's start, no other byte of BUF, and the three result registers (R125,
R127). -/
def Obligations.EncodeWritesThePayload : Prop :=
  ∀ (s : State) (tree : CodeTree) (p : List Byte), s.codesValid = true → RangesLegal s →
    (s.srcLen.toNat ≠ 0 → TreeAt s tree) → (∀ x ∈ s.source, atSymbol s.codeLen x ≠ 0) →
    p = payloadOf s.srcLen.toNat tree (s.source.flatMap (code s)) → p.length ≤ s.dstCap.toNat →
    ∃ b : Memory,
      exec .encode s = .next (succeeded
        { s with
          buf := b
          outLen := BitVec.ofNat 32 p.length
          dataBits := BitVec.ofNat 32 (s.source.flatMap (code s)).length
          symCount := s.srcLen }) ∧
      BytesAt { s with buf := b } s.dstAddr.toNat p ∧
      SameOutside s.dstAddr.toNat p.length s { s with buf := b }

/-- The pre-checks of ENCODE and DECODE on their ranges: RANGE of the source, then RANGE of the window,
then OVERLAP, each changing nothing but the completion state (R90, R149, R150). -/
def Obligations.RangeErrorsInOrder : Prop :=
  ∀ (s : State) (i : Instr), (i = .encode ∧ s.codesValid = true ∨ i = .decode) →
    (s.cfg.bufSize < s.srcAddr.toNat + s.srcLen.toNat →
      exec i s = .next (failedWith .range s.srcAddr.toNat s)) ∧
    (s.srcAddr.toNat + s.srcLen.toNat ≤ s.cfg.bufSize →
      s.cfg.bufSize < s.dstAddr.toNat + s.dstCap.toNat →
      exec i s = .next (failedWith .range s.dstAddr.toNat s)) ∧
    (s.srcAddr.toNat + s.srcLen.toNat ≤ s.cfg.bufSize →
      s.dstAddr.toNat + s.dstCap.toNat ≤ s.cfg.bufSize →
      0 < s.srcLen.toNat → 0 < s.dstCap.toNat → s.srcAddr.toNat < s.dstAddr.toNat + s.dstCap.toNat →
      s.dstAddr.toNat < s.srcAddr.toNat + s.srcLen.toNat →
      exec i s = .next (failedWith .overlap s.dstAddr.toNat s))

/-- ENCODE's errors after the pre-checks (R128, R149): NO_CODE at the lowest offending address, whatever
room the window has; and where every byte has a code, DST_FULL(DST_ADDR + DST_CAP) for a payload
longer than the window. Only the window, the result registers and the model's draw counter change
beside the completion state. -/
def Obligations.EncodeErrors : Prop :=
  (∀ (s : State) (i : Nat), s.codesValid = true → RangesLegal s → i < s.srcLen.toNat →
    atSymbol s.codeLen (s.readByte (s.srcAddr.toNat + i)) = 0 →
    (∀ j, j < i → atSymbol s.codeLen (s.readByte (s.srcAddr.toNat + j)) ≠ 0) →
    ∃ t, exec .encode s = .next t ∧
      t = failedWith .noCode (s.srcAddr.toNat + i)
        { s with
          buf := t.buf, outLen := t.outLen, dataBits := t.dataBits, symCount := t.symCount
          draws := t.draws } ∧
      SameOutside s.dstAddr.toNat s.dstCap.toNat s t) ∧
  ∀ (s : State) (tree : CodeTree), s.codesValid = true → RangesLegal s →
    (s.srcLen.toNat ≠ 0 → TreeAt s tree) → (∀ x ∈ s.source, atSymbol s.codeLen x ≠ 0) →
    s.dstCap.toNat < (payloadOf s.srcLen.toNat tree (s.source.flatMap (code s))).length →
    ∃ t, exec .encode s = .next t ∧
      t = failedWith .dstFull (s.dstAddr.toNat + s.dstCap.toNat)
        { s with
          buf := t.buf, outLen := t.outLen, dataBits := t.dataBits, symCount := t.symCount
          draws := t.draws } ∧
      SameOutside s.dstAddr.toNat s.dstCap.toNat s t

/-- A tree of L leaves serializes to 10·L − 1 bits and ⌈(10·L − 1)/8⌉ bytes: 9 bits and 2 bytes for one
leaf, 2559 bits and 320 bytes for 256 (R121). -/
def Obligations.SerializedTreeLength : Prop :=
  ∀ tree : CodeTree,
    tree.bits.length = 10 * tree.symbols.length - 1 ∧
    (pack tree.bits).length = (10 * tree.symbols.length - 1 + 7) / 8 ∧
    (tree.symbols.length = 1 → tree.bits.length = 9 ∧ (pack tree.bits).length = 2) ∧
    (tree.symbols.length = 256 → tree.bits.length = 2559 ∧ (pack tree.bits).length = 320)

/-- OUT_LEN after a successful ENCODE is 4 where N = 0 and 4 + ⌈(10·L − 1)/8⌉ + ⌈D/8⌉ where N > 0, L = LEAVES
and D = |Data(x)| (R126). -/
def Obligations.EncodedPayloadLength : Prop :=
  ∀ (s t : State) (tree : CodeTree), s.cfg.wf = true → exec .encode s = .next t → t.done = true →
    (s.srcLen.toNat ≠ 0 → TreeAt s tree) →
    (s.srcLen.toNat = 0 → t.outLen.toNat = 4) ∧
    (s.srcLen.toNat ≠ 0 → t.outLen.toNat
      = 4 + (10 * s.leaves.toNat - 1 + 7) / 8 + ((s.source.flatMap (code s)).length + 7) / 8)

/-- DATA_BITS after an ENCODE of the bytes FREQ counts is Σ FREQ[s]·CODE_LEN[s] (R132). -/
def Obligations.EncodedBitCount : Prop :=
  ∀ s t : State, s.cfg.wf = true → (∀ x, (atSymbol s.freq x).toNat = s.source.count x) →
    exec .encode s = .next t → t.done = true →
    t.dataBits.toNat
      = (alphabet.map fun x => (atSymbol s.freq x).toNat * (atSymbol s.codeLen x).toNat).sum

/-! ## DECODE -/

/-- DECODE of a zero-count payload succeeds, whatever follows its header, and writes no byte (R133). -/
def Obligations.DecodeOfAnEmptyPayload : Prop :=
  ∀ s : State, RangesLegal s → 4 ≤ s.srcLen.toNat → BytesAt s s.srcAddr.toNat [0, 0, 0, 0] →
    exec .decode s = .next (succeeded
      { s with
        leaves := 0, root := 0, treeKind := .empty, treeValid := true, codesValid := false
        outLen := 0, dataBits := 0, symCount := 0 })

/-- A header shorter than 4 bytes is DEC_TRUNC(a + n), and a count above DST_CAP is DST_FULL(d + cap) by the
header alone, whatever the tree section holds (R134, R135). -/
def Obligations.DecodeHeaderErrors : Prop :=
  ∀ s : State, RangesLegal s →
    (s.srcLen.toNat < 4 → ∃ t, exec .decode s = .next t ∧ t.err = true ∧ t.errCode = .decTrunc ∧
      t.errAddr.toNat = (s.srcAddr.toNat + s.srcLen.toNat) % 2 ^ 32) ∧
    (∀ n, n < 2 ^ 32 → 4 ≤ s.srcLen.toNat → BytesAt s s.srcAddr.toNat (le32 n) → s.dstCap.toNat < n →
      ∃ t, exec .decode s = .next t ∧ t.err = true ∧ t.errCode = .dstFull ∧
        t.errAddr.toNat = (s.dstAddr.toNat + s.dstCap.toNat) % 2 ^ 32)

/-- DECODE of a payload that holds the header of a count, the bits of a tree with distinct symbols and the
codes of that many symbols: it writes the symbols at the window's start and no other byte, loads
the tree in preorder at NODE[0], and reports the count and the bits consumed. Pad bits and what
follows the data are not constrained (R133, R136, R137, R139, R140). -/
def Obligations.DecodeReadsAPayload : Prop :=
  ∀ (s : State) (tree : CodeTree) (cs : List (Symbol × Bits)), RangesLegal s →
    tree.symbols.Nodup → (∀ c ∈ cs, c ∈ tree.codes) → 0 < cs.length → cs.length ≤ s.dstCap.toNat →
    BytesAt s s.srcAddr.toNat (le32 cs.length) →
    BitsAt s (s.srcAddr.toNat + 4) tree.bits →
    BitsAt s (s.srcAddr.toNat + 4 + (tree.bits.length + 7) / 8) (codeBits cs) →
    4 + (tree.bits.length + 7) / 8 + ((codeBits cs).length + 7) / 8 ≤ s.srcLen.toNat →
    ∃ b : Memory,
      exec .decode s = .next (succeeded
        { s with
          buf := b
          node := placeTree s.node 0 tree
          leaves := BitVec.ofNat 9 tree.symbols.length
          root := 0
          treeKind := tree.kind
          treeValid := true
          codesValid := false
          outLen := BitVec.ofNat 32 cs.length
          dataBits := BitVec.ofNat 32 (codeBits cs).length
          symCount := BitVec.ofNat 32 cs.length }) ∧
      BytesAt { s with buf := b } s.dstAddr.toNat (cs.map Prod.fst) ∧
      SameOutside s.dstAddr.toNat cs.length s { s with buf := b } ∧
      holds (placeTree s.node 0 tree) 0 tree = true

/-- The errors of a tree section, for a header of 1 to DST_CAP symbols (R136, R138): after nodes `l` that
are in order so far, a leaf that repeats a symbol, or a 256th internal node, is DEC_TREE at the byte
of its flag bit, whatever follows; a section that ends there, or inside the leaf there, is DEC_TRUNC
at the end of the source; so a whole tree that repeats a symbol is DEC_TREE at the first malformed
node in it; and DEC_TREE has no other cause. -/
def Obligations.DecodeTreeSectionErrors : Prop :=
  (∀ (s : State) (n : Nat) (l : List SectionNode), RangesLegal s → n < 2 ^ 32 → 0 < n →
    n ≤ s.dstCap.toNat → 4 ≤ s.srcLen.toNat → BytesAt s s.srcAddr.toNat (le32 n) → WellFormedSoFar l →
    BitsAt s (s.srcAddr.toNat + 4) (sectionBits l) →
    (∀ x, Malformed l x → BitsAt s (s.srcAddr.toNat + 4) (sectionBits (l ++ [x])) →
      (sectionBits (l ++ [x])).length ≤ 8 * (s.srcLen.toNat - 4) →
      ∃ t, exec .decode s = .next t ∧ t.err = true ∧ t.errCode = .decTree ∧
        t.errAddr = BitVec.ofNat 32 (s.srcAddr.toNat + 4 + (sectionBits l).length / 8)) ∧
    (8 * (s.srcLen.toNat - 4) = (sectionBits l).length ∨
      s.bitAt (s.srcAddr.toNat + 4) (sectionBits l).length = true ∧
        (sectionBits l).length ≤ 8 * (s.srcLen.toNat - 4) ∧
        8 * (s.srcLen.toNat - 4) < (sectionBits l).length + 9 →
      ∃ t, exec .decode s = .next t ∧ t.err = true ∧ t.errCode = .decTrunc ∧
        t.errAddr = BitVec.ofNat 32 (s.srcAddr.toNat + s.srcLen.toNat))) ∧
  (∀ (s : State) (tree : CodeTree) (n : Nat), RangesLegal s → n < 2 ^ 32 → 0 < n → n ≤ s.dstCap.toNat →
    ¬tree.symbols.Nodup → BytesAt s s.srcAddr.toNat (le32 n) → BitsAt s (s.srcAddr.toNat + 4) tree.bits →
    4 + (tree.bits.length + 7) / 8 ≤ s.srcLen.toNat →
    ∃ t l x rest, exec .decode s = .next t ∧ t.err = true ∧ t.errCode = .decTree ∧
      tree.nodes = l ++ x :: rest ∧ WellFormedSoFar l ∧ Malformed l x ∧
      t.errAddr = BitVec.ofNat 32 (s.srcAddr.toNat + 4 + (sectionBits l).length / 8)) ∧
  ∀ s t : State, exec .decode s = .next t → t.err = true → t.errCode = .decTree →
    ∃ l x, WellFormedSoFar l ∧ Malformed l x ∧ BitsAt s (s.srcAddr.toNat + 4) (sectionBits (l ++ [x])) ∧
      (sectionBits (l ++ [x])).length ≤ 8 * (s.srcLen.toNat - 4) ∧
      t.errAddr = BitVec.ofNat 32 (s.srcAddr.toNat + 4 + (sectionBits l).length / 8)

/-- The errors of a data section after a whole tree (R139): with a SINGLE tree, a data bit 1 among the
first N is no code, DEC_CODE at the byte that holds it; and with any tree, a source that ends before
the bits of N codes do is DEC_TRUNC at its end. -/
def Obligations.DecodeDataSectionErrors : Prop :=
  (∀ (s : State) (x : Symbol) (n j : Nat), RangesLegal s → n < 2 ^ 32 → j < n → n ≤ s.dstCap.toNat →
    BytesAt s s.srcAddr.toNat (le32 n) → BitsAt s (s.srcAddr.toNat + 4) (leafBits x) →
    BitsAt s (s.srcAddr.toNat + 6) (List.replicate j false ++ [true]) →
    6 + (j + 8) / 8 ≤ s.srcLen.toNat →
    ∃ t, exec .decode s = .next t ∧ t.err = true ∧ t.errCode = .decCode ∧
      t.errAddr = BitVec.ofNat 32 (s.srcAddr.toNat + 6 + j / 8)) ∧
  ∀ (s : State) (tree : CodeTree) (cs : List (Symbol × Bits)) (m : Nat), RangesLegal s →
    tree.symbols.Nodup → (∀ c ∈ cs, c ∈ tree.codes) → 0 < cs.length → cs.length ≤ s.dstCap.toNat →
    BytesAt s s.srcAddr.toNat (le32 cs.length) → BitsAt s (s.srcAddr.toNat + 4) tree.bits →
    s.srcLen.toNat = 4 + (tree.bits.length + 7) / 8 + m → 8 * m < (codeBits cs).length →
    BitsAt s (s.srcAddr.toNat + 4 + (tree.bits.length + 7) / 8) ((codeBits cs).take (8 * m)) →
    ∃ t, exec .decode s = .next t ∧ t.err = true ∧ t.errCode = .decTrunc ∧
      t.errAddr = BitVec.ofNat 32 (s.srcAddr.toNat + s.srcLen.toNat)

/-- The state after a DECODE error (R141): a pre-check error changes nothing but the completion state; a
later one clears both valid bits and leaves FREQ, TOTAL, CODE_LEN, CODE_VAL, MAX_LEN and every BUF
byte outside the window as they were. -/
def Obligations.DecodeErrorsKeepTheRest : Prop :=
  ∀ s t : State, exec .decode s = .next t → t.err = true →
    ((t.errCode = .range ∨ t.errCode = .overlap) ∧ t = failedWith t.errCode t.errAddr.toNat s) ∨
    ((t.errCode = .decTrunc ∨ t.errCode = .dstFull ∨ t.errCode = .decTree ∨ t.errCode = .decCode) ∧
      t = failedWith t.errCode t.errAddr.toNat
        { s with
          treeValid := false, codesValid := false
          node := t.node, leaves := t.leaves, root := t.root, treeKind := t.treeKind
          outLen := t.outLen, dataBits := t.dataBits, symCount := t.symCount
          buf := t.buf, draws := t.draws } ∧
      SameOutside s.dstAddr.toNat s.dstCap.toNat s t)

/-! ## The codec laws -/

/-- Whatever ENCODE produced, DECODE of those bytes, in any state whose ranges are legal and whose window
has room, succeeds and gives the input back (R142, for any valid code table). -/
def Obligations.DecodeUndoesEncode : Prop :=
  ∀ s t u : State, Invariants s → exec .encode s = .next t → t.done = true →
    RangesLegal u → u.source = t.readBytes s.dstAddr.toNat t.outLen.toNat →
    s.srcLen.toNat ≤ u.dstCap.toNat →
    ∃ v, exec .decode u = .next v ∧ v.done = true ∧ BytesAt v u.dstAddr.toNat s.source ∧
      v.symCount = s.srcLen ∧ v.outLen = s.srcLen ∧
      SameOutside u.dstAddr.toNat s.srcLen.toNat u v

/-- The round-trip law as the spec runs it: COUNT, BUILD and GENCODE of an input, ENCODE of it into a
window with room (the Host has written `d` and `cap` to the DST registers), DECODE of the payload in any
state `u` that holds it in a legal source range and has room for the input: no error
and the input back (R142). -/
def Obligations.RoundTrip : Prop :=
  ∀ (s : State) (d cap : Word) (u : State), Invariants s →
    s.srcAddr.toNat + s.srcLen.toNat ≤ s.cfg.bufSize →
    ∃ c b g, exec (.count false) s = .next c ∧ exec .build c = .next b ∧ exec .gencode b = .next g ∧
      g.done = true ∧
      (RangesLegal { g with dstAddr := d, dstCap := cap } →
        (∀ p, payload { g with dstAddr := d, dstCap := cap } s.source = .ok p → p.length ≤ cap.toNat) →
        ∃ e, exec .encode { g with dstAddr := d, dstCap := cap } = .next e ∧ e.done = true ∧
          (RangesLegal u → u.source = e.readBytes d.toNat e.outLen.toNat →
            s.srcLen.toNat ≤ u.dstCap.toNat →
            ∃ v, exec .decode u = .next v ∧ v.done = true ∧ BytesAt v u.dstAddr.toNat s.source ∧
              v.symCount = s.srcLen ∧ v.outLen = s.srcLen))

/-- The truncation law: DECODE of a payload cut short, with a window for its N symbols, raises DEC_TRUNC and
never succeeds (R144). -/
def Obligations.TruncatedPayloadsRaiseDecTrunc : Prop :=
  ∀ (s t u : State) (n : Nat), Invariants s → exec .encode s = .next t → t.done = true →
    n < t.outLen.toNat → RangesLegal u → u.srcLen.toNat = n →
    u.source = (t.readBytes s.dstAddr.toNat t.outLen.toNat).take n → s.srcLen.toNat ≤ u.dstCap.toNat →
    ∃ v, exec .decode u = .next v ∧ v.done = false ∧ v.err = true ∧ v.errCode = .decTrunc ∧
      v.errAddr = BitVec.ofNat 32 (u.srcAddr.toNat + n)

/-- The re-encode law: after DECODE of a payload P that ENCODE produced, GENCODE and then ENCODE of the
decoded bytes (`y` is the state after GENCODE with the Host's operand registers written and those
bytes in its source range) give P again (R143). -/
def Obligations.ReencodingGivesThePayloadAgain : Prop :=
  ∀ s t u v w y : State, Invariants s → exec .encode s = .next t → t.done = true →
    u.source = t.readBytes s.dstAddr.toNat t.outLen.toNat →
    exec .decode u = .next v → v.done = true → exec .gencode v = .next w →
    y = { w with
      srcAddr := y.srcAddr, srcLen := y.srcLen, dstAddr := y.dstAddr, dstCap := y.dstCap, buf := y.buf } →
    RangesLegal y → y.source = s.source → t.outLen.toNat ≤ y.dstCap.toNat →
    ∃ z, exec .encode y = .next z ∧ z.done = true ∧ z.outLen = t.outLen ∧
      z.readBytes y.dstAddr.toNat z.outLen.toNat = t.readBytes s.dstAddr.toNat t.outLen.toNat

/-! ## The host bus -/

/-- A misaligned transaction, one of size 1 or 2 below 0x10000, and one of any size to a reserved offset get
a bus error and have no effect (R54, R55, R18). That this holds of a narrow or misaligned WRITE at
CMD while BUSY = 1 too, so that it leaves OVERRUN as it was, is the model's reading
(notes/assumptions/11.md). -/
def Obligations.MisalignedNarrowAndReservedAccessesAreRefused : Prop :=
  ∀ (s : State) (t : Txn),
    (t.size = .two ∧ t.addr.toNat % 2 ≠ 0 ∨ t.size = .four ∧ t.addr.toNat % 4 ≠ 0 ∨
      t.addr.toNat < 0x10000 ∧ t.size ≠ .four ∨
      0x048 ≤ t.addr.toNat ∧ t.addr.toNat ≤ 0x3FF ∨ 0xC00 ≤ t.addr.toNat ∧ t.addr.toNat ≤ 0xFFF ∨
      0x1FF8 ≤ t.addr.toNat ∧ t.addr.toNat ≤ 0x1FFF ∨ 0x4000 ≤ t.addr.toNat ∧ t.addr.toNat ≤ 0xFFFF ∨
      0x10000 + s.cfg.bufSize ≤ t.addr.toNat) →
    busStep t s = { s with response := .error }

/-- While idle, a READ of a register answers its value and changes nothing (R17, R19, R20, R21, R30 to R38,
R41, R44 to R46); STATUS's value is its layout (the table above R22, R22 to R28). -/
def Obligations.IdleRegisterReads : Prop :=
  ∀ s : State, s.busy = false →
    let reads := fun (off : BusAddr) (v : Word) =>
      busStep { op := .read, addr := off, size := .four, wdata := 0 } s = { s with response := .okayData v }
    reads 0x000 0x48554646 ∧ reads 0x004 0x00000001 ∧
    reads 0x008 (BitVec.ofNat 32 (2 * s.irqEn.toNat)) ∧ reads 0x00C (statusWord s) ∧ reads 0x010 s.cmd ∧
    reads 0x014 s.srcAddr ∧ reads 0x018 s.srcLen ∧ reads 0x01C s.dstAddr ∧ reads 0x020 s.dstCap ∧
    reads 0x024 s.outLen ∧ reads 0x028 s.dataBits ∧ reads 0x02C s.symCount ∧ reads 0x030 s.total ∧
    reads 0x034 (BitVec.ofNat 32 s.leaves.toNat) ∧ reads 0x038 (BitVec.ofNat 32 s.root.toNat) ∧
    reads 0x03C (BitVec.ofNat 32 s.maxLen.toNat) ∧
    reads 0x040 (match s.errCode with
      | .none => 0 | .illegalCmd => 1 | .sequence => 2 | .range => 3 | .overlap => 4 | .overflow => 5
      | .noCode => 6 | .dstFull => 7 | .decTrunc => 8 | .decTree => 9 | .decCode => 10) ∧
    reads 0x044 s.errAddr ∧
    (statusWord s).toNat
      = s.busy.toNat + 2 * s.done.toNat + 4 * s.err.toNat + 8 * s.overrun.toNat + 16 * s.treeValid.toNat +
        32 * s.codesValid.toNat +
        64 * (match s.treeKind with | .empty => 0 | .single => 1 | .multi => 2)

/-- While idle, the table windows answer FREQ, CODE_LEN, NODE and CODE_VAL (R39, R40, R42, R43). -/
def Obligations.TableWindowReads : Prop :=
  ∀ (s : State) (x : Symbol), s.busy = false →
    let reads := fun (off : Nat) (v : Word) =>
      busStep { op := .read, addr := BitVec.ofNat 17 off, size := .four, wdata := 0 } s
        = { s with response := .okayData v }
    reads (0x0400 + 4 * x.toNat) (atSymbol s.freq x) ∧
    reads (0x0800 + 4 * x.toNat) (BitVec.ofNat 32 (atSymbol s.codeLen x).toNat) ∧
    (∀ j, j < 8 → reads (0x2000 + 32 * x.toNat + 4 * j)
      (BitVec.ofNat 32 ((atSymbol s.codeVal x).toNat / 2 ^ (32 * j)))) ∧
    ∀ i n, s.node[i]? = some n →
      reads (0x1000 + 8 * i) n.nfreq ∧
      reads (0x1000 + 8 * i + 4) (BitVec.ofNat 32
        (2 ^ 31 * n.isLeaf.toNat + 2 ^ 18 * n.sym.toNat + 2 ^ 9 * n.right.toNat + n.left.toNat))

/-- While BUSY = 1 only READs of the registers and WRITEs to CTRL and STATUS are admitted; everything else
gets a bus error and has no effect, but for OVERRUN on a CMD write (R58, R89). That only an aligned
4-byte WRITE at CMD counts as a CMD write here, and one of size 1 or 2 does not set OVERRUN, is the
model's reading (notes/assumptions/11.md). -/
def Obligations.BusyAdmitsOnlyControlAndStatus : Prop :=
  ∀ (s : State) (t : Txn), s.busy = true →
    (t.size = .four ∧ (t.op = .read ∧ t.addr.toNat % 4 = 0 ∧ t.addr.toNat < 0x048 ∨
        t.op = .write ∧ (t.addr = 0x008 ∨ t.addr = 0x00C)) →
      (busStep t s).response ≠ .error) ∧
    (¬(t.size = .four ∧ (t.op = .read ∧ t.addr.toNat % 4 = 0 ∧ t.addr.toNat < 0x048 ∨
        t.op = .write ∧ (t.addr = 0x008 ∨ t.addr = 0x00C))) →
      busStep t s
        = { s with
            response := .error
            overrun := s.overrun ||
              decide (t.op = .write ∧ t.size = .four ∧ t.addr = 0x010) })

/-- While BUSY = 1, ID, VERSION, CTRL, CMD and the operand registers read their values and STATUS's BUSY,
DONE, ERR and OVERRUN bits theirs, DONE and ERR 0 (R50). What the others read is a free value and
is not constrained. -/
def Obligations.BusyRegisterReads : Prop :=
  ∀ s : State, Invariants s → s.busy = true →
    let reads := fun (off : BusAddr) (v : Word) =>
      (busStep { op := .read, addr := off, size := .four, wdata := 0 } s).response = .okayData v
    reads 0x000 0x48554646 ∧ reads 0x004 0x00000001 ∧
    reads 0x008 (BitVec.ofNat 32 (2 * s.irqEn.toNat)) ∧ reads 0x010 s.cmd ∧ reads 0x014 s.srcAddr ∧
    reads 0x018 s.srcLen ∧ reads 0x01C s.dstAddr ∧ reads 0x020 s.dstCap ∧
    ∃ v, reads 0x00C v ∧ v.getLsbD 0 = true ∧ v.getLsbD 1 = false ∧ v.getLsbD 2 = false ∧
      v.getLsbD 3 = s.overrun ∧ v.toNat < 256

/-- A transaction at BUF offset `a`: OKAY only where its size divides it, it lies in BUF and BUSY = 0; a
READ answers the little-endian number, a WRITE stores the low bytes little-endian and no other
(R57, R59). -/
def Obligations.BufAccesses : Prop :=
  ∀ (s : State) (a n : Nat) (size : Size) (w : Word), a < 0x10000 →
    (size, n) ∈ [(Size.one, 1), (.two, 2), (.four, 4)] →
    (a % n = 0 ∧ a + n ≤ s.cfg.bufSize ∧ s.busy = false →
      busStep { op := .read, addr := BitVec.ofNat 17 (0x10000 + a), size := size, wdata := w } s
        = { s with
            response := .okayData (BitVec.ofNat 32
              ((List.range n).map fun k => (s.readByte (a + k)).toNat * 2 ^ (8 * k)).sum) } ∧
      ∃ b : Memory,
        busStep { op := .write, addr := BitVec.ofNat 17 (0x10000 + a), size := size, wdata := w } s
          = { s with buf := b, response := .okay } ∧
        (∀ k, k < n → ({ s with buf := b } : State).readByte (a + k) = BitVec.ofNat 8 (w.toNat / 2 ^ (8 * k))) ∧
        SameOutside a n s { s with buf := b }) ∧
    (¬(a % n = 0 ∧ a + n ≤ s.cfg.bufSize ∧ s.busy = false) → ∀ op,
      busStep { op := op, addr := BitVec.ofNat 17 (0x10000 + a), size := size, wdata := w } s
        = { s with response := .error })

/-- No READ has a side effect: nothing but the model's own response and draw counter changes (R56). -/
def Obligations.ReadsChangeNothing : Prop :=
  ∀ (s : State) (t : Txn), t.op = .read →
    busStep t s = { s with response := (busStep t s).response, draws := (busStep t s).draws }

/-- While idle, an aligned 4-byte WRITE to a read-only register or to a table window gets OKAY and has no
effect (R56). -/
def Obligations.ReadOnlyWritesAreIgnored : Prop :=
  ∀ (s : State) (t : Txn), s.busy = false → t.op = .write → t.size = .four → t.addr.toNat % 4 = 0 →
    (t.addr.toNat = 0x000 ∨ t.addr.toNat = 0x004 ∨ 0x024 ≤ t.addr.toNat ∧ t.addr.toNat ≤ 0x044 ∨
      0x0400 ≤ t.addr.toNat ∧ t.addr.toNat < 0x0C00 ∨ 0x1000 ≤ t.addr.toNat ∧ t.addr.toNat < 0x1FF8 ∨
      0x2000 ≤ t.addr.toNat ∧ t.addr.toNat < 0x4000) →
    busStep t s = { s with response := .okay }

/-- A STATUS write clears DONE, ERR and OVERRUN by its bits 1, 2 and 3 and nothing else, busy or not
(R29). -/
def Obligations.StatusWriteClearsByOnes : Prop :=
  ∀ (s : State) (w : Word),
    busStep { op := .write, addr := 0x0000C, size := .four, wdata := w } s
      = { s with
          done := if w.getLsbD 1 then false else s.done
          err := if w.getLsbD 2 then false else s.err
          overrun := if w.getLsbD 3 then false else s.overrun
          response := .okay }

/-- A CTRL write, busy or not: IRQ_EN is data bit 1; with data bit 0 the soft reset is performed and leaves
IRQ_EN = 0 whatever bit 1 is; other bits do nothing, and CTRL reads SOFT_RESET and the rest as 0
(R21). -/
def Obligations.CtrlWrites : Prop :=
  ∀ (s : State) (w : Word),
    (w.getLsbD 0 = false →
      busStep { op := .write, addr := 0x00008, size := .four, wdata := w } s
        = { s with irqEn := w.getLsbD 1, response := .okay }) ∧
    (w.getLsbD 0 = true →
      busStep { op := .write, addr := 0x00008, size := .four, wdata := w } s
        = { softReset s with response := .okay } ∧ (softReset s).irqEn = false) ∧
    ctrlWord s = if s.irqEn then 2 else 0

/-- While idle, a write to an operand register stores any 32-bit value and nothing else (R31 to R34). -/
def Obligations.OperandRegisterWrites : Prop :=
  ∀ (s : State) (w : Word), s.busy = false →
    busStep { op := .write, addr := 0x00014, size := .four, wdata := w } s
      = { s with srcAddr := w, response := .okay } ∧
    busStep { op := .write, addr := 0x00018, size := .four, wdata := w } s
      = { s with srcLen := w, response := .okay } ∧
    busStep { op := .write, addr := 0x0001C, size := .four, wdata := w } s
      = { s with dstAddr := w, response := .okay } ∧
    busStep { op := .write, addr := 0x00020, size := .four, wdata := w } s
      = { s with dstCap := w, response := .okay }

/-! ## Reset and the interrupt -/

/-- Reset leaves every register, flag and table 0, no command accepted and the interrupt deasserted, in the
reset state and after either reset of any state (R51). -/
def Obligations.ResetValues : Prop :=
  ∀ s t : State, t = State.reset ∨ t = hardwareReset s ∨ t = softReset s →
    t.irqEn = false ∧ statusWord t = 0 ∧ t.busy = false ∧ t.cmd = 0 ∧
    t.srcAddr = 0 ∧ t.srcLen = 0 ∧ t.dstAddr = 0 ∧ t.dstCap = 0 ∧
    t.outLen = 0 ∧ t.dataBits = 0 ∧ t.symCount = 0 ∧ t.total = 0 ∧ t.leaves = 0 ∧ t.root = 0 ∧
    t.maxLen = 0 ∧ t.errCode = .none ∧ t.errAddr = 0 ∧ t.treeKind = .empty ∧
    (∀ x, atSymbol t.freq x = 0 ∧ atSymbol t.codeLen x = 0 ∧ atSymbol t.codeVal x = 0) ∧
    (∀ (i : Nat) (n : Node), t.node[i]? = some n →
      n = { isLeaf := false, sym := 0, nfreq := 0, left := 0, right := 0 }) ∧
    irq t = false

/-- The soft reset keeps every BUF byte, but for the window of an abandoned ENCODE or DECODE (R166). The last
clause, that BUF keeps every byte where that window does not lie in BUF, is the model's reading of
"or the command wrote nothing" (notes/assumptions/8.md). -/
def Obligations.SoftResetKeepsBuf : Prop :=
  ∀ s : State,
    (s.busy = false ∨ decode s.cmd ≠ some .encode ∧ decode s.cmd ≠ some .decode →
      SameBuf s (softReset s)) ∧
    SameOutside s.dstAddr.toNat s.dstCap.toNat s (softReset s) ∧
    (s.cfg.bufSize < s.dstAddr.toNat + s.dstCap.toNat → SameBuf s (softReset s))

/-- The interrupt (R153): high after a completion exactly where IRQ_EN = 1; set by a write of IRQ_EN while
DONE or ERR is 1; low after a new command is accepted, after DONE and ERR are cleared, after IRQ_EN
is cleared and after a reset; OVERRUN does not drive it. -/
def Obligations.InterruptFollowsCompletion : Prop :=
  ∀ s t : State,
    (irq s = true ↔ s.irqEn = true ∧ (s.done = true ∨ s.err = true)) ∧
    (∀ i, exec i s = .next t → irq t = s.irqEn) ∧
    (s.done = true ∨ s.err = true → irq (writeCtrl 0x00000002 s) = true) ∧
    (∀ w, irq (acceptCommand w s) = false) ∧
    irq (writeStatus 0x00000006 s) = false ∧
    irq (writeCtrl 0x00000000 s) = false ∧
    irq (softReset s) = false ∧
    irq (hardwareReset s) = false ∧
    ∀ b : Bool, irq ({ s with overrun := b } : State) = irq s

/-! ## Every command -/

/-- Every command completes in every state with the invariants, with DONE or ERR but not both (R96, R93,
R94). -/
def Obligations.EveryCommandCompletes : Prop :=
  ∀ (s : State) (i : Instr), Invariants s → ∃ t, exec i s = .next t ∧ t.busy = false ∧
    (t.done = true ∧ t.err = false ∧ t.errCode = .none ∧ t.errAddr = 0 ∨
      t.done = false ∧ t.err = true ∧ t.errCode ≠ .none)

/-- Which command can raise which error (R148). -/
def Obligations.ErrorsByCommand : Prop :=
  ∀ (s t : State) (i : Instr), exec i s = .next t → t.err = true →
    t.errCode ∈ (match i with
      | .nop => []
      | .count _ => [.range, .overflow]
      | .build => []
      | .gencode => [.sequence]
      | .encode => [.sequence, .range, .overlap, .noCode, .dstFull]
      | .decode => [.range, .overlap, .decTrunc, .dstFull, .decTree, .decCode] : List ErrCode)

/-- No command writes the operand registers (R15), CMD, CTRL or OVERRUN, nor the parameter BUF_SIZE, the
draw BUF's unwritten bytes come from, what is pending, or the last response. -/
def Obligations.CommandsKeepOperandsAndControl : Prop :=
  ∀ (s t : State) (i : Instr), exec i s = .next t →
    t.srcAddr = s.srcAddr ∧ t.srcLen = s.srcLen ∧ t.dstAddr = s.dstAddr ∧ t.dstCap = s.dstCap ∧
    t.cmd = s.cmd ∧ t.irqEn = s.irqEn ∧ t.overrun = s.overrun ∧ t.cfg = s.cfg ∧
    t.bufDraw = s.bufDraw ∧ t.pending = s.pending ∧ t.response = s.response

/-- What each command leaves unchanged among the tables, the results and BUF (R78; R60 for BUF): nothing
is written but what its row names. -/
def Obligations.CommandsWriteOnlyTheirOwn : Prop :=
  ∀ (s t : State) (i : Instr), exec i s = .next t →
    (i ≠ .count true → i ≠ .count false → t.freq = s.freq ∧ t.total = s.total) ∧
    (i ≠ .build → i ≠ .decode →
      t.node = s.node ∧ t.leaves = s.leaves ∧ t.root = s.root ∧ t.treeKind = s.treeKind) ∧
    (i ≠ .gencode → t.codeLen = s.codeLen ∧ t.codeVal = s.codeVal ∧ t.maxLen = s.maxLen) ∧
    (i ≠ .encode → i ≠ .decode →
      t.outLen = s.outLen ∧ t.dataBits = s.dataBits ∧ t.symCount = s.symCount ∧ SameBuf s t) ∧
    SameOutside s.dstAddr.toNat s.dstCap.toNat s t ∧
    (i = .nop ∨ i = .gencode ∨ i = .encode → t.treeValid = s.treeValid) ∧
    (i = .nop ∨ i = .encode → t.codesValid = s.codesValid)

/-! ## Invariants -/

/-- The reset state has the invariants of R49. -/
def Obligations.ResetHasTheInvariants : Prop := Invariants State.reset

/-- Every step keeps the invariants of R49 (and with them BUF's canonical form): a host transaction, an
engine step, a hardware reset, from any state that has them. -/
def Obligations.StepKeepsTheInvariants : Prop := ∀ s t : State, Invariants s → step s = .next t → Invariants t

/-- "the block itself never stops and never faults" (R13): from a state with the invariants, whatever the
Host does and whenever the Engine moves, every step gives a next state. -/
def Obligations.TheBlockNeverStops : Prop := ∀ s : State, Invariants s → Runs s
end

