-- ==== Sys2Proof/Laws/State.lean ====
section
/-! SUPPORT. What each update of State leaves in each field: one lemma per field per update, each true
by definition. -/

namespace Sys2Proof.Machine

variable (s : State)

@[simp] theorem completeOk_cfg : (completeOk s).cfg = s.cfg := rfl
@[simp] theorem completeOk_irqEn : (completeOk s).irqEn = s.irqEn := rfl
@[simp] theorem completeOk_busy : (completeOk s).busy = false := rfl
@[simp] theorem completeOk_done : (completeOk s).done = true := rfl
@[simp] theorem completeOk_err : (completeOk s).err = false := rfl
@[simp] theorem completeOk_overrun : (completeOk s).overrun = s.overrun := rfl
@[simp] theorem completeOk_treeValid : (completeOk s).treeValid = s.treeValid := rfl
@[simp] theorem completeOk_codesValid : (completeOk s).codesValid = s.codesValid := rfl
@[simp] theorem completeOk_treeKind : (completeOk s).treeKind = s.treeKind := rfl
@[simp] theorem completeOk_cmd : (completeOk s).cmd = s.cmd := rfl
@[simp] theorem completeOk_srcAddr : (completeOk s).srcAddr = s.srcAddr := rfl
@[simp] theorem completeOk_srcLen : (completeOk s).srcLen = s.srcLen := rfl
@[simp] theorem completeOk_dstAddr : (completeOk s).dstAddr = s.dstAddr := rfl
@[simp] theorem completeOk_dstCap : (completeOk s).dstCap = s.dstCap := rfl
@[simp] theorem completeOk_outLen : (completeOk s).outLen = s.outLen := rfl
@[simp] theorem completeOk_dataBits : (completeOk s).dataBits = s.dataBits := rfl
@[simp] theorem completeOk_symCount : (completeOk s).symCount = s.symCount := rfl
@[simp] theorem completeOk_total : (completeOk s).total = s.total := rfl
@[simp] theorem completeOk_leaves : (completeOk s).leaves = s.leaves := rfl
@[simp] theorem completeOk_root : (completeOk s).root = s.root := rfl
@[simp] theorem completeOk_maxLen : (completeOk s).maxLen = s.maxLen := rfl
@[simp] theorem completeOk_errCode : (completeOk s).errCode = .none := rfl
@[simp] theorem completeOk_errAddr : (completeOk s).errAddr = 0 := rfl
@[simp] theorem completeOk_freq : (completeOk s).freq = s.freq := rfl
@[simp] theorem completeOk_codeLen : (completeOk s).codeLen = s.codeLen := rfl
@[simp] theorem completeOk_codeVal : (completeOk s).codeVal = s.codeVal := rfl
@[simp] theorem completeOk_node : (completeOk s).node = s.node := rfl
@[simp] theorem completeOk_buf : (completeOk s).buf = s.buf := rfl
@[simp] theorem completeOk_bufDraw : (completeOk s).bufDraw = s.bufDraw := rfl
@[simp] theorem completeOk_draws : (completeOk s).draws = s.draws := rfl
@[simp] theorem completeOk_pending : (completeOk s).pending = s.pending := rfl
@[simp] theorem completeOk_response : (completeOk s).response = s.response := rfl

@[simp] theorem raiseError_cfg (e : CmdError) : (raiseError e s).cfg = s.cfg := rfl
@[simp] theorem raiseError_irqEn (e : CmdError) : (raiseError e s).irqEn = s.irqEn := rfl
@[simp] theorem raiseError_busy (e : CmdError) : (raiseError e s).busy = false := rfl
@[simp] theorem raiseError_done (e : CmdError) : (raiseError e s).done = false := rfl
@[simp] theorem raiseError_err (e : CmdError) : (raiseError e s).err = true := rfl
@[simp] theorem raiseError_overrun (e : CmdError) : (raiseError e s).overrun = s.overrun := rfl
@[simp] theorem raiseError_treeValid (e : CmdError) : (raiseError e s).treeValid = s.treeValid := rfl
@[simp] theorem raiseError_codesValid (e : CmdError) : (raiseError e s).codesValid = s.codesValid := rfl
@[simp] theorem raiseError_treeKind (e : CmdError) : (raiseError e s).treeKind = s.treeKind := rfl
@[simp] theorem raiseError_cmd (e : CmdError) : (raiseError e s).cmd = s.cmd := rfl
@[simp] theorem raiseError_srcAddr (e : CmdError) : (raiseError e s).srcAddr = s.srcAddr := rfl
@[simp] theorem raiseError_srcLen (e : CmdError) : (raiseError e s).srcLen = s.srcLen := rfl
@[simp] theorem raiseError_dstAddr (e : CmdError) : (raiseError e s).dstAddr = s.dstAddr := rfl
@[simp] theorem raiseError_dstCap (e : CmdError) : (raiseError e s).dstCap = s.dstCap := rfl
@[simp] theorem raiseError_outLen (e : CmdError) : (raiseError e s).outLen = s.outLen := rfl
@[simp] theorem raiseError_dataBits (e : CmdError) : (raiseError e s).dataBits = s.dataBits := rfl
@[simp] theorem raiseError_symCount (e : CmdError) : (raiseError e s).symCount = s.symCount := rfl
@[simp] theorem raiseError_total (e : CmdError) : (raiseError e s).total = s.total := rfl
@[simp] theorem raiseError_leaves (e : CmdError) : (raiseError e s).leaves = s.leaves := rfl
@[simp] theorem raiseError_root (e : CmdError) : (raiseError e s).root = s.root := rfl
@[simp] theorem raiseError_maxLen (e : CmdError) : (raiseError e s).maxLen = s.maxLen := rfl
@[simp] theorem raiseError_errCode (e : CmdError) : (raiseError e s).errCode = e.code := rfl
@[simp] theorem raiseError_errAddr (e : CmdError) : (raiseError e s).errAddr = BitVec.ofNat 32 e.addr := rfl
@[simp] theorem raiseError_freq (e : CmdError) : (raiseError e s).freq = s.freq := rfl
@[simp] theorem raiseError_codeLen (e : CmdError) : (raiseError e s).codeLen = s.codeLen := rfl
@[simp] theorem raiseError_codeVal (e : CmdError) : (raiseError e s).codeVal = s.codeVal := rfl
@[simp] theorem raiseError_node (e : CmdError) : (raiseError e s).node = s.node := rfl
@[simp] theorem raiseError_buf (e : CmdError) : (raiseError e s).buf = s.buf := rfl
@[simp] theorem raiseError_bufDraw (e : CmdError) : (raiseError e s).bufDraw = s.bufDraw := rfl
@[simp] theorem raiseError_draws (e : CmdError) : (raiseError e s).draws = s.draws := rfl
@[simp] theorem raiseError_pending (e : CmdError) : (raiseError e s).pending = s.pending := rfl
@[simp] theorem raiseError_response (e : CmdError) : (raiseError e s).response = s.response := rfl

@[simp] theorem succeeded_cfg : (succeeded s).cfg = s.cfg := rfl
@[simp] theorem succeeded_irqEn : (succeeded s).irqEn = s.irqEn := rfl
@[simp] theorem succeeded_busy : (succeeded s).busy = false := rfl
@[simp] theorem succeeded_done : (succeeded s).done = true := rfl
@[simp] theorem succeeded_err : (succeeded s).err = false := rfl
@[simp] theorem succeeded_overrun : (succeeded s).overrun = s.overrun := rfl
@[simp] theorem succeeded_treeValid : (succeeded s).treeValid = s.treeValid := rfl
@[simp] theorem succeeded_codesValid : (succeeded s).codesValid = s.codesValid := rfl
@[simp] theorem succeeded_treeKind : (succeeded s).treeKind = s.treeKind := rfl
@[simp] theorem succeeded_cmd : (succeeded s).cmd = s.cmd := rfl
@[simp] theorem succeeded_srcAddr : (succeeded s).srcAddr = s.srcAddr := rfl
@[simp] theorem succeeded_srcLen : (succeeded s).srcLen = s.srcLen := rfl
@[simp] theorem succeeded_dstAddr : (succeeded s).dstAddr = s.dstAddr := rfl
@[simp] theorem succeeded_dstCap : (succeeded s).dstCap = s.dstCap := rfl
@[simp] theorem succeeded_outLen : (succeeded s).outLen = s.outLen := rfl
@[simp] theorem succeeded_dataBits : (succeeded s).dataBits = s.dataBits := rfl
@[simp] theorem succeeded_symCount : (succeeded s).symCount = s.symCount := rfl
@[simp] theorem succeeded_total : (succeeded s).total = s.total := rfl
@[simp] theorem succeeded_leaves : (succeeded s).leaves = s.leaves := rfl
@[simp] theorem succeeded_root : (succeeded s).root = s.root := rfl
@[simp] theorem succeeded_maxLen : (succeeded s).maxLen = s.maxLen := rfl
@[simp] theorem succeeded_errCode : (succeeded s).errCode = .none := rfl
@[simp] theorem succeeded_errAddr : (succeeded s).errAddr = 0 := rfl
@[simp] theorem succeeded_freq : (succeeded s).freq = s.freq := rfl
@[simp] theorem succeeded_codeLen : (succeeded s).codeLen = s.codeLen := rfl
@[simp] theorem succeeded_codeVal : (succeeded s).codeVal = s.codeVal := rfl
@[simp] theorem succeeded_node : (succeeded s).node = s.node := rfl
@[simp] theorem succeeded_buf : (succeeded s).buf = s.buf := rfl
@[simp] theorem succeeded_bufDraw : (succeeded s).bufDraw = s.bufDraw := rfl
@[simp] theorem succeeded_draws : (succeeded s).draws = s.draws := rfl
@[simp] theorem succeeded_pending : (succeeded s).pending = s.pending := rfl
@[simp] theorem succeeded_response : (succeeded s).response = s.response := rfl

@[simp] theorem failedWith_cfg (c : ErrCode) (a : Nat) : (failedWith c a s).cfg = s.cfg := rfl
@[simp] theorem failedWith_irqEn (c : ErrCode) (a : Nat) : (failedWith c a s).irqEn = s.irqEn := rfl
@[simp] theorem failedWith_busy (c : ErrCode) (a : Nat) : (failedWith c a s).busy = false := rfl
@[simp] theorem failedWith_done (c : ErrCode) (a : Nat) : (failedWith c a s).done = false := rfl
@[simp] theorem failedWith_err (c : ErrCode) (a : Nat) : (failedWith c a s).err = true := rfl
@[simp] theorem failedWith_overrun (c : ErrCode) (a : Nat) : (failedWith c a s).overrun = s.overrun := rfl
@[simp] theorem failedWith_treeValid (c : ErrCode) (a : Nat) : (failedWith c a s).treeValid = s.treeValid := rfl
@[simp] theorem failedWith_codesValid (c : ErrCode) (a : Nat) : (failedWith c a s).codesValid = s.codesValid := rfl
@[simp] theorem failedWith_treeKind (c : ErrCode) (a : Nat) : (failedWith c a s).treeKind = s.treeKind := rfl
@[simp] theorem failedWith_cmd (c : ErrCode) (a : Nat) : (failedWith c a s).cmd = s.cmd := rfl
@[simp] theorem failedWith_srcAddr (c : ErrCode) (a : Nat) : (failedWith c a s).srcAddr = s.srcAddr := rfl
@[simp] theorem failedWith_srcLen (c : ErrCode) (a : Nat) : (failedWith c a s).srcLen = s.srcLen := rfl
@[simp] theorem failedWith_dstAddr (c : ErrCode) (a : Nat) : (failedWith c a s).dstAddr = s.dstAddr := rfl
@[simp] theorem failedWith_dstCap (c : ErrCode) (a : Nat) : (failedWith c a s).dstCap = s.dstCap := rfl
@[simp] theorem failedWith_outLen (c : ErrCode) (a : Nat) : (failedWith c a s).outLen = s.outLen := rfl
@[simp] theorem failedWith_dataBits (c : ErrCode) (a : Nat) : (failedWith c a s).dataBits = s.dataBits := rfl
@[simp] theorem failedWith_symCount (c : ErrCode) (a : Nat) : (failedWith c a s).symCount = s.symCount := rfl
@[simp] theorem failedWith_total (c : ErrCode) (a : Nat) : (failedWith c a s).total = s.total := rfl
@[simp] theorem failedWith_leaves (c : ErrCode) (a : Nat) : (failedWith c a s).leaves = s.leaves := rfl
@[simp] theorem failedWith_root (c : ErrCode) (a : Nat) : (failedWith c a s).root = s.root := rfl
@[simp] theorem failedWith_maxLen (c : ErrCode) (a : Nat) : (failedWith c a s).maxLen = s.maxLen := rfl
@[simp] theorem failedWith_errCode (c : ErrCode) (a : Nat) : (failedWith c a s).errCode = c := rfl
@[simp] theorem failedWith_errAddr (c : ErrCode) (a : Nat) : (failedWith c a s).errAddr = BitVec.ofNat 32 a := rfl
@[simp] theorem failedWith_freq (c : ErrCode) (a : Nat) : (failedWith c a s).freq = s.freq := rfl
@[simp] theorem failedWith_codeLen (c : ErrCode) (a : Nat) : (failedWith c a s).codeLen = s.codeLen := rfl
@[simp] theorem failedWith_codeVal (c : ErrCode) (a : Nat) : (failedWith c a s).codeVal = s.codeVal := rfl
@[simp] theorem failedWith_node (c : ErrCode) (a : Nat) : (failedWith c a s).node = s.node := rfl
@[simp] theorem failedWith_buf (c : ErrCode) (a : Nat) : (failedWith c a s).buf = s.buf := rfl
@[simp] theorem failedWith_bufDraw (c : ErrCode) (a : Nat) : (failedWith c a s).bufDraw = s.bufDraw := rfl
@[simp] theorem failedWith_draws (c : ErrCode) (a : Nat) : (failedWith c a s).draws = s.draws := rfl
@[simp] theorem failedWith_pending (c : ErrCode) (a : Nat) : (failedWith c a s).pending = s.pending := rfl
@[simp] theorem failedWith_response (c : ErrCode) (a : Nat) : (failedWith c a s).response = s.response := rfl

@[simp] theorem acceptCommand_cfg (w : Word) : (acceptCommand w s).cfg = s.cfg := rfl
@[simp] theorem acceptCommand_irqEn (w : Word) : (acceptCommand w s).irqEn = s.irqEn := rfl
@[simp] theorem acceptCommand_busy (w : Word) : (acceptCommand w s).busy = true := rfl
@[simp] theorem acceptCommand_done (w : Word) : (acceptCommand w s).done = false := rfl
@[simp] theorem acceptCommand_err (w : Word) : (acceptCommand w s).err = false := rfl
@[simp] theorem acceptCommand_overrun (w : Word) : (acceptCommand w s).overrun = s.overrun := rfl
@[simp] theorem acceptCommand_treeValid (w : Word) : (acceptCommand w s).treeValid = s.treeValid := rfl
@[simp] theorem acceptCommand_codesValid (w : Word) : (acceptCommand w s).codesValid = s.codesValid := rfl
@[simp] theorem acceptCommand_treeKind (w : Word) : (acceptCommand w s).treeKind = s.treeKind := rfl
@[simp] theorem acceptCommand_cmd (w : Word) : (acceptCommand w s).cmd = w := rfl
@[simp] theorem acceptCommand_srcAddr (w : Word) : (acceptCommand w s).srcAddr = s.srcAddr := rfl
@[simp] theorem acceptCommand_srcLen (w : Word) : (acceptCommand w s).srcLen = s.srcLen := rfl
@[simp] theorem acceptCommand_dstAddr (w : Word) : (acceptCommand w s).dstAddr = s.dstAddr := rfl
@[simp] theorem acceptCommand_dstCap (w : Word) : (acceptCommand w s).dstCap = s.dstCap := rfl
@[simp] theorem acceptCommand_outLen (w : Word) : (acceptCommand w s).outLen = s.outLen := rfl
@[simp] theorem acceptCommand_dataBits (w : Word) : (acceptCommand w s).dataBits = s.dataBits := rfl
@[simp] theorem acceptCommand_symCount (w : Word) : (acceptCommand w s).symCount = s.symCount := rfl
@[simp] theorem acceptCommand_total (w : Word) : (acceptCommand w s).total = s.total := rfl
@[simp] theorem acceptCommand_leaves (w : Word) : (acceptCommand w s).leaves = s.leaves := rfl
@[simp] theorem acceptCommand_root (w : Word) : (acceptCommand w s).root = s.root := rfl
@[simp] theorem acceptCommand_maxLen (w : Word) : (acceptCommand w s).maxLen = s.maxLen := rfl
@[simp] theorem acceptCommand_errCode (w : Word) : (acceptCommand w s).errCode = s.errCode := rfl
@[simp] theorem acceptCommand_errAddr (w : Word) : (acceptCommand w s).errAddr = s.errAddr := rfl
@[simp] theorem acceptCommand_freq (w : Word) : (acceptCommand w s).freq = s.freq := rfl
@[simp] theorem acceptCommand_codeLen (w : Word) : (acceptCommand w s).codeLen = s.codeLen := rfl
@[simp] theorem acceptCommand_codeVal (w : Word) : (acceptCommand w s).codeVal = s.codeVal := rfl
@[simp] theorem acceptCommand_node (w : Word) : (acceptCommand w s).node = s.node := rfl
@[simp] theorem acceptCommand_buf (w : Word) : (acceptCommand w s).buf = s.buf := rfl
@[simp] theorem acceptCommand_bufDraw (w : Word) : (acceptCommand w s).bufDraw = s.bufDraw := rfl
@[simp] theorem acceptCommand_draws (w : Word) : (acceptCommand w s).draws = s.draws := rfl
@[simp] theorem acceptCommand_pending (w : Word) : (acceptCommand w s).pending = s.pending := rfl
@[simp] theorem acceptCommand_response (w : Word) : (acceptCommand w s).response = s.response := rfl

@[simp] theorem writeBytes_cfg (a : Nat) (l : List Byte) : (s.writeBytes a l).cfg = s.cfg := rfl
@[simp] theorem writeBytes_irqEn (a : Nat) (l : List Byte) : (s.writeBytes a l).irqEn = s.irqEn := rfl
@[simp] theorem writeBytes_busy (a : Nat) (l : List Byte) : (s.writeBytes a l).busy = s.busy := rfl
@[simp] theorem writeBytes_done (a : Nat) (l : List Byte) : (s.writeBytes a l).done = s.done := rfl
@[simp] theorem writeBytes_err (a : Nat) (l : List Byte) : (s.writeBytes a l).err = s.err := rfl
@[simp] theorem writeBytes_overrun (a : Nat) (l : List Byte) : (s.writeBytes a l).overrun = s.overrun := rfl
@[simp] theorem writeBytes_treeValid (a : Nat) (l : List Byte) : (s.writeBytes a l).treeValid = s.treeValid := rfl
@[simp] theorem writeBytes_codesValid (a : Nat) (l : List Byte) : (s.writeBytes a l).codesValid = s.codesValid := rfl
@[simp] theorem writeBytes_treeKind (a : Nat) (l : List Byte) : (s.writeBytes a l).treeKind = s.treeKind := rfl
@[simp] theorem writeBytes_cmd (a : Nat) (l : List Byte) : (s.writeBytes a l).cmd = s.cmd := rfl
@[simp] theorem writeBytes_srcAddr (a : Nat) (l : List Byte) : (s.writeBytes a l).srcAddr = s.srcAddr := rfl
@[simp] theorem writeBytes_srcLen (a : Nat) (l : List Byte) : (s.writeBytes a l).srcLen = s.srcLen := rfl
@[simp] theorem writeBytes_dstAddr (a : Nat) (l : List Byte) : (s.writeBytes a l).dstAddr = s.dstAddr := rfl
@[simp] theorem writeBytes_dstCap (a : Nat) (l : List Byte) : (s.writeBytes a l).dstCap = s.dstCap := rfl
@[simp] theorem writeBytes_outLen (a : Nat) (l : List Byte) : (s.writeBytes a l).outLen = s.outLen := rfl
@[simp] theorem writeBytes_dataBits (a : Nat) (l : List Byte) : (s.writeBytes a l).dataBits = s.dataBits := rfl
@[simp] theorem writeBytes_symCount (a : Nat) (l : List Byte) : (s.writeBytes a l).symCount = s.symCount := rfl
@[simp] theorem writeBytes_total (a : Nat) (l : List Byte) : (s.writeBytes a l).total = s.total := rfl
@[simp] theorem writeBytes_leaves (a : Nat) (l : List Byte) : (s.writeBytes a l).leaves = s.leaves := rfl
@[simp] theorem writeBytes_root (a : Nat) (l : List Byte) : (s.writeBytes a l).root = s.root := rfl
@[simp] theorem writeBytes_maxLen (a : Nat) (l : List Byte) : (s.writeBytes a l).maxLen = s.maxLen := rfl
@[simp] theorem writeBytes_errCode (a : Nat) (l : List Byte) : (s.writeBytes a l).errCode = s.errCode := rfl
@[simp] theorem writeBytes_errAddr (a : Nat) (l : List Byte) : (s.writeBytes a l).errAddr = s.errAddr := rfl
@[simp] theorem writeBytes_freq (a : Nat) (l : List Byte) : (s.writeBytes a l).freq = s.freq := rfl
@[simp] theorem writeBytes_codeLen (a : Nat) (l : List Byte) : (s.writeBytes a l).codeLen = s.codeLen := rfl
@[simp] theorem writeBytes_codeVal (a : Nat) (l : List Byte) : (s.writeBytes a l).codeVal = s.codeVal := rfl
@[simp] theorem writeBytes_node (a : Nat) (l : List Byte) : (s.writeBytes a l).node = s.node := rfl
@[simp] theorem writeBytes_buf (a : Nat) (l : List Byte) : (s.writeBytes a l).buf = Memory.storeAll s.buf a l := rfl
@[simp] theorem writeBytes_bufDraw (a : Nat) (l : List Byte) : (s.writeBytes a l).bufDraw = s.bufDraw := rfl
@[simp] theorem writeBytes_draws (a : Nat) (l : List Byte) : (s.writeBytes a l).draws = s.draws := rfl
@[simp] theorem writeBytes_pending (a : Nat) (l : List Byte) : (s.writeBytes a l).pending = s.pending := rfl
@[simp] theorem writeBytes_response (a : Nat) (l : List Byte) : (s.writeBytes a l).response = s.response := rfl

@[simp] theorem invalidated_cfg : (invalidated s).cfg = s.cfg := rfl
@[simp] theorem invalidated_irqEn : (invalidated s).irqEn = s.irqEn := rfl
@[simp] theorem invalidated_busy : (invalidated s).busy = s.busy := rfl
@[simp] theorem invalidated_done : (invalidated s).done = s.done := rfl
@[simp] theorem invalidated_err : (invalidated s).err = s.err := rfl
@[simp] theorem invalidated_overrun : (invalidated s).overrun = s.overrun := rfl
@[simp] theorem invalidated_treeValid : (invalidated s).treeValid = false := rfl
@[simp] theorem invalidated_codesValid : (invalidated s).codesValid = false := rfl
@[simp] theorem invalidated_treeKind : (invalidated s).treeKind = s.treeKind := rfl
@[simp] theorem invalidated_cmd : (invalidated s).cmd = s.cmd := rfl
@[simp] theorem invalidated_srcAddr : (invalidated s).srcAddr = s.srcAddr := rfl
@[simp] theorem invalidated_srcLen : (invalidated s).srcLen = s.srcLen := rfl
@[simp] theorem invalidated_dstAddr : (invalidated s).dstAddr = s.dstAddr := rfl
@[simp] theorem invalidated_dstCap : (invalidated s).dstCap = s.dstCap := rfl
@[simp] theorem invalidated_outLen : (invalidated s).outLen = s.outLen := rfl
@[simp] theorem invalidated_dataBits : (invalidated s).dataBits = s.dataBits := rfl
@[simp] theorem invalidated_symCount : (invalidated s).symCount = s.symCount := rfl
@[simp] theorem invalidated_total : (invalidated s).total = s.total := rfl
@[simp] theorem invalidated_leaves : (invalidated s).leaves = s.leaves := rfl
@[simp] theorem invalidated_root : (invalidated s).root = s.root := rfl
@[simp] theorem invalidated_maxLen : (invalidated s).maxLen = s.maxLen := rfl
@[simp] theorem invalidated_errCode : (invalidated s).errCode = s.errCode := rfl
@[simp] theorem invalidated_errAddr : (invalidated s).errAddr = s.errAddr := rfl
@[simp] theorem invalidated_freq : (invalidated s).freq = s.freq := rfl
@[simp] theorem invalidated_codeLen : (invalidated s).codeLen = s.codeLen := rfl
@[simp] theorem invalidated_codeVal : (invalidated s).codeVal = s.codeVal := rfl
@[simp] theorem invalidated_node : (invalidated s).node = s.node := rfl
@[simp] theorem invalidated_buf : (invalidated s).buf = s.buf := rfl
@[simp] theorem invalidated_bufDraw : (invalidated s).bufDraw = s.bufDraw := rfl
@[simp] theorem invalidated_draws : (invalidated s).draws = s.draws := rfl
@[simp] theorem invalidated_pending : (invalidated s).pending = s.pending := rfl
@[simp] theorem invalidated_response : (invalidated s).response = s.response := rfl

@[simp] theorem drawn_cfg : (drawn s).cfg = s.cfg := rfl
@[simp] theorem drawn_irqEn : (drawn s).irqEn = s.irqEn := rfl
@[simp] theorem drawn_busy : (drawn s).busy = s.busy := rfl
@[simp] theorem drawn_done : (drawn s).done = s.done := rfl
@[simp] theorem drawn_err : (drawn s).err = s.err := rfl
@[simp] theorem drawn_overrun : (drawn s).overrun = s.overrun := rfl
@[simp] theorem drawn_treeValid : (drawn s).treeValid = s.treeValid := rfl
@[simp] theorem drawn_codesValid : (drawn s).codesValid = s.codesValid := rfl
@[simp] theorem drawn_treeKind : (drawn s).treeKind = s.treeKind := rfl
@[simp] theorem drawn_cmd : (drawn s).cmd = s.cmd := rfl
@[simp] theorem drawn_srcAddr : (drawn s).srcAddr = s.srcAddr := rfl
@[simp] theorem drawn_srcLen : (drawn s).srcLen = s.srcLen := rfl
@[simp] theorem drawn_dstAddr : (drawn s).dstAddr = s.dstAddr := rfl
@[simp] theorem drawn_dstCap : (drawn s).dstCap = s.dstCap := rfl
@[simp] theorem drawn_outLen : (drawn s).outLen = s.outLen := rfl
@[simp] theorem drawn_dataBits : (drawn s).dataBits = s.dataBits := rfl
@[simp] theorem drawn_symCount : (drawn s).symCount = s.symCount := rfl
@[simp] theorem drawn_total : (drawn s).total = s.total := rfl
@[simp] theorem drawn_leaves : (drawn s).leaves = s.leaves := rfl
@[simp] theorem drawn_root : (drawn s).root = s.root := rfl
@[simp] theorem drawn_maxLen : (drawn s).maxLen = s.maxLen := rfl
@[simp] theorem drawn_errCode : (drawn s).errCode = s.errCode := rfl
@[simp] theorem drawn_errAddr : (drawn s).errAddr = s.errAddr := rfl
@[simp] theorem drawn_freq : (drawn s).freq = s.freq := rfl
@[simp] theorem drawn_codeLen : (drawn s).codeLen = s.codeLen := rfl
@[simp] theorem drawn_codeVal : (drawn s).codeVal = s.codeVal := rfl
@[simp] theorem drawn_node : (drawn s).node = s.node := rfl
@[simp] theorem drawn_buf : (drawn s).buf = s.buf := rfl
@[simp] theorem drawn_bufDraw : (drawn s).bufDraw = s.bufDraw := rfl
@[simp] theorem drawn_draws : (drawn s).draws = s.draws + 1 := rfl
@[simp] theorem drawn_pending : (drawn s).pending = s.pending := rfl
@[simp] theorem drawn_response : (drawn s).response = s.response := rfl

@[simp] theorem anyBytes_cfg (k a n : Nat) : (anyBytes k a n s).cfg = s.cfg := rfl
@[simp] theorem anyBytes_irqEn (k a n : Nat) : (anyBytes k a n s).irqEn = s.irqEn := rfl
@[simp] theorem anyBytes_busy (k a n : Nat) : (anyBytes k a n s).busy = s.busy := rfl
@[simp] theorem anyBytes_done (k a n : Nat) : (anyBytes k a n s).done = s.done := rfl
@[simp] theorem anyBytes_err (k a n : Nat) : (anyBytes k a n s).err = s.err := rfl
@[simp] theorem anyBytes_overrun (k a n : Nat) : (anyBytes k a n s).overrun = s.overrun := rfl
@[simp] theorem anyBytes_treeValid (k a n : Nat) : (anyBytes k a n s).treeValid = s.treeValid := rfl
@[simp] theorem anyBytes_codesValid (k a n : Nat) : (anyBytes k a n s).codesValid = s.codesValid := rfl
@[simp] theorem anyBytes_treeKind (k a n : Nat) : (anyBytes k a n s).treeKind = s.treeKind := rfl
@[simp] theorem anyBytes_cmd (k a n : Nat) : (anyBytes k a n s).cmd = s.cmd := rfl
@[simp] theorem anyBytes_srcAddr (k a n : Nat) : (anyBytes k a n s).srcAddr = s.srcAddr := rfl
@[simp] theorem anyBytes_srcLen (k a n : Nat) : (anyBytes k a n s).srcLen = s.srcLen := rfl
@[simp] theorem anyBytes_dstAddr (k a n : Nat) : (anyBytes k a n s).dstAddr = s.dstAddr := rfl
@[simp] theorem anyBytes_dstCap (k a n : Nat) : (anyBytes k a n s).dstCap = s.dstCap := rfl
@[simp] theorem anyBytes_outLen (k a n : Nat) : (anyBytes k a n s).outLen = s.outLen := rfl
@[simp] theorem anyBytes_dataBits (k a n : Nat) : (anyBytes k a n s).dataBits = s.dataBits := rfl
@[simp] theorem anyBytes_symCount (k a n : Nat) : (anyBytes k a n s).symCount = s.symCount := rfl
@[simp] theorem anyBytes_total (k a n : Nat) : (anyBytes k a n s).total = s.total := rfl
@[simp] theorem anyBytes_leaves (k a n : Nat) : (anyBytes k a n s).leaves = s.leaves := rfl
@[simp] theorem anyBytes_root (k a n : Nat) : (anyBytes k a n s).root = s.root := rfl
@[simp] theorem anyBytes_maxLen (k a n : Nat) : (anyBytes k a n s).maxLen = s.maxLen := rfl
@[simp] theorem anyBytes_errCode (k a n : Nat) : (anyBytes k a n s).errCode = s.errCode := rfl
@[simp] theorem anyBytes_errAddr (k a n : Nat) : (anyBytes k a n s).errAddr = s.errAddr := rfl
@[simp] theorem anyBytes_freq (k a n : Nat) : (anyBytes k a n s).freq = s.freq := rfl
@[simp] theorem anyBytes_codeLen (k a n : Nat) : (anyBytes k a n s).codeLen = s.codeLen := rfl
@[simp] theorem anyBytes_codeVal (k a n : Nat) : (anyBytes k a n s).codeVal = s.codeVal := rfl
@[simp] theorem anyBytes_node (k a n : Nat) : (anyBytes k a n s).node = s.node := rfl
@[simp] theorem anyBytes_buf (k a n : Nat) : (anyBytes k a n s).buf = Memory.storeAll s.buf a (freeBytes k a n) := rfl
@[simp] theorem anyBytes_bufDraw (k a n : Nat) : (anyBytes k a n s).bufDraw = s.bufDraw := rfl
@[simp] theorem anyBytes_draws (k a n : Nat) : (anyBytes k a n s).draws = s.draws := rfl
@[simp] theorem anyBytes_pending (k a n : Nat) : (anyBytes k a n s).pending = s.pending := rfl
@[simp] theorem anyBytes_response (k a n : Nat) : (anyBytes k a n s).response = s.response := rfl

@[simp] theorem anyWindow_cfg (k : Nat) : (anyWindow k s).cfg = s.cfg := rfl
@[simp] theorem anyWindow_irqEn (k : Nat) : (anyWindow k s).irqEn = s.irqEn := rfl
@[simp] theorem anyWindow_busy (k : Nat) : (anyWindow k s).busy = s.busy := rfl
@[simp] theorem anyWindow_done (k : Nat) : (anyWindow k s).done = s.done := rfl
@[simp] theorem anyWindow_err (k : Nat) : (anyWindow k s).err = s.err := rfl
@[simp] theorem anyWindow_overrun (k : Nat) : (anyWindow k s).overrun = s.overrun := rfl
@[simp] theorem anyWindow_treeValid (k : Nat) : (anyWindow k s).treeValid = s.treeValid := rfl
@[simp] theorem anyWindow_codesValid (k : Nat) : (anyWindow k s).codesValid = s.codesValid := rfl
@[simp] theorem anyWindow_treeKind (k : Nat) : (anyWindow k s).treeKind = s.treeKind := rfl
@[simp] theorem anyWindow_cmd (k : Nat) : (anyWindow k s).cmd = s.cmd := rfl
@[simp] theorem anyWindow_srcAddr (k : Nat) : (anyWindow k s).srcAddr = s.srcAddr := rfl
@[simp] theorem anyWindow_srcLen (k : Nat) : (anyWindow k s).srcLen = s.srcLen := rfl
@[simp] theorem anyWindow_dstAddr (k : Nat) : (anyWindow k s).dstAddr = s.dstAddr := rfl
@[simp] theorem anyWindow_dstCap (k : Nat) : (anyWindow k s).dstCap = s.dstCap := rfl
@[simp] theorem anyWindow_outLen (k : Nat) : (anyWindow k s).outLen = s.outLen := rfl
@[simp] theorem anyWindow_dataBits (k : Nat) : (anyWindow k s).dataBits = s.dataBits := rfl
@[simp] theorem anyWindow_symCount (k : Nat) : (anyWindow k s).symCount = s.symCount := rfl
@[simp] theorem anyWindow_total (k : Nat) : (anyWindow k s).total = s.total := rfl
@[simp] theorem anyWindow_leaves (k : Nat) : (anyWindow k s).leaves = s.leaves := rfl
@[simp] theorem anyWindow_root (k : Nat) : (anyWindow k s).root = s.root := rfl
@[simp] theorem anyWindow_maxLen (k : Nat) : (anyWindow k s).maxLen = s.maxLen := rfl
@[simp] theorem anyWindow_errCode (k : Nat) : (anyWindow k s).errCode = s.errCode := rfl
@[simp] theorem anyWindow_errAddr (k : Nat) : (anyWindow k s).errAddr = s.errAddr := rfl
@[simp] theorem anyWindow_freq (k : Nat) : (anyWindow k s).freq = s.freq := rfl
@[simp] theorem anyWindow_codeLen (k : Nat) : (anyWindow k s).codeLen = s.codeLen := rfl
@[simp] theorem anyWindow_codeVal (k : Nat) : (anyWindow k s).codeVal = s.codeVal := rfl
@[simp] theorem anyWindow_node (k : Nat) : (anyWindow k s).node = s.node := rfl
@[simp] theorem anyWindow_buf (k : Nat) : (anyWindow k s).buf = Memory.storeAll s.buf s.dstStart (freeBytes k s.dstStart s.dstRoom) := rfl
@[simp] theorem anyWindow_bufDraw (k : Nat) : (anyWindow k s).bufDraw = s.bufDraw := rfl
@[simp] theorem anyWindow_draws (k : Nat) : (anyWindow k s).draws = s.draws := rfl
@[simp] theorem anyWindow_pending (k : Nat) : (anyWindow k s).pending = s.pending := rfl
@[simp] theorem anyWindow_response (k : Nat) : (anyWindow k s).response = s.response := rfl

@[simp] theorem anyResults_cfg (k : Nat) : (anyResults k s).cfg = s.cfg := rfl
@[simp] theorem anyResults_irqEn (k : Nat) : (anyResults k s).irqEn = s.irqEn := rfl
@[simp] theorem anyResults_busy (k : Nat) : (anyResults k s).busy = s.busy := rfl
@[simp] theorem anyResults_done (k : Nat) : (anyResults k s).done = s.done := rfl
@[simp] theorem anyResults_err (k : Nat) : (anyResults k s).err = s.err := rfl
@[simp] theorem anyResults_overrun (k : Nat) : (anyResults k s).overrun = s.overrun := rfl
@[simp] theorem anyResults_treeValid (k : Nat) : (anyResults k s).treeValid = s.treeValid := rfl
@[simp] theorem anyResults_codesValid (k : Nat) : (anyResults k s).codesValid = s.codesValid := rfl
@[simp] theorem anyResults_treeKind (k : Nat) : (anyResults k s).treeKind = s.treeKind := rfl
@[simp] theorem anyResults_cmd (k : Nat) : (anyResults k s).cmd = s.cmd := rfl
@[simp] theorem anyResults_srcAddr (k : Nat) : (anyResults k s).srcAddr = s.srcAddr := rfl
@[simp] theorem anyResults_srcLen (k : Nat) : (anyResults k s).srcLen = s.srcLen := rfl
@[simp] theorem anyResults_dstAddr (k : Nat) : (anyResults k s).dstAddr = s.dstAddr := rfl
@[simp] theorem anyResults_dstCap (k : Nat) : (anyResults k s).dstCap = s.dstCap := rfl
@[simp] theorem anyResults_outLen (k : Nat) : (anyResults k s).outLen = Config.freeWord k .outLen := rfl
@[simp] theorem anyResults_dataBits (k : Nat) : (anyResults k s).dataBits = Config.freeWord k .dataBits := rfl
@[simp] theorem anyResults_symCount (k : Nat) : (anyResults k s).symCount = Config.freeWord k .symCount := rfl
@[simp] theorem anyResults_total (k : Nat) : (anyResults k s).total = s.total := rfl
@[simp] theorem anyResults_leaves (k : Nat) : (anyResults k s).leaves = s.leaves := rfl
@[simp] theorem anyResults_root (k : Nat) : (anyResults k s).root = s.root := rfl
@[simp] theorem anyResults_maxLen (k : Nat) : (anyResults k s).maxLen = s.maxLen := rfl
@[simp] theorem anyResults_errCode (k : Nat) : (anyResults k s).errCode = s.errCode := rfl
@[simp] theorem anyResults_errAddr (k : Nat) : (anyResults k s).errAddr = s.errAddr := rfl
@[simp] theorem anyResults_freq (k : Nat) : (anyResults k s).freq = s.freq := rfl
@[simp] theorem anyResults_codeLen (k : Nat) : (anyResults k s).codeLen = s.codeLen := rfl
@[simp] theorem anyResults_codeVal (k : Nat) : (anyResults k s).codeVal = s.codeVal := rfl
@[simp] theorem anyResults_node (k : Nat) : (anyResults k s).node = s.node := rfl
@[simp] theorem anyResults_buf (k : Nat) : (anyResults k s).buf = s.buf := rfl
@[simp] theorem anyResults_bufDraw (k : Nat) : (anyResults k s).bufDraw = s.bufDraw := rfl
@[simp] theorem anyResults_draws (k : Nat) : (anyResults k s).draws = s.draws := rfl
@[simp] theorem anyResults_pending (k : Nat) : (anyResults k s).pending = s.pending := rfl
@[simp] theorem anyResults_response (k : Nat) : (anyResults k s).response = s.response := rfl

@[simp] theorem anyTree_cfg (k : Nat) : (anyTree k s).cfg = s.cfg := rfl
@[simp] theorem anyTree_irqEn (k : Nat) : (anyTree k s).irqEn = s.irqEn := rfl
@[simp] theorem anyTree_busy (k : Nat) : (anyTree k s).busy = s.busy := rfl
@[simp] theorem anyTree_done (k : Nat) : (anyTree k s).done = s.done := rfl
@[simp] theorem anyTree_err (k : Nat) : (anyTree k s).err = s.err := rfl
@[simp] theorem anyTree_overrun (k : Nat) : (anyTree k s).overrun = s.overrun := rfl
@[simp] theorem anyTree_treeValid (k : Nat) : (anyTree k s).treeValid = s.treeValid := rfl
@[simp] theorem anyTree_codesValid (k : Nat) : (anyTree k s).codesValid = s.codesValid := rfl
@[simp] theorem anyTree_treeKind (k : Nat) : (anyTree k s).treeKind = Config.freeKind k := rfl
@[simp] theorem anyTree_cmd (k : Nat) : (anyTree k s).cmd = s.cmd := rfl
@[simp] theorem anyTree_srcAddr (k : Nat) : (anyTree k s).srcAddr = s.srcAddr := rfl
@[simp] theorem anyTree_srcLen (k : Nat) : (anyTree k s).srcLen = s.srcLen := rfl
@[simp] theorem anyTree_dstAddr (k : Nat) : (anyTree k s).dstAddr = s.dstAddr := rfl
@[simp] theorem anyTree_dstCap (k : Nat) : (anyTree k s).dstCap = s.dstCap := rfl
@[simp] theorem anyTree_outLen (k : Nat) : (anyTree k s).outLen = s.outLen := rfl
@[simp] theorem anyTree_dataBits (k : Nat) : (anyTree k s).dataBits = s.dataBits := rfl
@[simp] theorem anyTree_symCount (k : Nat) : (anyTree k s).symCount = s.symCount := rfl
@[simp] theorem anyTree_total (k : Nat) : (anyTree k s).total = s.total := rfl
@[simp] theorem anyTree_leaves (k : Nat) : (anyTree k s).leaves = BitVec.ofNat 9 (Config.freeLeaves k).val := rfl
@[simp] theorem anyTree_root (k : Nat) : (anyTree k s).root = BitVec.ofNat 9 (Config.freeRoot k).val := rfl
@[simp] theorem anyTree_maxLen (k : Nat) : (anyTree k s).maxLen = s.maxLen := rfl
@[simp] theorem anyTree_errCode (k : Nat) : (anyTree k s).errCode = s.errCode := rfl
@[simp] theorem anyTree_errAddr (k : Nat) : (anyTree k s).errAddr = s.errAddr := rfl
@[simp] theorem anyTree_freq (k : Nat) : (anyTree k s).freq = s.freq := rfl
@[simp] theorem anyTree_codeLen (k : Nat) : (anyTree k s).codeLen = s.codeLen := rfl
@[simp] theorem anyTree_codeVal (k : Nat) : (anyTree k s).codeVal = s.codeVal := rfl
@[simp] theorem anyTree_node (k : Nat) : (anyTree k s).node = Vector.ofFn fun i : Fin 511 => Config.freeNode k i.val := rfl
@[simp] theorem anyTree_buf (k : Nat) : (anyTree k s).buf = s.buf := rfl
@[simp] theorem anyTree_bufDraw (k : Nat) : (anyTree k s).bufDraw = s.bufDraw := rfl
@[simp] theorem anyTree_draws (k : Nat) : (anyTree k s).draws = s.draws := rfl
@[simp] theorem anyTree_pending (k : Nat) : (anyTree k s).pending = s.pending := rfl
@[simp] theorem anyTree_response (k : Nat) : (anyTree k s).response = s.response := rfl

@[simp] theorem encodeFailed_cfg : (encodeFailed s).cfg = s.cfg := rfl
@[simp] theorem encodeFailed_irqEn : (encodeFailed s).irqEn = s.irqEn := rfl
@[simp] theorem encodeFailed_busy : (encodeFailed s).busy = s.busy := rfl
@[simp] theorem encodeFailed_done : (encodeFailed s).done = s.done := rfl
@[simp] theorem encodeFailed_err : (encodeFailed s).err = s.err := rfl
@[simp] theorem encodeFailed_overrun : (encodeFailed s).overrun = s.overrun := rfl
@[simp] theorem encodeFailed_treeValid : (encodeFailed s).treeValid = s.treeValid := rfl
@[simp] theorem encodeFailed_codesValid : (encodeFailed s).codesValid = s.codesValid := rfl
@[simp] theorem encodeFailed_treeKind : (encodeFailed s).treeKind = s.treeKind := rfl
@[simp] theorem encodeFailed_cmd : (encodeFailed s).cmd = s.cmd := rfl
@[simp] theorem encodeFailed_srcAddr : (encodeFailed s).srcAddr = s.srcAddr := rfl
@[simp] theorem encodeFailed_srcLen : (encodeFailed s).srcLen = s.srcLen := rfl
@[simp] theorem encodeFailed_dstAddr : (encodeFailed s).dstAddr = s.dstAddr := rfl
@[simp] theorem encodeFailed_dstCap : (encodeFailed s).dstCap = s.dstCap := rfl
@[simp] theorem encodeFailed_outLen : (encodeFailed s).outLen = Config.freeWord s.draws .outLen := rfl
@[simp] theorem encodeFailed_dataBits : (encodeFailed s).dataBits = Config.freeWord s.draws .dataBits := rfl
@[simp] theorem encodeFailed_symCount : (encodeFailed s).symCount = Config.freeWord s.draws .symCount := rfl
@[simp] theorem encodeFailed_total : (encodeFailed s).total = s.total := rfl
@[simp] theorem encodeFailed_leaves : (encodeFailed s).leaves = s.leaves := rfl
@[simp] theorem encodeFailed_root : (encodeFailed s).root = s.root := rfl
@[simp] theorem encodeFailed_maxLen : (encodeFailed s).maxLen = s.maxLen := rfl
@[simp] theorem encodeFailed_errCode : (encodeFailed s).errCode = s.errCode := rfl
@[simp] theorem encodeFailed_errAddr : (encodeFailed s).errAddr = s.errAddr := rfl
@[simp] theorem encodeFailed_freq : (encodeFailed s).freq = s.freq := rfl
@[simp] theorem encodeFailed_codeLen : (encodeFailed s).codeLen = s.codeLen := rfl
@[simp] theorem encodeFailed_codeVal : (encodeFailed s).codeVal = s.codeVal := rfl
@[simp] theorem encodeFailed_node : (encodeFailed s).node = s.node := rfl
@[simp] theorem encodeFailed_buf : (encodeFailed s).buf = Memory.storeAll s.buf s.dstStart (freeBytes s.draws s.dstStart s.dstRoom) := rfl
@[simp] theorem encodeFailed_bufDraw : (encodeFailed s).bufDraw = s.bufDraw := rfl
@[simp] theorem encodeFailed_draws : (encodeFailed s).draws = s.draws + 1 := rfl
@[simp] theorem encodeFailed_pending : (encodeFailed s).pending = s.pending := rfl
@[simp] theorem encodeFailed_response : (encodeFailed s).response = s.response := rfl

@[simp] theorem decodeFailed_cfg : (decodeFailed s).cfg = s.cfg := rfl
@[simp] theorem decodeFailed_irqEn : (decodeFailed s).irqEn = s.irqEn := rfl
@[simp] theorem decodeFailed_busy : (decodeFailed s).busy = s.busy := rfl
@[simp] theorem decodeFailed_done : (decodeFailed s).done = s.done := rfl
@[simp] theorem decodeFailed_err : (decodeFailed s).err = s.err := rfl
@[simp] theorem decodeFailed_overrun : (decodeFailed s).overrun = s.overrun := rfl
@[simp] theorem decodeFailed_treeValid : (decodeFailed s).treeValid = false := rfl
@[simp] theorem decodeFailed_codesValid : (decodeFailed s).codesValid = false := rfl
@[simp] theorem decodeFailed_treeKind : (decodeFailed s).treeKind = Config.freeKind s.draws := rfl
@[simp] theorem decodeFailed_cmd : (decodeFailed s).cmd = s.cmd := rfl
@[simp] theorem decodeFailed_srcAddr : (decodeFailed s).srcAddr = s.srcAddr := rfl
@[simp] theorem decodeFailed_srcLen : (decodeFailed s).srcLen = s.srcLen := rfl
@[simp] theorem decodeFailed_dstAddr : (decodeFailed s).dstAddr = s.dstAddr := rfl
@[simp] theorem decodeFailed_dstCap : (decodeFailed s).dstCap = s.dstCap := rfl
@[simp] theorem decodeFailed_outLen : (decodeFailed s).outLen = Config.freeWord s.draws .outLen := rfl
@[simp] theorem decodeFailed_dataBits : (decodeFailed s).dataBits = Config.freeWord s.draws .dataBits := rfl
@[simp] theorem decodeFailed_symCount : (decodeFailed s).symCount = Config.freeWord s.draws .symCount := rfl
@[simp] theorem decodeFailed_total : (decodeFailed s).total = s.total := rfl
@[simp] theorem decodeFailed_leaves : (decodeFailed s).leaves = BitVec.ofNat 9 (Config.freeLeaves s.draws).val := rfl
@[simp] theorem decodeFailed_root : (decodeFailed s).root = BitVec.ofNat 9 (Config.freeRoot s.draws).val := rfl
@[simp] theorem decodeFailed_maxLen : (decodeFailed s).maxLen = s.maxLen := rfl
@[simp] theorem decodeFailed_errCode : (decodeFailed s).errCode = s.errCode := rfl
@[simp] theorem decodeFailed_errAddr : (decodeFailed s).errAddr = s.errAddr := rfl
@[simp] theorem decodeFailed_freq : (decodeFailed s).freq = s.freq := rfl
@[simp] theorem decodeFailed_codeLen : (decodeFailed s).codeLen = s.codeLen := rfl
@[simp] theorem decodeFailed_codeVal : (decodeFailed s).codeVal = s.codeVal := rfl
@[simp] theorem decodeFailed_node : (decodeFailed s).node = Vector.ofFn fun i : Fin 511 => Config.freeNode s.draws i.val := rfl
@[simp] theorem decodeFailed_buf : (decodeFailed s).buf = Memory.storeAll s.buf s.dstStart (freeBytes s.draws s.dstStart s.dstRoom) := rfl
@[simp] theorem decodeFailed_bufDraw : (decodeFailed s).bufDraw = s.bufDraw := rfl
@[simp] theorem decodeFailed_draws : (decodeFailed s).draws = s.draws + 1 := rfl
@[simp] theorem decodeFailed_pending : (decodeFailed s).pending = s.pending := rfl
@[simp] theorem decodeFailed_response : (decodeFailed s).response = s.response := rfl

@[simp] theorem counted_cfg (acc : Bool) : (counted acc s).cfg = s.cfg := rfl
@[simp] theorem counted_irqEn (acc : Bool) : (counted acc s).irqEn = s.irqEn := rfl
@[simp] theorem counted_busy (acc : Bool) : (counted acc s).busy = s.busy := rfl
@[simp] theorem counted_done (acc : Bool) : (counted acc s).done = s.done := rfl
@[simp] theorem counted_err (acc : Bool) : (counted acc s).err = s.err := rfl
@[simp] theorem counted_overrun (acc : Bool) : (counted acc s).overrun = s.overrun := rfl
@[simp] theorem counted_treeValid (acc : Bool) : (counted acc s).treeValid = false := rfl
@[simp] theorem counted_codesValid (acc : Bool) : (counted acc s).codesValid = false := rfl
@[simp] theorem counted_treeKind (acc : Bool) : (counted acc s).treeKind = s.treeKind := rfl
@[simp] theorem counted_cmd (acc : Bool) : (counted acc s).cmd = s.cmd := rfl
@[simp] theorem counted_srcAddr (acc : Bool) : (counted acc s).srcAddr = s.srcAddr := rfl
@[simp] theorem counted_srcLen (acc : Bool) : (counted acc s).srcLen = s.srcLen := rfl
@[simp] theorem counted_dstAddr (acc : Bool) : (counted acc s).dstAddr = s.dstAddr := rfl
@[simp] theorem counted_dstCap (acc : Bool) : (counted acc s).dstCap = s.dstCap := rfl
@[simp] theorem counted_outLen (acc : Bool) : (counted acc s).outLen = s.outLen := rfl
@[simp] theorem counted_dataBits (acc : Bool) : (counted acc s).dataBits = s.dataBits := rfl
@[simp] theorem counted_symCount (acc : Bool) : (counted acc s).symCount = s.symCount := rfl
@[simp] theorem counted_total (acc : Bool) : (counted acc s).total = BitVec.ofNat 32 (countBase acc s + s.srcCount) := rfl
@[simp] theorem counted_leaves (acc : Bool) : (counted acc s).leaves = s.leaves := rfl
@[simp] theorem counted_root (acc : Bool) : (counted acc s).root = s.root := rfl
@[simp] theorem counted_maxLen (acc : Bool) : (counted acc s).maxLen = s.maxLen := rfl
@[simp] theorem counted_errCode (acc : Bool) : (counted acc s).errCode = s.errCode := rfl
@[simp] theorem counted_errAddr (acc : Bool) : (counted acc s).errAddr = s.errAddr := rfl
@[simp] theorem counted_freq (acc : Bool) : (counted acc s).freq = countBytes (countStart acc s) s.source := rfl
@[simp] theorem counted_codeLen (acc : Bool) : (counted acc s).codeLen = s.codeLen := rfl
@[simp] theorem counted_codeVal (acc : Bool) : (counted acc s).codeVal = s.codeVal := rfl
@[simp] theorem counted_node (acc : Bool) : (counted acc s).node = s.node := rfl
@[simp] theorem counted_buf (acc : Bool) : (counted acc s).buf = s.buf := rfl
@[simp] theorem counted_bufDraw (acc : Bool) : (counted acc s).bufDraw = s.bufDraw := rfl
@[simp] theorem counted_draws (acc : Bool) : (counted acc s).draws = s.draws := rfl
@[simp] theorem counted_pending (acc : Bool) : (counted acc s).pending = s.pending := rfl
@[simp] theorem counted_response (acc : Bool) : (counted acc s).response = s.response := rfl

@[simp] theorem built_cfg : (built s).cfg = s.cfg := rfl
@[simp] theorem built_irqEn : (built s).irqEn = s.irqEn := rfl
@[simp] theorem built_busy : (built s).busy = s.busy := rfl
@[simp] theorem built_done : (built s).done = s.done := rfl
@[simp] theorem built_err : (built s).err = s.err := rfl
@[simp] theorem built_overrun : (built s).overrun = s.overrun := rfl
@[simp] theorem built_treeValid : (built s).treeValid = true := rfl
@[simp] theorem built_codesValid : (built s).codesValid = false := rfl
@[simp] theorem built_treeKind : (built s).treeKind = builtKind (leafCount s.freq) := rfl
@[simp] theorem built_cmd : (built s).cmd = s.cmd := rfl
@[simp] theorem built_srcAddr : (built s).srcAddr = s.srcAddr := rfl
@[simp] theorem built_srcLen : (built s).srcLen = s.srcLen := rfl
@[simp] theorem built_dstAddr : (built s).dstAddr = s.dstAddr := rfl
@[simp] theorem built_dstCap : (built s).dstCap = s.dstCap := rfl
@[simp] theorem built_outLen : (built s).outLen = s.outLen := rfl
@[simp] theorem built_dataBits : (built s).dataBits = s.dataBits := rfl
@[simp] theorem built_symCount : (built s).symCount = s.symCount := rfl
@[simp] theorem built_total : (built s).total = s.total := rfl
@[simp] theorem built_leaves : (built s).leaves = BitVec.ofNat 9 (leafCount s.freq) := rfl
@[simp] theorem built_root : (built s).root = BitVec.ofNat 9 (builtRoot (leafCount s.freq)) := rfl
@[simp] theorem built_maxLen : (built s).maxLen = s.maxLen := rfl
@[simp] theorem built_errCode : (built s).errCode = s.errCode := rfl
@[simp] theorem built_errAddr : (built s).errAddr = s.errAddr := rfl
@[simp] theorem built_freq : (built s).freq = s.freq := rfl
@[simp] theorem built_codeLen : (built s).codeLen = s.codeLen := rfl
@[simp] theorem built_codeVal : (built s).codeVal = s.codeVal := rfl
@[simp] theorem built_node : (built s).node = builtNodes s.freq s.node := rfl
@[simp] theorem built_buf : (built s).buf = s.buf := rfl
@[simp] theorem built_bufDraw : (built s).bufDraw = s.bufDraw := rfl
@[simp] theorem built_draws : (built s).draws = s.draws := rfl
@[simp] theorem built_pending : (built s).pending = s.pending := rfl
@[simp] theorem built_response : (built s).response = s.response := rfl

@[simp] theorem coded_cfg (t : CodeTable) : (coded t s).cfg = s.cfg := rfl
@[simp] theorem coded_irqEn (t : CodeTable) : (coded t s).irqEn = s.irqEn := rfl
@[simp] theorem coded_busy (t : CodeTable) : (coded t s).busy = s.busy := rfl
@[simp] theorem coded_done (t : CodeTable) : (coded t s).done = s.done := rfl
@[simp] theorem coded_err (t : CodeTable) : (coded t s).err = s.err := rfl
@[simp] theorem coded_overrun (t : CodeTable) : (coded t s).overrun = s.overrun := rfl
@[simp] theorem coded_treeValid (t : CodeTable) : (coded t s).treeValid = s.treeValid := rfl
@[simp] theorem coded_codesValid (t : CodeTable) : (coded t s).codesValid = true := rfl
@[simp] theorem coded_treeKind (t : CodeTable) : (coded t s).treeKind = s.treeKind := rfl
@[simp] theorem coded_cmd (t : CodeTable) : (coded t s).cmd = s.cmd := rfl
@[simp] theorem coded_srcAddr (t : CodeTable) : (coded t s).srcAddr = s.srcAddr := rfl
@[simp] theorem coded_srcLen (t : CodeTable) : (coded t s).srcLen = s.srcLen := rfl
@[simp] theorem coded_dstAddr (t : CodeTable) : (coded t s).dstAddr = s.dstAddr := rfl
@[simp] theorem coded_dstCap (t : CodeTable) : (coded t s).dstCap = s.dstCap := rfl
@[simp] theorem coded_outLen (t : CodeTable) : (coded t s).outLen = s.outLen := rfl
@[simp] theorem coded_dataBits (t : CodeTable) : (coded t s).dataBits = s.dataBits := rfl
@[simp] theorem coded_symCount (t : CodeTable) : (coded t s).symCount = s.symCount := rfl
@[simp] theorem coded_total (t : CodeTable) : (coded t s).total = s.total := rfl
@[simp] theorem coded_leaves (t : CodeTable) : (coded t s).leaves = s.leaves := rfl
@[simp] theorem coded_root (t : CodeTable) : (coded t s).root = s.root := rfl
@[simp] theorem coded_maxLen (t : CodeTable) : (coded t s).maxLen = maxCodeLen t := rfl
@[simp] theorem coded_errCode (t : CodeTable) : (coded t s).errCode = s.errCode := rfl
@[simp] theorem coded_errAddr (t : CodeTable) : (coded t s).errAddr = s.errAddr := rfl
@[simp] theorem coded_freq (t : CodeTable) : (coded t s).freq = s.freq := rfl
@[simp] theorem coded_codeLen (t : CodeTable) : (coded t s).codeLen = t.len := rfl
@[simp] theorem coded_codeVal (t : CodeTable) : (coded t s).codeVal = t.val := rfl
@[simp] theorem coded_node (t : CodeTable) : (coded t s).node = s.node := rfl
@[simp] theorem coded_buf (t : CodeTable) : (coded t s).buf = s.buf := rfl
@[simp] theorem coded_bufDraw (t : CodeTable) : (coded t s).bufDraw = s.bufDraw := rfl
@[simp] theorem coded_draws (t : CodeTable) : (coded t s).draws = s.draws := rfl
@[simp] theorem coded_pending (t : CodeTable) : (coded t s).pending = s.pending := rfl
@[simp] theorem coded_response (t : CodeTable) : (coded t s).response = s.response := rfl

@[simp] theorem encoded_cfg (p : List Byte) : (encoded p s).cfg = s.cfg := rfl
@[simp] theorem encoded_irqEn (p : List Byte) : (encoded p s).irqEn = s.irqEn := rfl
@[simp] theorem encoded_busy (p : List Byte) : (encoded p s).busy = s.busy := rfl
@[simp] theorem encoded_done (p : List Byte) : (encoded p s).done = s.done := rfl
@[simp] theorem encoded_err (p : List Byte) : (encoded p s).err = s.err := rfl
@[simp] theorem encoded_overrun (p : List Byte) : (encoded p s).overrun = s.overrun := rfl
@[simp] theorem encoded_treeValid (p : List Byte) : (encoded p s).treeValid = s.treeValid := rfl
@[simp] theorem encoded_codesValid (p : List Byte) : (encoded p s).codesValid = s.codesValid := rfl
@[simp] theorem encoded_treeKind (p : List Byte) : (encoded p s).treeKind = s.treeKind := rfl
@[simp] theorem encoded_cmd (p : List Byte) : (encoded p s).cmd = s.cmd := rfl
@[simp] theorem encoded_srcAddr (p : List Byte) : (encoded p s).srcAddr = s.srcAddr := rfl
@[simp] theorem encoded_srcLen (p : List Byte) : (encoded p s).srcLen = s.srcLen := rfl
@[simp] theorem encoded_dstAddr (p : List Byte) : (encoded p s).dstAddr = s.dstAddr := rfl
@[simp] theorem encoded_dstCap (p : List Byte) : (encoded p s).dstCap = s.dstCap := rfl
@[simp] theorem encoded_outLen (p : List Byte) : (encoded p s).outLen = BitVec.ofNat 32 p.length := rfl
@[simp] theorem encoded_dataBits (p : List Byte) : (encoded p s).dataBits = if s.srcCount = 0 then 0 else BitVec.ofNat 32 (dataBitsOf s s.source).length := rfl
@[simp] theorem encoded_symCount (p : List Byte) : (encoded p s).symCount = s.srcLen := rfl
@[simp] theorem encoded_total (p : List Byte) : (encoded p s).total = s.total := rfl
@[simp] theorem encoded_leaves (p : List Byte) : (encoded p s).leaves = s.leaves := rfl
@[simp] theorem encoded_root (p : List Byte) : (encoded p s).root = s.root := rfl
@[simp] theorem encoded_maxLen (p : List Byte) : (encoded p s).maxLen = s.maxLen := rfl
@[simp] theorem encoded_errCode (p : List Byte) : (encoded p s).errCode = s.errCode := rfl
@[simp] theorem encoded_errAddr (p : List Byte) : (encoded p s).errAddr = s.errAddr := rfl
@[simp] theorem encoded_freq (p : List Byte) : (encoded p s).freq = s.freq := rfl
@[simp] theorem encoded_codeLen (p : List Byte) : (encoded p s).codeLen = s.codeLen := rfl
@[simp] theorem encoded_codeVal (p : List Byte) : (encoded p s).codeVal = s.codeVal := rfl
@[simp] theorem encoded_node (p : List Byte) : (encoded p s).node = s.node := rfl
@[simp] theorem encoded_buf (p : List Byte) : (encoded p s).buf = Memory.storeAll s.buf s.dstStart p := rfl
@[simp] theorem encoded_bufDraw (p : List Byte) : (encoded p s).bufDraw = s.bufDraw := rfl
@[simp] theorem encoded_draws (p : List Byte) : (encoded p s).draws = s.draws := rfl
@[simp] theorem encoded_pending (p : List Byte) : (encoded p s).pending = s.pending := rfl
@[simp] theorem encoded_response (p : List Byte) : (encoded p s).response = s.response := rfl

@[simp] theorem decodedEmpty_cfg : (decodedEmpty s).cfg = s.cfg := rfl
@[simp] theorem decodedEmpty_irqEn : (decodedEmpty s).irqEn = s.irqEn := rfl
@[simp] theorem decodedEmpty_busy : (decodedEmpty s).busy = s.busy := rfl
@[simp] theorem decodedEmpty_done : (decodedEmpty s).done = s.done := rfl
@[simp] theorem decodedEmpty_err : (decodedEmpty s).err = s.err := rfl
@[simp] theorem decodedEmpty_overrun : (decodedEmpty s).overrun = s.overrun := rfl
@[simp] theorem decodedEmpty_treeValid : (decodedEmpty s).treeValid = true := rfl
@[simp] theorem decodedEmpty_codesValid : (decodedEmpty s).codesValid = false := rfl
@[simp] theorem decodedEmpty_treeKind : (decodedEmpty s).treeKind = .empty := rfl
@[simp] theorem decodedEmpty_cmd : (decodedEmpty s).cmd = s.cmd := rfl
@[simp] theorem decodedEmpty_srcAddr : (decodedEmpty s).srcAddr = s.srcAddr := rfl
@[simp] theorem decodedEmpty_srcLen : (decodedEmpty s).srcLen = s.srcLen := rfl
@[simp] theorem decodedEmpty_dstAddr : (decodedEmpty s).dstAddr = s.dstAddr := rfl
@[simp] theorem decodedEmpty_dstCap : (decodedEmpty s).dstCap = s.dstCap := rfl
@[simp] theorem decodedEmpty_outLen : (decodedEmpty s).outLen = 0 := rfl
@[simp] theorem decodedEmpty_dataBits : (decodedEmpty s).dataBits = 0 := rfl
@[simp] theorem decodedEmpty_symCount : (decodedEmpty s).symCount = 0 := rfl
@[simp] theorem decodedEmpty_total : (decodedEmpty s).total = s.total := rfl
@[simp] theorem decodedEmpty_leaves : (decodedEmpty s).leaves = 0 := rfl
@[simp] theorem decodedEmpty_root : (decodedEmpty s).root = 0 := rfl
@[simp] theorem decodedEmpty_maxLen : (decodedEmpty s).maxLen = s.maxLen := rfl
@[simp] theorem decodedEmpty_errCode : (decodedEmpty s).errCode = s.errCode := rfl
@[simp] theorem decodedEmpty_errAddr : (decodedEmpty s).errAddr = s.errAddr := rfl
@[simp] theorem decodedEmpty_freq : (decodedEmpty s).freq = s.freq := rfl
@[simp] theorem decodedEmpty_codeLen : (decodedEmpty s).codeLen = s.codeLen := rfl
@[simp] theorem decodedEmpty_codeVal : (decodedEmpty s).codeVal = s.codeVal := rfl
@[simp] theorem decodedEmpty_node : (decodedEmpty s).node = s.node := rfl
@[simp] theorem decodedEmpty_buf : (decodedEmpty s).buf = s.buf := rfl
@[simp] theorem decodedEmpty_bufDraw : (decodedEmpty s).bufDraw = s.bufDraw := rfl
@[simp] theorem decodedEmpty_draws : (decodedEmpty s).draws = s.draws := rfl
@[simp] theorem decodedEmpty_pending : (decodedEmpty s).pending = s.pending := rfl
@[simp] theorem decodedEmpty_response : (decodedEmpty s).response = s.response := rfl

@[simp] theorem decoded_cfg (n : Nat) (r : Decoded) : (decoded n r s).cfg = s.cfg := rfl
@[simp] theorem decoded_irqEn (n : Nat) (r : Decoded) : (decoded n r s).irqEn = s.irqEn := rfl
@[simp] theorem decoded_busy (n : Nat) (r : Decoded) : (decoded n r s).busy = s.busy := rfl
@[simp] theorem decoded_done (n : Nat) (r : Decoded) : (decoded n r s).done = s.done := rfl
@[simp] theorem decoded_err (n : Nat) (r : Decoded) : (decoded n r s).err = s.err := rfl
@[simp] theorem decoded_overrun (n : Nat) (r : Decoded) : (decoded n r s).overrun = s.overrun := rfl
@[simp] theorem decoded_treeValid (n : Nat) (r : Decoded) : (decoded n r s).treeValid = true := rfl
@[simp] theorem decoded_codesValid (n : Nat) (r : Decoded) : (decoded n r s).codesValid = false := rfl
@[simp] theorem decoded_treeKind (n : Nat) (r : Decoded) : (decoded n r s).treeKind = loadedKind r.tree.nodes := rfl
@[simp] theorem decoded_cmd (n : Nat) (r : Decoded) : (decoded n r s).cmd = s.cmd := rfl
@[simp] theorem decoded_srcAddr (n : Nat) (r : Decoded) : (decoded n r s).srcAddr = s.srcAddr := rfl
@[simp] theorem decoded_srcLen (n : Nat) (r : Decoded) : (decoded n r s).srcLen = s.srcLen := rfl
@[simp] theorem decoded_dstAddr (n : Nat) (r : Decoded) : (decoded n r s).dstAddr = s.dstAddr := rfl
@[simp] theorem decoded_dstCap (n : Nat) (r : Decoded) : (decoded n r s).dstCap = s.dstCap := rfl
@[simp] theorem decoded_outLen (n : Nat) (r : Decoded) : (decoded n r s).outLen = BitVec.ofNat 32 n := rfl
@[simp] theorem decoded_dataBits (n : Nat) (r : Decoded) : (decoded n r s).dataBits = BitVec.ofNat 32 r.bits := rfl
@[simp] theorem decoded_symCount (n : Nat) (r : Decoded) : (decoded n r s).symCount = BitVec.ofNat 32 n := rfl
@[simp] theorem decoded_total (n : Nat) (r : Decoded) : (decoded n r s).total = s.total := rfl
@[simp] theorem decoded_leaves (n : Nat) (r : Decoded) : (decoded n r s).leaves = BitVec.ofNat 9 r.tree.leaves := rfl
@[simp] theorem decoded_root (n : Nat) (r : Decoded) : (decoded n r s).root = 0 := rfl
@[simp] theorem decoded_maxLen (n : Nat) (r : Decoded) : (decoded n r s).maxLen = s.maxLen := rfl
@[simp] theorem decoded_errCode (n : Nat) (r : Decoded) : (decoded n r s).errCode = s.errCode := rfl
@[simp] theorem decoded_errAddr (n : Nat) (r : Decoded) : (decoded n r s).errAddr = s.errAddr := rfl
@[simp] theorem decoded_freq (n : Nat) (r : Decoded) : (decoded n r s).freq = s.freq := rfl
@[simp] theorem decoded_codeLen (n : Nat) (r : Decoded) : (decoded n r s).codeLen = s.codeLen := rfl
@[simp] theorem decoded_codeVal (n : Nat) (r : Decoded) : (decoded n r s).codeVal = s.codeVal := rfl
@[simp] theorem decoded_node (n : Nat) (r : Decoded) : (decoded n r s).node = r.tree.nodes := rfl
@[simp] theorem decoded_buf (n : Nat) (r : Decoded) : (decoded n r s).buf = Memory.storeAll s.buf s.dstStart r.symbols := rfl
@[simp] theorem decoded_bufDraw (n : Nat) (r : Decoded) : (decoded n r s).bufDraw = s.bufDraw := rfl
@[simp] theorem decoded_draws (n : Nat) (r : Decoded) : (decoded n r s).draws = s.draws := rfl
@[simp] theorem decoded_pending (n : Nat) (r : Decoded) : (decoded n r s).pending = s.pending := rfl
@[simp] theorem decoded_response (n : Nat) (r : Decoded) : (decoded n r s).response = s.response := rfl

@[simp] theorem writeStatus_cfg (w : Word) : (writeStatus w s).cfg = s.cfg := rfl
@[simp] theorem writeStatus_irqEn (w : Word) : (writeStatus w s).irqEn = s.irqEn := rfl
@[simp] theorem writeStatus_busy (w : Word) : (writeStatus w s).busy = s.busy := rfl
@[simp] theorem writeStatus_done (w : Word) : (writeStatus w s).done = (s.done && !w.getLsbD 1) := rfl
@[simp] theorem writeStatus_err (w : Word) : (writeStatus w s).err = (s.err && !w.getLsbD 2) := rfl
@[simp] theorem writeStatus_overrun (w : Word) : (writeStatus w s).overrun = (s.overrun && !w.getLsbD 3) := rfl
@[simp] theorem writeStatus_treeValid (w : Word) : (writeStatus w s).treeValid = s.treeValid := rfl
@[simp] theorem writeStatus_codesValid (w : Word) : (writeStatus w s).codesValid = s.codesValid := rfl
@[simp] theorem writeStatus_treeKind (w : Word) : (writeStatus w s).treeKind = s.treeKind := rfl
@[simp] theorem writeStatus_cmd (w : Word) : (writeStatus w s).cmd = s.cmd := rfl
@[simp] theorem writeStatus_srcAddr (w : Word) : (writeStatus w s).srcAddr = s.srcAddr := rfl
@[simp] theorem writeStatus_srcLen (w : Word) : (writeStatus w s).srcLen = s.srcLen := rfl
@[simp] theorem writeStatus_dstAddr (w : Word) : (writeStatus w s).dstAddr = s.dstAddr := rfl
@[simp] theorem writeStatus_dstCap (w : Word) : (writeStatus w s).dstCap = s.dstCap := rfl
@[simp] theorem writeStatus_outLen (w : Word) : (writeStatus w s).outLen = s.outLen := rfl
@[simp] theorem writeStatus_dataBits (w : Word) : (writeStatus w s).dataBits = s.dataBits := rfl
@[simp] theorem writeStatus_symCount (w : Word) : (writeStatus w s).symCount = s.symCount := rfl
@[simp] theorem writeStatus_total (w : Word) : (writeStatus w s).total = s.total := rfl
@[simp] theorem writeStatus_leaves (w : Word) : (writeStatus w s).leaves = s.leaves := rfl
@[simp] theorem writeStatus_root (w : Word) : (writeStatus w s).root = s.root := rfl
@[simp] theorem writeStatus_maxLen (w : Word) : (writeStatus w s).maxLen = s.maxLen := rfl
@[simp] theorem writeStatus_errCode (w : Word) : (writeStatus w s).errCode = s.errCode := rfl
@[simp] theorem writeStatus_errAddr (w : Word) : (writeStatus w s).errAddr = s.errAddr := rfl
@[simp] theorem writeStatus_freq (w : Word) : (writeStatus w s).freq = s.freq := rfl
@[simp] theorem writeStatus_codeLen (w : Word) : (writeStatus w s).codeLen = s.codeLen := rfl
@[simp] theorem writeStatus_codeVal (w : Word) : (writeStatus w s).codeVal = s.codeVal := rfl
@[simp] theorem writeStatus_node (w : Word) : (writeStatus w s).node = s.node := rfl
@[simp] theorem writeStatus_buf (w : Word) : (writeStatus w s).buf = s.buf := rfl
@[simp] theorem writeStatus_bufDraw (w : Word) : (writeStatus w s).bufDraw = s.bufDraw := rfl
@[simp] theorem writeStatus_draws (w : Word) : (writeStatus w s).draws = s.draws := rfl
@[simp] theorem writeStatus_pending (w : Word) : (writeStatus w s).pending = s.pending := rfl
@[simp] theorem writeStatus_response (w : Word) : (writeStatus w s).response = s.response := rfl

@[simp] theorem busError_cfg : (busError s).cfg = s.cfg := rfl
@[simp] theorem busError_irqEn : (busError s).irqEn = s.irqEn := rfl
@[simp] theorem busError_busy : (busError s).busy = s.busy := rfl
@[simp] theorem busError_done : (busError s).done = s.done := rfl
@[simp] theorem busError_err : (busError s).err = s.err := rfl
@[simp] theorem busError_overrun : (busError s).overrun = s.overrun := rfl
@[simp] theorem busError_treeValid : (busError s).treeValid = s.treeValid := rfl
@[simp] theorem busError_codesValid : (busError s).codesValid = s.codesValid := rfl
@[simp] theorem busError_treeKind : (busError s).treeKind = s.treeKind := rfl
@[simp] theorem busError_cmd : (busError s).cmd = s.cmd := rfl
@[simp] theorem busError_srcAddr : (busError s).srcAddr = s.srcAddr := rfl
@[simp] theorem busError_srcLen : (busError s).srcLen = s.srcLen := rfl
@[simp] theorem busError_dstAddr : (busError s).dstAddr = s.dstAddr := rfl
@[simp] theorem busError_dstCap : (busError s).dstCap = s.dstCap := rfl
@[simp] theorem busError_outLen : (busError s).outLen = s.outLen := rfl
@[simp] theorem busError_dataBits : (busError s).dataBits = s.dataBits := rfl
@[simp] theorem busError_symCount : (busError s).symCount = s.symCount := rfl
@[simp] theorem busError_total : (busError s).total = s.total := rfl
@[simp] theorem busError_leaves : (busError s).leaves = s.leaves := rfl
@[simp] theorem busError_root : (busError s).root = s.root := rfl
@[simp] theorem busError_maxLen : (busError s).maxLen = s.maxLen := rfl
@[simp] theorem busError_errCode : (busError s).errCode = s.errCode := rfl
@[simp] theorem busError_errAddr : (busError s).errAddr = s.errAddr := rfl
@[simp] theorem busError_freq : (busError s).freq = s.freq := rfl
@[simp] theorem busError_codeLen : (busError s).codeLen = s.codeLen := rfl
@[simp] theorem busError_codeVal : (busError s).codeVal = s.codeVal := rfl
@[simp] theorem busError_node : (busError s).node = s.node := rfl
@[simp] theorem busError_buf : (busError s).buf = s.buf := rfl
@[simp] theorem busError_bufDraw : (busError s).bufDraw = s.bufDraw := rfl
@[simp] theorem busError_draws : (busError s).draws = s.draws := rfl
@[simp] theorem busError_pending : (busError s).pending = s.pending := rfl
@[simp] theorem busError_response : (busError s).response = .error := rfl

@[simp] theorem busOkay_cfg : (busOkay s).cfg = s.cfg := rfl
@[simp] theorem busOkay_irqEn : (busOkay s).irqEn = s.irqEn := rfl
@[simp] theorem busOkay_busy : (busOkay s).busy = s.busy := rfl
@[simp] theorem busOkay_done : (busOkay s).done = s.done := rfl
@[simp] theorem busOkay_err : (busOkay s).err = s.err := rfl
@[simp] theorem busOkay_overrun : (busOkay s).overrun = s.overrun := rfl
@[simp] theorem busOkay_treeValid : (busOkay s).treeValid = s.treeValid := rfl
@[simp] theorem busOkay_codesValid : (busOkay s).codesValid = s.codesValid := rfl
@[simp] theorem busOkay_treeKind : (busOkay s).treeKind = s.treeKind := rfl
@[simp] theorem busOkay_cmd : (busOkay s).cmd = s.cmd := rfl
@[simp] theorem busOkay_srcAddr : (busOkay s).srcAddr = s.srcAddr := rfl
@[simp] theorem busOkay_srcLen : (busOkay s).srcLen = s.srcLen := rfl
@[simp] theorem busOkay_dstAddr : (busOkay s).dstAddr = s.dstAddr := rfl
@[simp] theorem busOkay_dstCap : (busOkay s).dstCap = s.dstCap := rfl
@[simp] theorem busOkay_outLen : (busOkay s).outLen = s.outLen := rfl
@[simp] theorem busOkay_dataBits : (busOkay s).dataBits = s.dataBits := rfl
@[simp] theorem busOkay_symCount : (busOkay s).symCount = s.symCount := rfl
@[simp] theorem busOkay_total : (busOkay s).total = s.total := rfl
@[simp] theorem busOkay_leaves : (busOkay s).leaves = s.leaves := rfl
@[simp] theorem busOkay_root : (busOkay s).root = s.root := rfl
@[simp] theorem busOkay_maxLen : (busOkay s).maxLen = s.maxLen := rfl
@[simp] theorem busOkay_errCode : (busOkay s).errCode = s.errCode := rfl
@[simp] theorem busOkay_errAddr : (busOkay s).errAddr = s.errAddr := rfl
@[simp] theorem busOkay_freq : (busOkay s).freq = s.freq := rfl
@[simp] theorem busOkay_codeLen : (busOkay s).codeLen = s.codeLen := rfl
@[simp] theorem busOkay_codeVal : (busOkay s).codeVal = s.codeVal := rfl
@[simp] theorem busOkay_node : (busOkay s).node = s.node := rfl
@[simp] theorem busOkay_buf : (busOkay s).buf = s.buf := rfl
@[simp] theorem busOkay_bufDraw : (busOkay s).bufDraw = s.bufDraw := rfl
@[simp] theorem busOkay_draws : (busOkay s).draws = s.draws := rfl
@[simp] theorem busOkay_pending : (busOkay s).pending = s.pending := rfl
@[simp] theorem busOkay_response : (busOkay s).response = .okay := rfl

@[simp] theorem busData_cfg (v : Word) : (busData v s).cfg = s.cfg := rfl
@[simp] theorem busData_irqEn (v : Word) : (busData v s).irqEn = s.irqEn := rfl
@[simp] theorem busData_busy (v : Word) : (busData v s).busy = s.busy := rfl
@[simp] theorem busData_done (v : Word) : (busData v s).done = s.done := rfl
@[simp] theorem busData_err (v : Word) : (busData v s).err = s.err := rfl
@[simp] theorem busData_overrun (v : Word) : (busData v s).overrun = s.overrun := rfl
@[simp] theorem busData_treeValid (v : Word) : (busData v s).treeValid = s.treeValid := rfl
@[simp] theorem busData_codesValid (v : Word) : (busData v s).codesValid = s.codesValid := rfl
@[simp] theorem busData_treeKind (v : Word) : (busData v s).treeKind = s.treeKind := rfl
@[simp] theorem busData_cmd (v : Word) : (busData v s).cmd = s.cmd := rfl
@[simp] theorem busData_srcAddr (v : Word) : (busData v s).srcAddr = s.srcAddr := rfl
@[simp] theorem busData_srcLen (v : Word) : (busData v s).srcLen = s.srcLen := rfl
@[simp] theorem busData_dstAddr (v : Word) : (busData v s).dstAddr = s.dstAddr := rfl
@[simp] theorem busData_dstCap (v : Word) : (busData v s).dstCap = s.dstCap := rfl
@[simp] theorem busData_outLen (v : Word) : (busData v s).outLen = s.outLen := rfl
@[simp] theorem busData_dataBits (v : Word) : (busData v s).dataBits = s.dataBits := rfl
@[simp] theorem busData_symCount (v : Word) : (busData v s).symCount = s.symCount := rfl
@[simp] theorem busData_total (v : Word) : (busData v s).total = s.total := rfl
@[simp] theorem busData_leaves (v : Word) : (busData v s).leaves = s.leaves := rfl
@[simp] theorem busData_root (v : Word) : (busData v s).root = s.root := rfl
@[simp] theorem busData_maxLen (v : Word) : (busData v s).maxLen = s.maxLen := rfl
@[simp] theorem busData_errCode (v : Word) : (busData v s).errCode = s.errCode := rfl
@[simp] theorem busData_errAddr (v : Word) : (busData v s).errAddr = s.errAddr := rfl
@[simp] theorem busData_freq (v : Word) : (busData v s).freq = s.freq := rfl
@[simp] theorem busData_codeLen (v : Word) : (busData v s).codeLen = s.codeLen := rfl
@[simp] theorem busData_codeVal (v : Word) : (busData v s).codeVal = s.codeVal := rfl
@[simp] theorem busData_node (v : Word) : (busData v s).node = s.node := rfl
@[simp] theorem busData_buf (v : Word) : (busData v s).buf = s.buf := rfl
@[simp] theorem busData_bufDraw (v : Word) : (busData v s).bufDraw = s.bufDraw := rfl
@[simp] theorem busData_draws (v : Word) : (busData v s).draws = s.draws := rfl
@[simp] theorem busData_pending (v : Word) : (busData v s).pending = s.pending := rfl
@[simp] theorem busData_response (v : Word) : (busData v s).response = .okayData v := rfl

@[simp] theorem resetRegisters_cfg : (resetRegisters s).cfg = s.cfg := rfl
@[simp] theorem resetRegisters_irqEn : (resetRegisters s).irqEn = State.reset.irqEn := rfl
@[simp] theorem resetRegisters_busy : (resetRegisters s).busy = State.reset.busy := rfl
@[simp] theorem resetRegisters_done : (resetRegisters s).done = State.reset.done := rfl
@[simp] theorem resetRegisters_err : (resetRegisters s).err = State.reset.err := rfl
@[simp] theorem resetRegisters_overrun : (resetRegisters s).overrun = State.reset.overrun := rfl
@[simp] theorem resetRegisters_treeValid : (resetRegisters s).treeValid = State.reset.treeValid := rfl
@[simp] theorem resetRegisters_codesValid : (resetRegisters s).codesValid = State.reset.codesValid := rfl
@[simp] theorem resetRegisters_treeKind : (resetRegisters s).treeKind = State.reset.treeKind := rfl
@[simp] theorem resetRegisters_cmd : (resetRegisters s).cmd = State.reset.cmd := rfl
@[simp] theorem resetRegisters_srcAddr : (resetRegisters s).srcAddr = State.reset.srcAddr := rfl
@[simp] theorem resetRegisters_srcLen : (resetRegisters s).srcLen = State.reset.srcLen := rfl
@[simp] theorem resetRegisters_dstAddr : (resetRegisters s).dstAddr = State.reset.dstAddr := rfl
@[simp] theorem resetRegisters_dstCap : (resetRegisters s).dstCap = State.reset.dstCap := rfl
@[simp] theorem resetRegisters_outLen : (resetRegisters s).outLen = State.reset.outLen := rfl
@[simp] theorem resetRegisters_dataBits : (resetRegisters s).dataBits = State.reset.dataBits := rfl
@[simp] theorem resetRegisters_symCount : (resetRegisters s).symCount = State.reset.symCount := rfl
@[simp] theorem resetRegisters_total : (resetRegisters s).total = State.reset.total := rfl
@[simp] theorem resetRegisters_leaves : (resetRegisters s).leaves = State.reset.leaves := rfl
@[simp] theorem resetRegisters_root : (resetRegisters s).root = State.reset.root := rfl
@[simp] theorem resetRegisters_maxLen : (resetRegisters s).maxLen = State.reset.maxLen := rfl
@[simp] theorem resetRegisters_errCode : (resetRegisters s).errCode = State.reset.errCode := rfl
@[simp] theorem resetRegisters_errAddr : (resetRegisters s).errAddr = State.reset.errAddr := rfl
@[simp] theorem resetRegisters_freq : (resetRegisters s).freq = State.reset.freq := rfl
@[simp] theorem resetRegisters_codeLen : (resetRegisters s).codeLen = State.reset.codeLen := rfl
@[simp] theorem resetRegisters_codeVal : (resetRegisters s).codeVal = State.reset.codeVal := rfl
@[simp] theorem resetRegisters_node : (resetRegisters s).node = State.reset.node := rfl
@[simp] theorem resetRegisters_buf : (resetRegisters s).buf = s.buf := rfl
@[simp] theorem resetRegisters_bufDraw : (resetRegisters s).bufDraw = s.bufDraw := rfl
@[simp] theorem resetRegisters_draws : (resetRegisters s).draws = s.draws := rfl
@[simp] theorem resetRegisters_pending : (resetRegisters s).pending = s.pending := rfl
@[simp] theorem resetRegisters_response : (resetRegisters s).response = s.response := rfl

end Sys2Proof.Machine
end

