-- ==== Sys2Proof/Laws/Memory.lean ====
section
/-! SUPPORT. BUF as data: reading back what was stored, and the canonical form that every operation
keeps. -/

namespace Sys2Proof.Machine

theorem find_store (m : Memory) (a : Nat) (v : Byte) (b : Nat) :
    Memory.find (Memory.store m a v) b = if b = a then some v else Memory.find m b := by
  induction m with
  | nil => simp [Memory.store, Memory.find]
  | cons c m ih =>
    obtain ⟨k, w⟩ := c
    by_cases h1 : a < k
    · simp [Memory.store, h1, Memory.find]
    · by_cases h2 : a = k
      · subst h2
        by_cases h3 : b = a <;> simp [Memory.store, Memory.find, h3]
      · simp only [Memory.store, h1, h2, if_false, Memory.find, ih]
        by_cases h3 : b = k
        · subst h3; simp [Ne.symm h2]
        · simp [h3]

theorem mem_store {m : Memory} {a : Nat} {v : Byte} {c : Host.Cell} (h : c ∈ Memory.store m a v) :
    c.1 = a ∨ c ∈ m := by
  induction m with
  | nil => simp_all [Memory.store]
  | cons d m ih =>
    obtain ⟨k, w⟩ := d
    simp only [Memory.store] at h
    split at h
    · rcases List.mem_cons.mp h with rfl | h
      · exact .inl rfl
      · exact .inr h
    · split at h
      · rcases List.mem_cons.mp h with rfl | h
        · exact .inl rfl
        · exact .inr (List.mem_cons_of_mem _ h)
      · rcases List.mem_cons.mp h with rfl | h
        · exact .inr List.mem_cons_self
        · exact (ih h).imp_right (List.mem_cons_of_mem _)

theorem wf_iff (m : Memory) : Memory.wf m = true ↔ m.Pairwise fun c d => c.1 < d.1 := by
  simp [Memory.wf]

/-- Storing a byte keeps the canonical form. -/
theorem store_wf {m : Memory} (h : Memory.wf m = true) (a : Nat) (v : Byte) :
    Memory.wf (Memory.store m a v) = true := by
  rw [wf_iff] at *
  induction m with
  | nil => simp [Memory.store]
  | cons d m ih =>
    obtain ⟨k, w⟩ := d
    have hk := (List.pairwise_cons.mp h).1
    have hm := (List.pairwise_cons.mp h).2
    simp only [Memory.store]
    split
    · next hlt =>
      refine List.pairwise_cons.mpr ⟨fun c hc => ?_, h⟩
      rcases List.mem_cons.mp hc with rfl | hc
      · exact hlt
      · exact lt_trans hlt (hk c hc)
    · split
      · next heq => subst heq; exact List.pairwise_cons.mpr ⟨hk, hm⟩
      · next hnlt hne =>
        refine List.pairwise_cons.mpr ⟨fun c hc => ?_, ih hm⟩
        rcases mem_store hc with h1 | h1
        · change k < c.1; omega
        · exact hk c h1

/-- Storing a run of bytes keeps the canonical form. -/
theorem storeAll_wf {m : Memory} (h : Memory.wf m = true) (a : Nat) (l : List Byte) :
    Memory.wf (Memory.storeAll m a l) = true := by
  induction l generalizing m a with
  | nil => exact h
  | cons v l ih => exact ih (store_wf h a v) (a + 1)

theorem mem_storeAll {m : Memory} {a : Nat} {l : List Byte} {c : Host.Cell}
    (h : c ∈ Memory.storeAll m a l) : (a ≤ c.1 ∧ c.1 < a + l.length) ∨ c ∈ m := by
  induction l generalizing m a with
  | nil => exact .inr h
  | cons v l ih =>
    rcases ih h with h | h
    · left; simp only [List.length_cons]; omega
    · rcases mem_store h with h | h
      · left; simp only [List.length_cons]; omega
      · exact .inr h

/-- Reading back a stored run: inside it the stored byte, outside it what was there. -/
theorem find_storeAll (m : Memory) (a : Nat) (l : List Byte) (b : Nat) :
    Memory.find (Memory.storeAll m a l) b
      = if a ≤ b ∧ b < a + l.length then l[b - a]? else Memory.find m b := by
  induction l generalizing m a with
  | nil => simp only [Memory.storeAll, List.length_nil]; rw [if_neg (by omega)]
  | cons v l ih =>
    simp only [Memory.storeAll, ih, find_store, List.length_cons]
    by_cases h1 : b = a
    · subst h1; simp
    · by_cases h2 : a + 1 ≤ b ∧ b < a + 1 + l.length
      · rw [if_pos h2, if_pos (by omega), show b - a = (b - (a + 1)) + 1 by omega]
        simp
      · rw [if_neg h2, if_neg h1, if_neg (by omega)]

theorem readByte_writeBytes_inside (s : State) (a : Nat) (l : List Byte) (i : Nat) (h : i < l.length) :
    (s.writeBytes a l).readByte (a + i) = l[i] := by
  simp [State.readByte, find_storeAll, h]

theorem readByte_writeBytes_outside (s : State) (a : Nat) (l : List Byte) (b : Nat)
    (h : b < a ∨ a + l.length ≤ b) : (s.writeBytes a l).readByte b = s.readByte b := by
  simp only [State.readByte, writeBytes_buf, writeBytes_bufDraw, find_storeAll]
  rw [if_neg (by omega)]

/-- What a read of BUF depends on. -/
theorem readByte_congr {s t : State} (h1 : s.buf = t.buf) (h2 : s.bufDraw = t.bufDraw) (a : Nat) :
    s.readByte a = t.readByte a := by simp [State.readByte, h1, h2]

@[simp] theorem length_readBytes (s : State) (a n : Nat) : (s.readBytes a n).length = n := by
  induction n generalizing a with
  | zero => rfl
  | succ n ih => simp [State.readBytes, ih]

theorem getElem_readBytes (s : State) (a n i : Nat) (h : i < n) :
    (s.readBytes a n)[i]'(by simpa using h) = s.readByte (a + i) := by
  induction n generalizing a i with
  | zero => omega
  | succ n ih =>
    cases i with
    | zero => simp [State.readBytes]
    | succ i => simp [State.readBytes, ih (a + 1) i (by omega)]; congr 1; omega

theorem getElem?_readBytes (s : State) (a n i : Nat) (h : i < n) :
    (s.readBytes a n)[i]? = some (s.readByte (a + i)) := by
  rw [List.getElem?_eq_getElem (by simpa using h), getElem_readBytes s a n i h]

theorem readBytes_congr (s t : State) (a n : Nat)
    (h : ∀ i, i < n → s.readByte (a + i) = t.readByte (a + i)) : s.readBytes a n = t.readBytes a n := by
  apply List.ext_getElem (by simp)
  intro i h1 h2
  rw [getElem_readBytes s a n i (by simpa using h1), getElem_readBytes t a n i (by simpa using h1)]
  exact h i (by simpa using h1)

/-- A stored run, read back whole. -/
theorem readBytes_writeBytes (s : State) (a : Nat) (l : List Byte) :
    (s.writeBytes a l).readBytes a l.length = l := by
  apply List.ext_getElem (by simp)
  intro i h1 h2
  rw [getElem_readBytes _ a _ i h2, readByte_writeBytes_inside s a l i h2]

@[simp] theorem length_freeBytes (k a n : Nat) : (freeBytes k a n).length = n := by
  induction n generalizing a with
  | zero => rfl
  | succ n ih => simp [freeBytes, ih]

/-- What a window that became `any` reads as: the draw's byte inside, what was there outside. -/
theorem readByte_anyBytes (k a n : Nat) (s : State) (b : Nat) :
    (anyBytes k a n s).readByte b
      = if a ≤ b ∧ b < a + n then Config.freeByte k b else s.readByte b := by
  have get : ∀ n a i, i < n → (freeBytes k a n)[i]? = some (Config.freeByte k (a + i)) := by
    intro n
    induction n with
    | zero => intro a i h; omega
    | succ n ih =>
      intro a i h
      cases i with
      | zero => simp [freeBytes]
      | succ i => simp [freeBytes, ih (a + 1) i (by omega)]; congr 1; omega
  simp only [State.readByte, anyBytes_buf, anyBytes_bufDraw, find_storeAll, length_freeBytes]
  by_cases h : a ≤ b ∧ b < a + n
  · rw [if_pos h, if_pos h, get n a (b - a) (by omega), show a + (b - a) = b by omega]; rfl
  · rw [if_neg h, if_neg h]

@[simp] theorem length_leBytes (n v : Nat) : (leBytes n v).length = n := by
  induction n generalizing v with
  | zero => rfl
  | succ n ih => simp [leBytes, ih]

/-- Reading little-endian what was written little-endian (R59). -/
theorem leNumber_leBytes (n v : Nat) : leNumber (leBytes n v) = v % 256 ^ n := by
  induction n generalizing v with
  | zero => simp [leBytes, leNumber, Nat.mod_one]
  | succ n ih =>
    rw [leBytes, leNumber, ih, BitVec.toNat_ofNat]
    rw [show 256 ^ (n + 1) = 2 ^ 8 * 256 ^ n by rw [pow_succ']; norm_num, Nat.mod_mul]
    norm_num

theorem leNumber_lt (l : List Byte) : leNumber l < 256 ^ l.length := by
  induction l with
  | nil => simp [leNumber]
  | cons b l ih =>
    have := b.isLt
    simp only [leNumber, List.length_cons, pow_succ]
    omega

/-- A little-endian number as a sum over its bytes (R59). -/
theorem leNumber_eq_sum (l : List Byte) :
    leNumber l = ((List.range l.length).map fun k => (l.getD k 0).toNat * 2 ^ (8 * k)).sum := by
  induction l with
  | nil => rfl
  | cons b l ih =>
    rw [leNumber, ih, List.length_cons, List.range_succ_eq_map, List.map_cons, List.sum_cons, List.map_map]
    simp only [List.getD_cons_zero, Nat.mul_zero, pow_zero, Nat.mul_one]
    congr 1
    rw [← List.sum_map_mul_left]
    congr 1
    apply List.map_congr_left
    intro k _
    simp only [Function.comp, List.getD_cons_succ, Nat.mul_succ, pow_add]
    ring

/-- The bytes of a little-endian number (R59). -/
theorem getElem_leBytes (n v k : Nat) (h : k < n) :
    (leBytes n v)[k]'(by simpa using h) = BitVec.ofNat 8 (v / 2 ^ (8 * k)) := by
  induction n generalizing v k with
  | zero => omega
  | succ n ih =>
    cases k with
    | zero => simp [leBytes]
    | succ k =>
      simp only [leBytes, List.getElem_cons_succ]
      rw [ih _ _ (by omega), Nat.div_div_eq_div_mul, Nat.mul_succ, pow_add, Nat.mul_comm]
      rfl

end Sys2Proof.Machine
end

