-- ==== Sys2Proof/Laws/Bits.lean ====
section
/-! SUPPORT. Bit-strings: numbers as bits and back, and the bits of a packed sequence (R61 to R63). -/

namespace Sys2Proof.Machine

@[simp] theorem length_msbBits (n v : Nat) : (msbBits n v).length = n := by
  induction n with
  | zero => rfl
  | succ n ih => simp [msbBits, ih]

theorem bitsNumber_append_fold (s : Bits) (v : Nat) :
    s.foldl (fun v b => 2 * v + b.toNat) v = v * 2 ^ s.length + bitsNumber s := by
  induction s generalizing v with
  | nil => simp [bitsNumber]
  | cons b s ih =>
    have h : bitsNumber (b :: s) = (2 * 0 + b.toNat) * 2 ^ s.length + bitsNumber s := ih (2 * 0 + b.toNat)
    rw [List.foldl_cons, ih, h, List.length_cons, pow_succ]
    ring

theorem bitsNumber_cons (b : Bool) (s : Bits) :
    bitsNumber (b :: s) = b.toNat * 2 ^ s.length + bitsNumber s := by
  rw [bitsNumber, List.foldl_cons, bitsNumber_append_fold]; simp

theorem bitsNumber_concat (s : Bits) (b : Bool) : bitsNumber (s ++ [b]) = 2 * bitsNumber s + b.toNat := by
  simp [bitsNumber, List.foldl_append]

theorem bitsNumber_lt (s : Bits) : bitsNumber s < 2 ^ s.length := by
  induction s with
  | nil => simp [bitsNumber]
  | cons b s ih =>
    rw [bitsNumber_cons, List.length_cons, pow_succ]
    cases b <;> simp <;> omega

theorem testBit_eq_div_mod (v k : Nat) : v.testBit k = decide (v / 2 ^ k % 2 = 1) := by
  simp [Nat.testBit, Nat.shiftRight_eq_div_pow, Nat.one_and_eq_mod_two]
  rcases Nat.mod_two_eq_zero_or_one (v / 2 ^ k) with h | h <;> simp [h]

theorem bitsNumber_msbBits (n v : Nat) : bitsNumber (msbBits n v) = v % 2 ^ n := by
  induction n with
  | zero => simp [msbBits, bitsNumber, Nat.mod_one]
  | succ n ih =>
    rw [msbBits, bitsNumber_cons, ih, length_msbBits, Nat.mod_pow_succ, testBit_eq_div_mod]
    rcases Nat.mod_two_eq_zero_or_one (v / 2 ^ n) with h | h <;> simp [h, add_comm]

theorem testBit_bitsNumber (s : Bits) (k : Nat) (h : k < s.length) :
    (bitsNumber s).testBit (s.length - 1 - k) = s[k] := by
  induction s generalizing k with
  | nil => simp at h
  | cons b s ih =>
    rw [bitsNumber_cons]
    have hlt := bitsNumber_lt s
    cases k with
    | zero =>
      simp only [List.length_cons, Nat.add_sub_cancel, Nat.sub_zero, List.getElem_cons_zero]
      rw [testBit_eq_div_mod]
      cases b <;> simp [Nat.div_eq_of_lt hlt]
    | succ k =>
      have hk : k < s.length := by simpa using h
      simp only [List.length_cons, List.getElem_cons_succ]
      rw [show s.length + 1 - 1 - (k + 1) = s.length - 1 - k by omega, ← ih k hk]
      rw [mul_comm]
      exact Nat.testBit_two_pow_mul_add _ hlt _ |>.trans (by rw [if_pos (by omega)])

theorem getElem_msbBits (n v k : Nat) (h : k < n) :
    (msbBits n v)[k]'(by simpa using h) = v.testBit (n - 1 - k) := by
  induction n generalizing k with
  | zero => omega
  | succ n ih =>
    cases k with
    | zero => simp [msbBits]
    | succ k => simp [msbBits, ih k (by omega)]; congr 1; omega

/-- A bit-string from its length and its number. -/
theorem msbBits_bitsNumber (s : Bits) : msbBits s.length (bitsNumber s) = s := by
  apply List.ext_getElem (by simp)
  intro k h1 h2
  rw [getElem_msbBits _ _ _ h2, testBit_bitsNumber s k h2]

@[simp] theorem length_pack (s : Bits) : (pack s).length = (s.length + 7) / 8 := by simp [pack]

theorem getLsbD_packedByte (s : Bits) (j b : Nat) (h : b < 8) :
    (packedByte s j).getLsbD (7 - b) = bitOr0 s (8 * j + b) := by
  have := testBit_bitsNumber ((List.range 8).map fun b => bitOr0 s (8 * j + b)) b (by simpa using h)
  simp only [List.length_map, List.length_range, List.getElem_map, List.getElem_range] at this
  rw [packedByte, BitVec.getLsbD_ofNat, ← this, decide_eq_true (by omega : 7 - b < 8), Bool.true_and]

/-- Bit `k` of the packed sequence is bit `k` of the string, 0 in the pad bits (R61, R62). -/
theorem getLsbD_pack (s : Bits) (k : Nat) (h : k < 8 * (pack s).length) :
    ((pack s)[k / 8]'(by omega)).getLsbD (7 - k % 8) = bitOr0 s k := by
  simp only [pack, List.getElem_map, List.getElem_range]
  rw [getLsbD_packedByte s (k / 8) (k % 8) (Nat.mod_lt _ (by norm_num)), Nat.div_add_mod]

/-- BitAt reads the string that was packed at `base`. -/
theorem bitAt_packed (s : State) (base : Nat) (b : Bits) (k : Nat) (hk : k < 8 * (pack b).length)
    (h : s.readByte (base + k / 8) = (pack b)[k / 8]'(by omega)) : s.bitAt base k = bitOr0 b k := by
  rw [State.bitAt, h, getLsbD_pack b k hk]

theorem bitOr0_of_lt (s : Bits) (k : Nat) (h : k < s.length) : bitOr0 s k = s[k] := by
  simp [bitOr0, List.getD_eq_getElem?_getD, h]

end Sys2Proof.Machine
end

