-- ==== Sys2Proof/Laws/Tree.lean ====
section
/-! SUPPORT. A coding tree as such: its depth, its serialization's length (R121), its paths and why no
path is a prefix of another (R118), and that NODE holds at most one tree at an index. -/

namespace Sys2Proof.Machine

/-! ## Size, depth, length -/

theorem CodeTree.symbols_ne_nil (t : CodeTree) : t.symbols ≠ [] := by
  induction t with
  | leaf s => simp [CodeTree.symbols]
  | node l r ihl _ => simp [CodeTree.symbols, ihl]

theorem CodeTree.one_le_symbols (t : CodeTree) : 1 ≤ t.symbols.length :=
  List.length_pos_of_ne_nil t.symbols_ne_nil

/-- "The depth of every leaf is at most L − 1" (R110). -/
theorem CodeTree.depth_lt_symbols (t : CodeTree) : t.depth < t.symbols.length := by
  induction t with
  | leaf s => simp [CodeTree.depth, CodeTree.symbols]
  | node l r ihl ihr =>
    have := l.one_le_symbols
    have := r.one_le_symbols
    simp only [CodeTree.depth, CodeTree.symbols, List.length_append]
    omega

/-- A tree with distinct symbols has at most 256 leaves (R7). -/
theorem nodup_symbols_le (l : List Symbol) (h : l.Nodup) : l.length ≤ 256 := by
  have := h.length_le_card
  simpa [Fintype.card_congr (BitVec.equivFin (m := 8)).toEquiv] using this

theorem CodeTree.depth_lt_maxPath (t : CodeTree) (h : t.symbols.Nodup) : t.depth < maxPath :=
  lt_of_lt_of_le t.depth_lt_symbols (nodup_symbols_le _ h)

/-- "A tree with L ≥ 1 leaves serializes to exactly … 10·L − 1 bits" (R121). -/
theorem CodeTree.length_bits (t : CodeTree) : t.bits.length + 1 = 10 * t.symbols.length := by
  induction t with
  | leaf s => simp [CodeTree.bits, CodeTree.symbols, leafBits]
  | node l r ihl ihr => simp only [CodeTree.bits, CodeTree.symbols, List.length_cons, List.length_append]; omega

theorem CodeTree.size_eq (t : CodeTree) : t.size + 1 = 2 * t.symbols.length := by
  induction t with
  | leaf s => simp [CodeTree.size, CodeTree.symbols]
  | node l r ihl ihr => simp only [CodeTree.size, CodeTree.symbols, List.length_append]; omega

theorem CodeTree.map_fst_paths (t : CodeTree) : t.paths.map Prod.fst = t.symbols := by
  induction t with
  | leaf s => rfl
  | node l r ihl ihr => simp [CodeTree.paths, CodeTree.symbols, ← ihl, ← ihr, Function.comp_def]

theorem CodeTree.length_path_le (t : CodeTree) (p : Symbol × Bits) (h : p ∈ t.paths) :
    p.2.length ≤ t.depth := by
  induction t generalizing p with
  | leaf s => simp_all [CodeTree.paths, CodeTree.depth]
  | node l r ihl ihr =>
    simp only [CodeTree.paths, List.mem_append, List.mem_map, CodeTree.depth] at *
    rcases h with ⟨q, hq, rfl⟩ | ⟨q, hq, rfl⟩
    · have := ihl q hq; simp; omega
    · have := ihr q hq; simp; omega

/-! ## Prefix-free paths -/

/-- "no leaf lies on the path to another leaf" (R118). -/
theorem CodeTree.paths_prefix_free (t : CodeTree) (p q : Symbol × Bits) (hp : p ∈ t.paths)
    (hq : q ∈ t.paths) (h : p.2 <+: q.2) : p = q := by
  induction t generalizing p q with
  | leaf s => simp_all [CodeTree.paths]
  | node l r ihl ihr =>
    simp only [CodeTree.paths, List.mem_append, List.mem_map] at hp hq
    rcases hp with ⟨p', hp', rfl⟩ | ⟨p', hp', rfl⟩ <;> rcases hq with ⟨q', hq', rfl⟩ | ⟨q', hq', rfl⟩
    · have := ihl p' q' hp' hq' (by simpa using h)
      rw [this]
    · simp at h
    · simp at h
    · have := ihr p' q' hp' hq' (by simpa using h)
      rw [this]

theorem CodeTree.nodup_paths (t : CodeTree) : t.paths.Nodup := by
  induction t with
  | leaf s => simp [CodeTree.paths]
  | node l r ihl ihr =>
    refine List.Nodup.append (ihl.map ?_) (ihr.map ?_) ?_
    · intro a b h; simpa [Prod.ext_iff] using h
    · intro a b h; simpa [Prod.ext_iff] using h
    · intro x hx hy
      simp only [List.mem_map] at hx hy
      obtain ⟨a, _, rfl⟩ := hx
      obtain ⟨b, _, hb⟩ := hy
      simp at hb

/-- The path of a symbol is one, where the symbols are distinct. -/
theorem CodeTree.path_unique (t : CodeTree) (h : t.symbols.Nodup) (p q : Symbol × Bits) (hp : p ∈ t.paths)
    (hq : q ∈ t.paths) (hx : p.1 = q.1) : p = q := by
  rw [← t.map_fst_paths] at h
  exact List.inj_on_of_nodup_map h hp hq hx

/-- The tree is full: Σ 2^(D − depth) over its leaves is 2^D (R117). -/
theorem CodeTree.kraft (t : CodeTree) (d : Nat) (h : t.depth ≤ d) :
    (t.paths.map fun p => 2 ^ (d - p.2.length)).sum = 2 ^ d := by
  induction t generalizing d with
  | leaf s => simp [CodeTree.paths]
  | node l r ihl ihr =>
    simp only [CodeTree.depth] at h
    obtain ⟨d, rfl⟩ : ∃ e, d = e + 1 := ⟨d - 1, by omega⟩
    simp only [CodeTree.paths, List.map_append, List.map_map, List.sum_append, Function.comp_def,
      List.length_cons, Nat.add_sub_add_right]
    rw [ihl d (by omega), ihr d (by omega), pow_succ]
    ring

/-! ## NODE holds a tree -/

theorem holds_leaf_iff (nodes : Nodes) (i : NodeIdx) (s : Symbol) :
    holds nodes i (.leaf s) = true ↔ ∃ n, nodeAt nodes i = some n ∧ n.isLeaf = true ∧ n.sym = s := by
  simp only [holds]
  cases nodeAt nodes i <;> simp

theorem holds_node_iff (nodes : Nodes) (i : NodeIdx) (l r : CodeTree) :
    holds nodes i (.node l r) = true ↔
      ∃ n, nodeAt nodes i = some n ∧ n.isLeaf = false ∧ holds nodes n.left l = true ∧
        holds nodes n.right r = true := by
  simp only [holds]
  cases nodeAt nodes i <;> simp [and_assoc]

theorem holds_unique (nodes : Nodes) (i : NodeIdx) (t u : CodeTree) (ht : holds nodes i t = true)
    (hu : holds nodes i u = true) : t = u := by
  induction t generalizing i u with
  | leaf s =>
    obtain ⟨n, hn, hl, hs⟩ := (holds_leaf_iff _ _ _).mp ht
    cases u with
    | leaf s' =>
      obtain ⟨n', hn', _, hs'⟩ := (holds_leaf_iff _ _ _).mp hu
      rw [hn] at hn'; cases hn'; rw [← hs, ← hs']
    | node l r =>
      obtain ⟨n', hn', hl', _⟩ := (holds_node_iff _ _ _ _).mp hu
      rw [hn] at hn'; cases hn'; simp [hl] at hl'
  | node l r ihl ihr =>
    obtain ⟨n, hn, hl, h1, h2⟩ := (holds_node_iff _ _ _ _).mp ht
    cases u with
    | leaf s' =>
      obtain ⟨n', hn', hl', _⟩ := (holds_leaf_iff _ _ _).mp hu
      rw [hn] at hn'; cases hn'; simp [hl] at hl'
    | node l' r' =>
      obtain ⟨n', hn', _, h1', h2'⟩ := (holds_node_iff _ _ _ _).mp hu
      rw [hn] at hn'; cases hn'; rw [ihl _ _ h1 h1', ihr _ _ h2 h2']

/-- Every index reached along a held tree holds a subtree, whose symbols are among the tree's. -/
theorem holds_of_reached (nodes : Nodes) (i j : NodeIdx) (t : CodeTree) (ht : holds nodes i t = true)
    (hj : j ∈ reached nodes i t) :
    ∃ u, holds nodes j u = true ∧ List.Sublist u.symbols t.symbols ∧ u.size ≤ t.size ∧ (j = i ∨ u.size < t.size) := by
  induction t generalizing i with
  | leaf s =>
    simp only [reached, List.mem_singleton] at hj
    subst hj
    exact ⟨_, ht, List.Sublist.refl _, le_rfl, .inl rfl⟩
  | node l r ihl ihr =>
    obtain ⟨n, hn, hl, h1, h2⟩ := (holds_node_iff _ _ _ _).mp ht
    simp only [reached, hn, List.mem_cons, List.mem_append] at hj
    rcases hj with rfl | hj | hj
    · exact ⟨_, ht, List.Sublist.refl _, le_rfl, .inl rfl⟩
    · obtain ⟨u, hu, hs, hz, _⟩ := ihl _ h1 hj
      exact ⟨u, hu, hs.trans (List.sublist_append_left _ _), by simp [CodeTree.size]; omega,
        .inr (by simp [CodeTree.size]; omega)⟩
    · obtain ⟨u, hu, hs, hz, _⟩ := ihr _ h2 hj
      exact ⟨u, hu, hs.trans (List.sublist_append_right _ _), by simp [CodeTree.size]; omega,
        .inr (by simp [CodeTree.size]; omega)⟩

/-- "Every node is reached by exactly one path" follows from distinct leaf symbols (R49.4). -/
theorem reached_nodup (nodes : Nodes) (i : NodeIdx) (t : CodeTree) (ht : holds nodes i t = true)
    (hs : t.symbols.Nodup) : (reached nodes i t).Nodup := by
  induction t generalizing i with
  | leaf s => simp [reached]
  | node l r ihl ihr =>
    obtain ⟨n, hn, hl, h1, h2⟩ := (holds_node_iff _ _ _ _).mp ht
    simp only [CodeTree.symbols, List.nodup_append] at hs
    simp only [reached, hn]
    refine List.nodup_cons.mpr ⟨fun hi => ?_, List.Nodup.append (ihl _ h1 hs.1) (ihr _ h2 hs.2.1) ?_⟩
    · rcases List.mem_append.mp hi with hi | hi
      · obtain ⟨u, hu, _, hz, _⟩ := holds_of_reached _ _ _ _ h1 hi
        have := congrArg CodeTree.size (holds_unique _ _ _ _ hu ht)
        simp [CodeTree.size] at this; omega
      · obtain ⟨u, hu, _, hz, _⟩ := holds_of_reached _ _ _ _ h2 hi
        have := congrArg CodeTree.size (holds_unique _ _ _ _ hu ht)
        simp [CodeTree.size] at this; omega
    · intro j hjl hjr
      obtain ⟨u, hu, hus, _, _⟩ := holds_of_reached _ _ _ _ h1 hjl
      obtain ⟨w, hw, hws, _, _⟩ := holds_of_reached _ _ _ _ h2 hjr
      obtain rfl := holds_unique _ _ _ _ hu hw
      obtain ⟨x, hx⟩ := List.exists_mem_of_ne_nil _ u.symbols_ne_nil
      exact hs.2.2 x (hus.subset hx) x (hws.subset hx) rfl

theorem length_reached (nodes : Nodes) (i : NodeIdx) (t : CodeTree) (ht : holds nodes i t = true) :
    (reached nodes i t).length = t.size := by
  induction t generalizing i with
  | leaf s => rfl
  | node l r ihl ihr =>
    obtain ⟨n, hm, _, h1, h2⟩ := (holds_node_iff _ _ _ _).mp ht
    simp only [reached, hm, List.length_cons, List.length_append, ihl _ h1, ihr _ h2, CodeTree.size]

end Sys2Proof.Machine
end

