-- ==== Sys2Proof/Laws/Codes.lean ====
section
/-! SUPPORT. Walks along a tree that NODE holds: Serialize gives the tree's bits (R120), Walk stores
each leaf's path (R112, R113), and what the table then holds (R115, R122, R44). -/

namespace Sys2Proof.Machine

/-! ## Tables at a symbol -/

theorem atSymbol_setSymbol {α : Type} (t : Vector α 256) (s x : Symbol) (v : α) :
    atSymbol (setSymbol t s v) x = if x = s then v else atSymbol t x := by
  simp only [atSymbol, setSymbol, Vector.getElem_set]
  by_cases h : x = s
  · simp [h]
  · rw [if_neg h, if_neg (fun hh => h (BitVec.eq_of_toNat_eq hh.symm))]

theorem atSymbol_replicate {α : Type} (v : α) (x : Symbol) :
    atSymbol (Vector.replicate 256 v) x = v := by simp [atSymbol]

theorem ext_atSymbol {α : Type} {t u : Vector α 256} (h : ∀ x, atSymbol t x = atSymbol u x) : t = u := by
  apply Vector.ext
  intro i hi
  have := h (BitVec.ofNat 8 i)
  simp only [atSymbol, BitVec.toNat_ofNat] at this
  have e : i % 2 ^ 8 = i := Nat.mod_eq_of_lt (by omega)
  simpa only [e] using this

theorem mem_alphabet (x : Symbol) : x ∈ alphabet := by
  simp only [alphabet, List.mem_map, List.mem_range]
  exact ⟨x.toNat, x.isLt, by simp⟩

theorem nodup_alphabet : alphabet.Nodup := by
  refine List.Nodup.map_on ?_ List.nodup_range
  intro a ha b hb h
  have := congrArg BitVec.toNat h
  simp only [BitVec.toNat_ofNat, List.mem_range] at *
  omega

/-- A sum over a table, entry by entry, as a sum over the alphabet. -/
theorem sum_toList {α : Type} (t : Vector α 256) (f : α → Nat) :
    (t.toList.map f).sum = (alphabet.map fun x => f (atSymbol t x)).sum := by
  congr 1
  apply List.ext_getElem
  · simp [alphabet]
  · intro i h1 h2
    simp only [List.length_map, Vector.length_toList] at h1
    simp [alphabet, atSymbol, Nat.mod_eq_of_lt h1]

/-! ## The code table of a list of codes -/

/-- The table that stores each symbol's code. -/
def tableOf (cs : List (Symbol × Bits)) (t : CodeTable) : CodeTable :=
  cs.foldl (fun t c => t.put c.1 c.2.length (bitsNumber c.2)) t

theorem tableOf_absent (cs : List (Symbol × Bits)) (t : CodeTable) (x : Symbol)
    (h : x ∉ cs.map Prod.fst) :
    atSymbol (tableOf cs t).len x = atSymbol t.len x ∧ atSymbol (tableOf cs t).val x = atSymbol t.val x := by
  induction cs generalizing t with
  | nil => exact ⟨rfl, rfl⟩
  | cons c cs ih =>
    simp only [List.map_cons, List.mem_cons, not_or] at h
    have := ih (t.put c.1 c.2.length (bitsNumber c.2)) h.2
    simpa [tableOf, CodeTable.put, atSymbol_setSymbol, h.1] using this

theorem tableOf_present (cs : List (Symbol × Bits)) (t : CodeTable) (hn : (cs.map Prod.fst).Nodup)
    (c : Symbol × Bits) (hc : c ∈ cs) :
    atSymbol (tableOf cs t).len c.1 = BitVec.ofNat 8 c.2.length ∧
      atSymbol (tableOf cs t).val c.1 = BitVec.ofNat 256 (bitsNumber c.2) := by
  induction cs generalizing t with
  | nil => simp at hc
  | cons d cs ih =>
    simp only [List.map_cons, List.nodup_cons] at hn
    rcases List.mem_cons.mp hc with rfl | hc
    · have := tableOf_absent cs (t.put c.1 c.2.length (bitsNumber c.2)) c.1 hn.1
      simpa [tableOf, CodeTable.put, atSymbol_setSymbol] using this
    · simpa [tableOf] using ih (t.put d.1 d.2.length (bitsNumber d.2)) hn.2 hc

/-! ## Walk and Serialize -/

/-- The paths of a subtree as codes, given the path to it. -/
def under (pre : Bits) (ps : List (Symbol × Bits)) : List (Symbol × Bits) := ps.map fun p => (p.1, pre ++ p.2)

/-- Walk over a held subtree stores the codes of its leaves (R112, R114). -/
theorem walk_holds (nodes : Nodes) (fuel : Nat) (i : NodeIdx) (pre : Bits) (tab : CodeTable) (t : CodeTree)
    (h : holds nodes i t = true) (hd : t.depth < fuel) :
    walk nodes fuel i pre.length (bitsNumber pre) tab = .ok (tableOf (under pre t.paths) tab) := by
  induction t generalizing fuel i pre tab with
  | leaf s =>
    obtain ⟨n, hn, hl, rfl⟩ := (holds_leaf_iff _ _ _).mp h
    obtain ⟨fuel, rfl⟩ : ∃ f, fuel = f + 1 := ⟨fuel - 1, by simp [CodeTree.depth] at hd; omega⟩
    simp [walk, hn, hl, CodeTree.paths, under, tableOf]
  | node l r ihl ihr =>
    obtain ⟨n, hn, hl, h1, h2⟩ := (holds_node_iff _ _ _ _).mp h
    simp only [CodeTree.depth] at hd
    obtain ⟨fuel, rfl⟩ : ∃ f, fuel = f + 1 := ⟨fuel - 1, by omega⟩
    have e0 : 2 * bitsNumber pre = bitsNumber (pre ++ [false]) := by simp [bitsNumber_concat]
    have e1 : bitsNumber (pre ++ [false]) + 1 = bitsNumber (pre ++ [true]) := by simp [bitsNumber_concat]
    have a0 := ihl fuel n.left (pre ++ [false]) tab h1 (by omega)
    have a1 := ihr fuel n.right (pre ++ [true]) (tableOf (under (pre ++ [false]) l.paths) tab) h2 (by omega)
    simp only [List.length_append, List.length_singleton] at a0 a1
    simp only [walk, hn, hl, Bool.false_eq_true, if_false, e0, a0, e1, a1]
    simp [under, CodeTree.paths, tableOf, List.foldl_append, List.foldl_map]

/-- Serialize over a held subtree gives its bits (R120). -/
theorem serialize_holds (nodes : Nodes) (fuel : Nat) (i : NodeIdx) (t : CodeTree)
    (h : holds nodes i t = true) (hd : t.depth < fuel) : serialize nodes fuel i = .ok t.bits := by
  induction t generalizing fuel i with
  | leaf s =>
    obtain ⟨n, hn, hl, rfl⟩ := (holds_leaf_iff _ _ _).mp h
    obtain ⟨fuel, rfl⟩ : ∃ f, fuel = f + 1 := ⟨fuel - 1, by simp [CodeTree.depth] at hd; omega⟩
    simp [serialize, hn, hl, CodeTree.bits]
  | node l r ihl ihr =>
    obtain ⟨n, hn, hl, h1, h2⟩ := (holds_node_iff _ _ _ _).mp h
    simp only [CodeTree.depth] at hd
    obtain ⟨fuel, rfl⟩ : ∃ f, fuel = f + 1 := ⟨fuel - 1, by omega⟩
    simp [serialize, hn, hl, CodeTree.bits, ihl fuel _ h1 (by omega), ihr fuel _ h2 (by omega)]

theorem CodeTree.map_fst_codes (t : CodeTree) : t.codes.map Prod.fst = t.symbols := by
  cases t with
  | leaf s => rfl
  | node l r => exact CodeTree.map_fst_paths _

theorem CodeTree.length_code_le (t : CodeTree) (ht : t.symbols.Nodup) (c : Symbol × Bits) (h : c ∈ t.codes) :
    c.2.length ≤ 255 := by
  cases t with
  | leaf s => simp_all [CodeTree.codes]
  | node l r =>
    have h1 := CodeTree.length_path_le _ c h
    have h2 := CodeTree.depth_lt_maxPath _ ht
    simp only [maxPath] at h2
    omega

theorem CodeTree.one_le_length_code (t : CodeTree) (c : Symbol × Bits) (h : c ∈ t.codes) :
    1 ≤ c.2.length := by
  cases t with
  | leaf s => simp_all [CodeTree.codes]
  | node l r =>
    simp only [CodeTree.codes, CodeTree.paths, List.mem_append, List.mem_map] at h
    rcases h with ⟨q, _, rfl⟩ | ⟨q, _, rfl⟩ <;> simp

/-- The table GENCODE derives holds each symbol's code (R112, R113, R114). -/
theorem codesOf_holds (nodes : Nodes) (root : NodeIdx) (t : CodeTree) (h : holds nodes root t = true)
    (ht : t.symbols.Nodup) : codesOf t.kind nodes root = .ok (tableOf t.codes CodeTable.zero) := by
  cases t with
  | leaf s =>
    obtain ⟨n, hn, hl, rfl⟩ := (holds_leaf_iff _ _ _).mp h
    simp [codesOf, CodeTree.kind, hn, CodeTree.codes, tableOf, bitsNumber]
  | node l r =>
    have := walk_holds nodes maxPath root [] CodeTable.zero _ h (CodeTree.depth_lt_maxPath _ ht)
    simp only [codesOf, CodeTree.kind, CodeTree.codes]
    have e : under [] (CodeTree.node l r).paths = (CodeTree.node l r).paths := by simp [under]
    rw [e] at this
    simpa [bitsNumber] using this

/-- `Code(s)` read back from a table of codes is the code (R122). -/
theorem code_of_tableOf (s : State) (t : CodeTree) (ht : t.symbols.Nodup) (tab : CodeTable)
    (hl : s.codeLen = (tableOf t.codes tab).len) (hv : s.codeVal = (tableOf t.codes tab).val)
    (c : Symbol × Bits) (hc : c ∈ t.codes) : code s c.1 = c.2 := by
  have hn : (t.codes.map Prod.fst).Nodup := by rw [CodeTree.map_fst_codes]; exact ht
  obtain ⟨h1, h2⟩ := tableOf_present t.codes tab hn c hc
  have hlen := CodeTree.length_code_le t ht c hc
  have hb := bitsNumber_lt c.2
  have hb' : bitsNumber c.2 < 2 ^ 256 :=
    lt_of_lt_of_le hb (Nat.pow_le_pow_right (by norm_num) (by omega))
  rw [code, hl, hv, h1, h2, BitVec.toNat_ofNat, BitVec.toNat_ofNat, Nat.mod_eq_of_lt hb',
    Nat.mod_eq_of_lt (by omega : c.2.length < 2 ^ 8), msbBits_bitsNumber]

/-! ## MAX_LEN -/

theorem foldl_max_spec (l : List (BitVec 8)) (m : Nat) :
    let r := l.foldl (fun m x => max m x.toNat) m
    m ≤ r ∧ (∀ x ∈ l, x.toNat ≤ r) ∧ (r = m ∨ ∃ x ∈ l, x.toNat = r) := by
  induction l generalizing m with
  | nil => simp
  | cons a l ih =>
    obtain ⟨h1, h2, h3⟩ := ih (max m a.toNat)
    refine ⟨le_trans (le_max_left _ _) h1, ?_, ?_⟩
    · intro x hx
      rcases List.mem_cons.mp hx with rfl | hx
      · exact le_trans (le_max_right _ _) h1
      · exact h2 x hx
    · rcases h3 with h3 | ⟨x, hx, h3⟩
      · simp only [List.foldl_cons, h3]
        rcases le_total m a.toNat with h | h
        · right; exact ⟨a, List.mem_cons_self, by simp [h]⟩
        · left; simp [h]
      · exact .inr ⟨x, List.mem_cons_of_mem _ hx, h3⟩

/-- MAX_LEN is "the greatest CODE_LEN[s] over all s" (R44). -/
theorem maxCodeLen_spec (t : CodeTable) :
    (∀ x, atSymbol t.len x ≤ maxCodeLen t) ∧ ∃ x, atSymbol t.len x = maxCodeLen t := by
  obtain ⟨_, h2, h3⟩ := foldl_max_spec t.len.toList 0
  set r := t.len.toList.foldl (fun m x => max m x.toNat) 0 with hr
  have mem : ∀ x, atSymbol t.len x ∈ t.len.toList := fun x => by simp [atSymbol]
  have hlt : r < 2 ^ 8 := by
    rcases h3 with h | ⟨x, _, h⟩
    · simp [h]
    · rw [← h]; exact x.isLt
  have e : (maxCodeLen t).toNat = r := by
    rw [maxCodeLen, BitVec.toNat_ofNat, Nat.mod_eq_of_lt (hr ▸ hlt)]
  refine ⟨fun x => ?_, ?_⟩
  · rw [BitVec.le_def, e]; exact h2 _ (mem x)
  · rcases h3 with h | ⟨v, hv, h⟩
    · refine ⟨0, BitVec.eq_of_toNat_eq ?_⟩
      have := h2 _ (mem 0)
      omega
    · obtain ⟨i, hi, rfl⟩ := List.getElem_of_mem hv
      simp only [Vector.length_toList] at hi
      refine ⟨BitVec.ofNat 8 i, BitVec.eq_of_toNat_eq ?_⟩
      rw [e, ← h]
      simp [atSymbol, Nat.mod_eq_of_lt hi]

end Sys2Proof.Machine
end

