-- ==== Sys2Proof/Laws/Counter.lean ====
section
/-! SUPPORT. What COUNT leaves in FREQ (R98, R100, R101): each entry its start plus the symbol's number
of occurrences, and the sum of the entries. -/

namespace Sys2Proof.Machine

theorem atSymbol_bump (f : Vector Word 256) (s x : Symbol) :
    atSymbol (bump f s) x = if x = s then atSymbol f x + 1 else atSymbol f x := by
  rw [bump, atSymbol_setSymbol]
  by_cases h : x = s
  · subst h; simp
  · simp [h]

/-- Each byte adds 1 to its own entry (R98, R100). -/
theorem atSymbol_countBytes (f : Vector Word 256) (bytes : List Byte) (x : Symbol) :
    atSymbol (countBytes f bytes) x = atSymbol f x + BitVec.ofNat 32 (bytes.count x) := by
  induction bytes generalizing f with
  | nil => simp [countBytes]
  | cons b bytes ih =>
    have e : countBytes f (b :: bytes) = countBytes (bump f b) bytes := rfl
    rw [e, ih, atSymbol_bump]
    by_cases h : x = b
    · subst h
      rw [if_pos rfl, List.count_cons_self]
      apply BitVec.eq_of_toNat_eq
      have h1 : (1 : Word).toNat = 1 := rfl
      simp only [BitVec.toNat_add, BitVec.toNat_ofNat, h1]
      omega
    · rw [if_neg h, List.count_cons_of_ne (Ne.symm h)]

theorem countBytes_append (f : Vector Word 256) (a b : List Byte) :
    countBytes f (a ++ b) = countBytes (countBytes f a) b := by simp [countBytes, List.foldl_append]

/-- FREQ depends only on the multiset of the bytes (R100). -/
theorem countBytes_perm (f : Vector Word 256) {a b : List Byte} (h : a.Perm b) :
    countBytes f a = countBytes f b :=
  ext_atSymbol fun x => by rw [atSymbol_countBytes, atSymbol_countBytes, h.count_eq]

theorem sum_indicator (y : Symbol) (k : Nat) (l : List Symbol) (hl : l.Nodup) :
    (l.map fun x => if x = y then k else 0).sum = if y ∈ l then k else 0 := by
  induction l with
  | nil => simp
  | cons a l ih =>
    rw [List.map_cons, List.sum_cons, ih (List.nodup_cons.mp hl).2]
    by_cases h : a = y
    · subst h
      rw [if_pos rfl, if_neg (List.nodup_cons.mp hl).1, if_pos List.mem_cons_self, Nat.add_zero]
    · rw [if_neg h, Nat.zero_add]
      exact if_congr (by simp [Ne.symm h]) rfl rfl

/-- A sum over the symbols, weighted by their occurrences, is a sum over the bytes (R132). -/
theorem sum_count_mul (f : Symbol → Nat) (bytes : List Byte) :
    (alphabet.map fun x => bytes.count x * f x).sum = (bytes.map f).sum := by
  induction bytes with
  | nil => simp
  | cons y ys ih =>
    rw [List.map_cons, List.sum_cons, ← ih]
    have e : (fun x => (y :: ys).count x * f x) = fun x => (if x = y then f y else 0) + ys.count x * f x := by
      funext x
      by_cases h : x = y
      · subst h; rw [if_pos rfl, List.count_cons_self, Nat.add_mul, Nat.one_mul, Nat.add_comm]
      · rw [if_neg h, List.count_cons_of_ne (Ne.symm h), Nat.zero_add]
    rw [e, List.sum_map_add, sum_indicator _ _ _ nodup_alphabet, if_pos (mem_alphabet y)]

/-- The numbers of occurrences of all symbols add up to the length (R98). -/
theorem sum_count (bytes : List Byte) : (alphabet.map fun x => bytes.count x).sum = bytes.length := by
  have h := sum_count_mul (fun _ => 1) bytes
  simpa only [Nat.mul_one, List.map_const', List.sum_replicate, smul_eq_mul] using h

/-- FREQ's sum. -/
def freqSum (f : Vector Word 256) : Nat := (f.toList.map BitVec.toNat).sum

theorem freqSum_eq (f : Vector Word 256) : freqSum f = (alphabet.map fun x => (atSymbol f x).toNat).sum :=
  sum_toList f BitVec.toNat

theorem freqSum_zero : freqSum (Vector.replicate 256 0) = 0 := by
  simp [freqSum_eq, atSymbol_replicate]

theorem le_freqSum (f : Vector Word 256) (x : Symbol) : (atSymbol f x).toNat ≤ freqSum f := by
  rw [freqSum_eq]
  exact List.le_sum_of_mem (List.mem_map.mpr ⟨x, mem_alphabet x, rfl⟩)

/-- No entry overflows where the sum does not (R97), and the sum grows by the number of bytes. -/
theorem countBytes_sum (f : Vector Word 256) (bytes : List Byte) (h : freqSum f + bytes.length < 2 ^ 32) :
    (∀ x, (atSymbol (countBytes f bytes) x).toNat = (atSymbol f x).toNat + bytes.count x) ∧
      freqSum (countBytes f bytes) = freqSum f + bytes.length := by
  have h1 : ∀ x, (atSymbol (countBytes f bytes) x).toNat = (atSymbol f x).toNat + bytes.count x := by
    intro x
    have a := le_freqSum f x
    have b : bytes.count x ≤ bytes.length := List.count_le_length
    rw [atSymbol_countBytes, BitVec.toNat_add, BitVec.toNat_ofNat, Nat.add_mod_mod, Nat.mod_eq_of_lt]
    omega
  refine ⟨h1, ?_⟩
  rw [freqSum_eq, freqSum_eq, ← sum_count bytes, ← List.sum_map_add]
  simp only [h1]

end Sys2Proof.Machine
end

