-- ==== Sys2Proof/Laws/Walk.lean ====
section
/-! SUPPORT. WalkData along a tree that NODE holds at index 0 (R139): a code that is there in full is
read as its symbol, a code that is cut off raises DEC_TRUNC, and nothing else happens but DEC_CODE
in a SINGLE tree. -/

namespace Sys2Proof.Machine

/-- The bits that `rd` gives from `q` on begin with `b`, as far as bit `limit`. -/
def agrees (rd : Nat → Bool) (q limit : Nat) (b : Bits) : Prop :=
  ∀ k (h : k < b.length), q + k < limit → rd (q + k) = b[k]

theorem agrees_append_left {rd : Nat → Bool} {q limit : Nat} {a b : Bits} (h : agrees rd q limit (a ++ b)) :
    agrees rd q limit a := by
  intro k hk hl
  rw [h k (by simp; omega) hl, List.getElem_append_left hk]

theorem agrees_append_right {rd : Nat → Bool} {q limit : Nat} {a b : Bits} (h : agrees rd q limit (a ++ b)) :
    agrees rd (q + a.length) limit b := by
  intro k hk hl
  have := h (a.length + k) (by simp; omega) (by omega)
  rw [show q + a.length + k = q + (a.length + k) by omega, this, List.getElem_append_right (by omega)]
  simp

theorem agrees_tail {rd : Nat → Bool} {q limit : Nat} {x : Bool} {b : Bits} (h : agrees rd q limit (x :: b)) :
    agrees rd (q + 1) limit b := agrees_append_right (a := [x]) h

theorem agrees_head {rd : Nat → Bool} {q limit : Nat} {x : Bool} {b : Bits} (h : agrees rd q limit (x :: b))
    (hl : q < limit) : rd q = x := h 0 (by simp) hl

/-! ## One code of a MULTI tree -/

theorem descend_path (rd : Nat → Bool) (stop : Nat) (nodes : Nodes) (left q : Nat) (i : NodeIdx)
    (t : CodeTree) (h : holds nodes i t = true) (p : Symbol × Bits) (hp : p ∈ t.paths)
    (hl : p.2.length ≤ left) (ha : agrees rd q (q + left) p.2) :
    descend rd stop nodes left q i = .ok (p.1, q + p.2.length) := by
  induction t generalizing left q i p with
  | leaf s =>
    obtain ⟨n, hn, hlf, rfl⟩ := (holds_leaf_iff _ _ _).mp h
    simp only [CodeTree.paths, List.mem_singleton] at hp
    subst hp
    cases left <;> simp [descend, hn, hlf]
  | node l r ihl ihr =>
    obtain ⟨n, hn, hlf, h1, h2⟩ := (holds_node_iff _ _ _ _).mp h
    simp only [CodeTree.paths, List.mem_append, List.mem_map] at hp
    rcases hp with ⟨p', hp', rfl⟩ | ⟨p', hp', rfl⟩
    · simp only [List.length_cons] at hl
      obtain ⟨left, rfl⟩ : ∃ m, left = m + 1 := ⟨left - 1, by omega⟩
      have hb := agrees_head ha (by omega)
      have ht := agrees_tail ha
      rw [show q + (left + 1) = q + 1 + left by omega] at ht
      have := ihl left (q + 1) n.left h1 p' hp' (by omega) ht
      simp only [descend, hn, hlf, Bool.false_eq_true, if_false, hb, this, List.length_cons]
      congr 2; omega
    · simp only [List.length_cons] at hl
      obtain ⟨left, rfl⟩ : ∃ m, left = m + 1 := ⟨left - 1, by omega⟩
      have hb := agrees_head ha (by omega)
      have ht := agrees_tail ha
      rw [show q + (left + 1) = q + 1 + left by omega] at ht
      have := ihr left (q + 1) n.right h2 p' hp' (by omega) ht
      simp only [descend, hn, hlf, Bool.false_eq_true, if_false, hb, if_true, this, List.length_cons]
      congr 2; omega

theorem descend_short (rd : Nat → Bool) (stop : Nat) (nodes : Nodes) (left q : Nat) (i : NodeIdx)
    (t : CodeTree) (h : holds nodes i t = true) (p : Symbol × Bits) (hp : p ∈ t.paths)
    (hl : left < p.2.length) (ha : agrees rd q (q + left) p.2) :
    descend rd stop nodes left q i = .raise ⟨.decTrunc, stop⟩ := by
  induction t generalizing left q i p with
  | leaf s =>
    simp only [CodeTree.paths, List.mem_singleton] at hp
    subst hp
    simp at hl
  | node l r ihl ihr =>
    obtain ⟨n, hn, hlf, h1, h2⟩ := (holds_node_iff _ _ _ _).mp h
    cases left with
    | zero => simp [descend, hn, hlf]
    | succ left =>
      simp only [CodeTree.paths, List.mem_append, List.mem_map] at hp
      rcases hp with ⟨p', hp', rfl⟩ | ⟨p', hp', rfl⟩
      · have hb := agrees_head ha (by omega)
        have ht := agrees_tail ha
        rw [show q + (left + 1) = q + 1 + left by omega] at ht
        have := ihl left (q + 1) n.left h1 p' hp' (by simpa using hl) ht
        simp [descend, hn, hlf, hb, this]
      · have hb := agrees_head ha (by omega)
        have ht := agrees_tail ha
        rw [show q + (left + 1) = q + 1 + left by omega] at ht
        have := ihr left (q + 1) n.right h2 p' hp' (by simpa using hl) ht
        simp [descend, hn, hlf, hb, this]

/-- "In a MULTI tree every bit sequence leads to a leaf" (R139), if the bits suffice. -/
theorem descend_total (rd : Nat → Bool) (stop : Nat) (nodes : Nodes) (left q : Nat) (i : NodeIdx)
    (t : CodeTree) (h : holds nodes i t = true) :
    (∃ p ∈ t.paths, p.2.length ≤ left ∧ agrees rd q (q + left) p.2 ∧
        descend rd stop nodes left q i = .ok (p.1, q + p.2.length)) ∨
      descend rd stop nodes left q i = .raise ⟨.decTrunc, stop⟩ := by
  induction t generalizing left q i with
  | leaf s =>
    left
    refine ⟨(s, []), by simp [CodeTree.paths], by simp, fun k hk => by simp at hk, ?_⟩
    exact descend_path rd stop nodes left q i _ h (s, []) (by simp [CodeTree.paths]) (by simp)
      (fun k hk => by simp at hk)
  | node l r ihl ihr =>
    obtain ⟨n, hn, hlf, h1, h2⟩ := (holds_node_iff _ _ _ _).mp h
    cases left with
    | zero => right; simp [descend, hn, hlf]
    | succ left =>
      have step : ∀ (b : Bool) (p : Bits), rd q = b → agrees rd (q + 1) (q + 1 + left) p →
          agrees rd q (q + (left + 1)) (b :: p) := by
        intro b p hb hp k hk hl
        cases k with
        | zero => simpa using hb
        | succ k =>
          have := hp k (by simpa using hk) (by omega)
          simpa [show q + (k + 1) = q + 1 + k by omega] using this
      by_cases hb : rd q = true
      · rcases ihr left (q + 1) n.right h2 with ⟨p, hp, hl, ha, hd⟩ | hd
        · left
          refine ⟨(p.1, true :: p.2), ?_, by simpa using hl, step _ _ hb ha, ?_⟩
          · simp only [CodeTree.paths, List.mem_append, List.mem_map]; exact .inr ⟨p, hp, rfl⟩
          · simp only [descend, hn, hlf, Bool.false_eq_true, if_false, hb, if_true, hd, List.length_cons]
            congr 2; omega
        · right; simp [descend, hn, hlf, hb, hd]
      · have hb' : rd q = false := by simpa using hb
        rcases ihl left (q + 1) n.left h1 with ⟨p, hp, hl, ha, hd⟩ | hd
        · left
          refine ⟨(p.1, false :: p.2), ?_, by simpa using hl, step _ _ hb' ha, ?_⟩
          · simp only [CodeTree.paths, List.mem_append, List.mem_map]; exact .inl ⟨p, hp, rfl⟩
          · simp only [descend, hn, hlf, Bool.false_eq_true, if_false, hb', hd, List.length_cons]
            congr 2; omega
        · right; simp [descend, hn, hlf, hb', hd]

/-! ## One symbol, by the tree's kind -/

theorem nodeAt_zero (nodes : Nodes) : nodeAt nodes 0 = some (nodes[0]'(by decide)) := by
  simp [nodeAt]

/-- LoadTree's kind is the kind of the tree at NODE[0] (R136). -/
theorem loadedKind_holds (nodes : Nodes) (t : CodeTree) (h : holds nodes 0 t = true) :
    loadedKind nodes = t.kind := by
  cases t with
  | leaf s =>
    obtain ⟨n, hn, hl, _⟩ := (holds_leaf_iff _ _ _).mp h
    rw [nodeAt_zero] at hn; cases hn
    simp [loadedKind, hl, CodeTree.kind]
  | node l r =>
    obtain ⟨n, hn, hl, _⟩ := (holds_node_iff _ _ _ _).mp h
    rw [nodeAt_zero] at hn; cases hn
    simp [loadedKind, hl, CodeTree.kind]

theorem nextSymbol_code (rd : Nat → Bool) (db limit stop : Nat) (nodes : Nodes) (t : CodeTree)
    (h : holds nodes 0 t = true) (q : Nat) (c : Symbol × Bits) (hc : c ∈ t.codes)
    (hl : q + c.2.length ≤ limit) (ha : agrees rd q limit c.2) :
    nextSymbol rd db limit stop t.kind nodes q = .ok (c.1, q + c.2.length) := by
  cases t with
  | leaf s =>
    obtain ⟨n, hn, _, rfl⟩ := (holds_leaf_iff _ _ _).mp h
    rw [nodeAt_zero] at hn; cases hn
    simp only [CodeTree.codes, List.mem_singleton] at hc
    subst hc
    simp only [List.length_singleton] at hl
    have hb := agrees_head ha (by omega)
    simp only [nextSymbol, CodeTree.kind, singleSymbol, hb, Bool.false_eq_true, if_false]
    rw [if_neg (by omega)]; rfl
  | node l r =>
    have := descend_path rd stop nodes (limit - q) q 0 _ h c hc (by omega)
      (by rw [show q + (limit - q) = limit by omega]; exact ha)
    simpa [nextSymbol, CodeTree.kind] using this

theorem nextSymbol_short (rd : Nat → Bool) (db limit stop : Nat) (nodes : Nodes) (t : CodeTree)
    (h : holds nodes 0 t = true) (q : Nat) (c : Symbol × Bits) (hc : c ∈ t.codes) (hq : q ≤ limit)
    (hl : limit < q + c.2.length) (ha : agrees rd q limit c.2) :
    nextSymbol rd db limit stop t.kind nodes q = .raise ⟨.decTrunc, stop⟩ := by
  cases t with
  | leaf s =>
    simp only [CodeTree.codes, List.mem_singleton] at hc
    subst hc
    simp only [List.length_singleton] at hl
    simp only [nextSymbol, CodeTree.kind, singleSymbol]
    rw [if_pos (by omega)]
  | node l r =>
    have := descend_short rd stop nodes (limit - q) q 0 _ h c hc (by omega)
      (by rw [show q + (limit - q) = limit by omega]; exact ha)
    simpa [nextSymbol, CodeTree.kind] using this

theorem nextSymbol_total (rd : Nat → Bool) (db limit stop : Nat) (nodes : Nodes) (t : CodeTree)
    (h : holds nodes 0 t = true) (q : Nat) (hq : q ≤ limit) :
    (∃ c ∈ t.codes, q + c.2.length ≤ limit ∧ agrees rd q limit c.2 ∧
        nextSymbol rd db limit stop t.kind nodes q = .ok (c.1, q + c.2.length)) ∨
      nextSymbol rd db limit stop t.kind nodes q = .raise ⟨.decTrunc, stop⟩ ∨
      (t.kind = .single ∧ q < limit ∧ rd q = true ∧
        nextSymbol rd db limit stop t.kind nodes q = .raise ⟨.decCode, db + q / 8⟩) := by
  cases t with
  | leaf s =>
    by_cases hl : limit ≤ q
    · right; left; simp [nextSymbol, CodeTree.kind, singleSymbol, hl]
    · by_cases hb : rd q = true
      · right; right
        exact ⟨rfl, by omega, hb, by simp [nextSymbol, CodeTree.kind, singleSymbol, hl, hb]⟩
      · left
        have ha : agrees rd q limit [false] := by
          intro k hk _
          obtain rfl : k = 0 := by simpa using hk
          simpa using hb
        exact ⟨(s, [false]), by simp [CodeTree.codes], by simp; omega, ha,
          nextSymbol_code rd db limit stop nodes _ h q (s, [false]) (by simp [CodeTree.codes])
            (by simp; omega) ha⟩
  | node l r =>
    rcases descend_total rd stop nodes (limit - q) q 0 _ h with ⟨c, hc, hl, ha, hd⟩ | hd
    · rw [show q + (limit - q) = limit by omega] at ha
      exact .inl ⟨c, hc, by omega, ha, by simpa [nextSymbol, CodeTree.kind] using hd⟩
    · exact .inr (.inl (by simpa [nextSymbol, CodeTree.kind] using hd))

/-! ## The whole data section -/

theorem walkData_codes (rd : Nat → Bool) (db limit stop : Nat) (nodes : Nodes) (t : CodeTree)
    (h : holds nodes 0 t = true) (cs : List (Symbol × Bits)) (hc : ∀ c ∈ cs, c ∈ t.codes) (q : Nat)
    (hl : q + (codeBits cs).length ≤ limit) (ha : agrees rd q limit (codeBits cs)) :
    walkData rd db limit stop t.kind nodes cs.length q
      = .ok (cs.map Prod.fst, q + (codeBits cs).length) := by
  induction cs generalizing q with
  | nil => simp [walkData, codeBits]
  | cons c cs ih =>
    have e : codeBits (c :: cs) = c.2 ++ codeBits cs := by simp [codeBits]
    rw [e] at ha hl
    simp only [List.length_append] at hl
    have h1 := nextSymbol_code rd db limit stop nodes t h q c (hc c List.mem_cons_self) (by omega)
      (agrees_append_left ha)
    have h2 := ih (fun d hd => hc d (List.mem_cons_of_mem _ hd)) (q + c.2.length) (by omega)
      (agrees_append_right ha)
    simp [walkData, h1, h2, e, Nat.add_assoc]

theorem walkData_short (rd : Nat → Bool) (db limit stop : Nat) (nodes : Nodes) (t : CodeTree)
    (h : holds nodes 0 t = true) (cs : List (Symbol × Bits)) (hc : ∀ c ∈ cs, c ∈ t.codes) (q : Nat)
    (hq : q ≤ limit) (hl : limit < q + (codeBits cs).length) (ha : agrees rd q limit (codeBits cs)) :
    walkData rd db limit stop t.kind nodes cs.length q = .raise ⟨.decTrunc, stop⟩ := by
  induction cs generalizing q with
  | nil => simp [codeBits] at hl; omega
  | cons c cs ih =>
    have e : codeBits (c :: cs) = c.2 ++ codeBits cs := by simp [codeBits]
    rw [e] at ha hl
    simp only [List.length_append] at hl
    by_cases hf : q + c.2.length ≤ limit
    · have h1 := nextSymbol_code rd db limit stop nodes t h q c (hc c List.mem_cons_self) hf
        (agrees_append_left ha)
      have h2 := ih (fun d hd => hc d (List.mem_cons_of_mem _ hd)) (q + c.2.length) hf (by omega)
        (agrees_append_right ha)
      simp [walkData, h1, h2]
    · have h1 := nextSymbol_short rd db limit stop nodes t h q c (hc c List.mem_cons_self) hq (by omega)
        (agrees_append_left ha)
      simp [walkData, h1]

/-- Everything WalkData can do: emit `n` symbols, each by its code, or raise DEC_TRUNC, or DEC_CODE in
a SINGLE tree. It never faults. -/
theorem walkData_total (rd : Nat → Bool) (db limit stop : Nat) (nodes : Nodes) (t : CodeTree)
    (h : holds nodes 0 t = true) (n q : Nat) (hq : q ≤ limit) :
    (∃ cs : List (Symbol × Bits), cs.length = n ∧ (∀ c ∈ cs, c ∈ t.codes) ∧
        q + (codeBits cs).length ≤ limit ∧ agrees rd q limit (codeBits cs) ∧
        walkData rd db limit stop t.kind nodes n q = .ok (cs.map Prod.fst, q + (codeBits cs).length)) ∨
      walkData rd db limit stop t.kind nodes n q = .raise ⟨.decTrunc, stop⟩ ∨
      (t.kind = .single ∧ ∃ k, q ≤ k ∧ k < limit ∧ rd k = true ∧
        walkData rd db limit stop t.kind nodes n q = .raise ⟨.decCode, db + k / 8⟩) := by
  induction n generalizing q with
  | zero =>
    left
    exact ⟨[], rfl, by simp, by simpa [codeBits] using hq, fun k hk => by simp [codeBits] at hk,
      by simp [walkData, codeBits]⟩
  | succ n ih =>
    rcases nextSymbol_total rd db limit stop nodes t h q hq with ⟨c, hc, hl, ha, hs⟩ | hs | ⟨hk, hl, hb, hs⟩
    · rcases ih (q + c.2.length) hl with ⟨cs, hn, hcs, hl', ha', hw⟩ | hw | ⟨hk, k, hk1, hk2, hk3, hw⟩
      · left
        have e : codeBits (c :: cs) = c.2 ++ codeBits cs := by simp [codeBits]
        refine ⟨c :: cs, by simp [hn], ?_, by rw [e]; simp; omega, ?_, ?_⟩
        · intro d hd
          rcases List.mem_cons.mp hd with rfl | hd
          · exact hc
          · exact hcs d hd
        · rw [e]
          intro k hk hkl
          by_cases hlt : k < c.2.length
          · rw [ha k hlt hkl, List.getElem_append_left hlt]
          · have := ha' (k - c.2.length) (by simp at hk; omega) (by omega)
            rw [show q + c.2.length + (k - c.2.length) = q + k by omega] at this
            rw [this, List.getElem_append_right (by omega)]
        · simp [walkData, hs, hw, e, Nat.add_assoc]
      · right; left; simp [walkData, hs, hw]
      · right; right; exact ⟨hk, k, by omega, hk2, hk3, by simp [walkData, hs, hw]⟩
    · right; left; simp [walkData, hs]
    · right; right; exact ⟨hk, q, le_rfl, hl, hb, by simp [walkData, hs]⟩

end Sys2Proof.Machine
end

