-- ==== Sys2Proof/Laws/Parse.lean ====
section
/-! SUPPORT. LoadTree (R136): a tree section that is there in full is loaded as its tree, one that is
cut off raises DEC_TRUNC, and everything a parse can do. -/

namespace Sys2Proof.Machine

/-! ## Where the nodes go -/

theorem getElem?_setNode (nodes : Nodes) (i j : Nat) (n : Node) (hi : i < 511) :
    (setNode nodes i n)[j]? = if i = j then some n else nodes[j]? := by
  simp only [setNode, Vector.getElem?_setIfInBounds]
  by_cases h : i = j
  · subst h; simp [hi]
  · simp [h]

theorem CodeTree.one_le_size (t : CodeTree) : 1 ≤ t.size := by cases t <;> simp [CodeTree.size]

theorem getElem?_placeTree_outside (nodes : Nodes) (i : Nat) (t : CodeTree) (hi : i + t.size ≤ 511) (j : Nat)
    (hj : j < i ∨ i + t.size ≤ j) : (placeTree nodes i t)[j]? = nodes[j]? := by
  induction t generalizing nodes i with
  | leaf s =>
    simp only [CodeTree.size] at hi hj
    rw [placeTree, getElem?_setNode _ _ _ _ (by omega), if_neg (by omega)]
  | node l r ihl ihr =>
    simp only [CodeTree.size] at hi hj
    have := l.one_le_size
    have := r.one_le_size
    rw [placeTree, getElem?_setNode _ _ _ _ (by omega), if_neg (by omega),
      ihr _ _ (by omega) (by omega), ihl _ _ (by omega) (by omega)]

theorem nodeAt_ofNat (nodes : Nodes) (i : Nat) (hi : i < 511) : nodeAt nodes (BitVec.ofNat 9 i) = nodes[i]? := by
  simp only [nodeAt, BitVec.toNat_ofNat]
  rw [Nat.mod_eq_of_lt (by omega)]

theorem holds_congr (nodes nodes' : Nodes) (a b : Nat) (hab : ∀ j, a ≤ j → j < b → nodes'[j]? = nodes[j]?)
    (t : CodeTree) (i : NodeIdx) (h : holds nodes i t = true)
    (hin : ∀ j ∈ reached nodes i t, a ≤ j.toNat ∧ j.toNat < b) : holds nodes' i t = true := by
  induction t generalizing i with
  | leaf s =>
    obtain ⟨n, hn, hl, hs⟩ := (holds_leaf_iff _ _ _).mp h
    have := hin i (by simp [reached])
    exact (holds_leaf_iff _ _ _).mpr ⟨n, by rw [nodeAt, hab _ this.1 this.2]; exact hn, hl, hs⟩
  | node l r ihl ihr =>
    obtain ⟨n, hn, hl, h1, h2⟩ := (holds_node_iff _ _ _ _).mp h
    have hr : reached nodes i (.node l r) = i :: (reached nodes n.left l ++ reached nodes n.right r) := by
      simp [reached, hn]
    have hi := hin i (by simp [hr])
    exact (holds_node_iff _ _ _ _).mpr ⟨n, by rw [nodeAt, hab _ hi.1 hi.2]; exact hn, hl,
      ihl _ h1 (fun j hj => hin j (by simp [hr, hj])), ihr _ h2 (fun j hj => hin j (by simp [hr, hj]))⟩

/-- A placed tree is held where it was placed, and reaches only its own indices. -/
theorem placeTree_holds (nodes : Nodes) (i : Nat) (t : CodeTree) (hi : i + t.size ≤ 511) :
    holds (placeTree nodes i t) (BitVec.ofNat 9 i) t = true ∧
      ∀ j ∈ reached (placeTree nodes i t) (BitVec.ofNat 9 i) t, i ≤ j.toNat ∧ j.toNat < i + t.size := by
  induction t generalizing nodes i with
  | leaf s =>
    simp only [CodeTree.size] at hi
    refine ⟨(holds_leaf_iff _ _ _).mpr ⟨leafNode s 0, ?_, rfl, rfl⟩, ?_⟩
    · rw [nodeAt_ofNat _ _ (by omega), placeTree, getElem?_setNode _ _ _ _ (by omega), if_pos rfl]
    · intro j hj
      simp only [reached, List.mem_singleton] at hj
      subst hj
      rw [BitVec.toNat_ofNat, Nat.mod_eq_of_lt (by omega)]
      simp [CodeTree.size]
  | node l r ihl ihr =>
    simp only [CodeTree.size] at hi
    have hl1 := l.one_le_size
    have hr1 := r.one_le_size
    obtain ⟨hl, hlr⟩ := ihl nodes (i + 1) (by omega)
    obtain ⟨hr, hrr⟩ := ihr (placeTree nodes (i + 1) l) (i + 1 + l.size) (by omega)
    set A := placeTree nodes (i + 1) l with hA
    set B := placeTree A (i + 1 + l.size) r with hB
    set C := setNode B i (innerNode 0 (BitVec.ofNat 9 (i + 1)) (BitVec.ofNat 9 (i + 1 + l.size))) with hC
    have eC : placeTree nodes i (.node l r) = C := by rw [placeTree]
    have hCB : ∀ j, i + 1 ≤ j → C[j]? = B[j]? := fun j hj => by
      rw [hC, getElem?_setNode _ _ _ _ (by omega), if_neg (by omega)]
    have hBA : ∀ j, j < i + 1 + l.size → B[j]? = A[j]? := fun j hj => by
      rw [hB, getElem?_placeTree_outside _ _ _ (by omega) _ (.inl hj)]
    have reach_congr : ∀ (n n' : Nodes) (a b : Nat), (∀ j, a ≤ j → j < b → n'[j]? = n[j]?) →
        ∀ (t : CodeTree) (i : NodeIdx), holds n i t = true →
        (∀ j ∈ reached n i t, a ≤ j.toNat ∧ j.toNat < b) → reached n' i t = reached n i t := by
      intro n n' a b hab t
      induction t with
      | leaf s => intros; rfl
      | node l r ihl ihr =>
        intro i h hin
        obtain ⟨m, hm, hlf, h1, h2⟩ := (holds_node_iff _ _ _ _).mp h
        have e : reached n i (.node l r) = i :: (reached n m.left l ++ reached n m.right r) := by
          simp [reached, hm]
        have hi := hin i (by simp [e])
        have hm' : nodeAt n' i = some m := by rw [nodeAt, hab _ hi.1 hi.2]; exact hm
        rw [e]
        simp only [reached, hm']
        rw [ihl _ h1 (fun j hj => hin j (by simp [e, hj])), ihr _ h2 (fun j hj => hin j (by simp [e, hj]))]
    have abL : ∀ j, i + 1 ≤ j → j < i + 1 + l.size → C[j]? = A[j]? := fun j h1 h2 => by rw [hCB j h1, hBA j h2]
    have abR : ∀ j, i + 1 + l.size ≤ j → j < i + 1 + l.size + r.size → C[j]? = B[j]? :=
      fun j h1 _ => hCB j (by omega)
    have hl' := holds_congr A C _ _ abL l _ hl hlr
    have hr' := holds_congr B C _ _ abR r _ hr hrr
    have hroot : nodeAt C (BitVec.ofNat 9 i)
        = some (innerNode 0 (BitVec.ofNat 9 (i + 1)) (BitVec.ofNat 9 (i + 1 + l.size))) := by
      rw [nodeAt_ofNat _ _ (by omega), hC, getElem?_setNode _ _ _ _ (by omega), if_pos rfl]
    rw [eC]
    refine ⟨(holds_node_iff _ _ _ _).mpr ⟨_, hroot, rfl, hl', hr'⟩, ?_⟩
    intro j hj
    simp only [reached, hroot, List.mem_cons, List.mem_append, innerNode] at hj
    rw [reach_congr A C _ _ abL l _ hl hlr, reach_congr B C _ _ abR r _ hr hrr] at hj
    simp only [CodeTree.size]
    rcases hj with rfl | hj | hj
    · rw [BitVec.toNat_ofNat, Nat.mod_eq_of_lt (by omega)]; omega
    · have := hlr j hj; omega
    · have := hrr j hj; omega

/-! ## One parse -/

/-- The loader's variables after it has loaded a tree. -/
def loaded (p : Loader) (t : CodeTree) : Loader :=
  { pos := p.pos + t.bits.length
    next := p.next + t.size
    internals := p.internals + (t.symbols.length - 1)
    leaves := p.leaves + t.symbols.length
    seen := t.symbols.reverse ++ p.seen
    nodes := placeTree p.nodes p.next t }

theorem symbolAt_spec (rd : Nat → Bool) (pos : Nat) :
    msbBits 8 (symbolAt rd pos).toNat = (List.range 8).map fun k => rd (pos + k) := by
  have hlt := bitsNumber_lt ((List.range 8).map fun k => rd (pos + k))
  have := msbBits_bitsNumber ((List.range 8).map fun k => rd (pos + k))
  simp only [List.length_map, List.length_range] at this hlt
  rw [symbolAt, BitVec.toNat_ofNat, Nat.mod_eq_of_lt hlt, this]

theorem symbolAt_of_agrees (rd : Nat → Bool) (pos limit : Nat) (s : Symbol)
    (h : agrees rd pos limit (msbBits 8 s.toNat)) (hl : pos + 8 ≤ limit) : symbolAt rd pos = s := by
  have e : ((List.range 8).map fun k => rd (pos + k)) = msbBits 8 s.toNat := by
    apply List.ext_getElem (by simp)
    intro k h1 h2
    simp only [List.length_map, List.length_range] at h1
    simp only [List.getElem_map, List.getElem_range]
    exact h k (by simpa using h1) (by omega)
  rw [symbolAt, e, bitsNumber_msbBits, Nat.mod_eq_of_lt s.isLt]
  simp

theorem parse_bits (rd : Nat → Bool) (tb limit stop fuel : Nat) (t : CodeTree) (p : Loader)
    (hf : t.depth < fuel) (hl : p.pos + t.bits.length ≤ limit) (ha : agrees rd p.pos limit t.bits)
    (hs : t.symbols.Nodup) (hd : ∀ x ∈ t.symbols, x ∉ p.seen)
    (hi : p.internals + (t.symbols.length - 1) ≤ 255) :
    parse rd tb limit stop fuel p = .ok (p.next, loaded p t) := by
  induction t generalizing fuel p with
  | leaf s =>
    obtain ⟨fuel, rfl⟩ : ∃ f, fuel = f + 1 := ⟨fuel - 1, by simp [CodeTree.depth] at hf; omega⟩
    simp only [CodeTree.bits, leafBits, List.length_cons, length_msbBits] at hl ha
    have hb := agrees_head ha (by omega)
    have hx := symbolAt_of_agrees rd (p.pos + 1) limit s (agrees_tail ha) (by omega)
    have hns : s ∉ p.seen := hd s (by simp [CodeTree.symbols])
    simp only [parse, hb, if_true, hx, hns, if_false]
    rw [if_neg (by omega), if_neg (by omega)]
    simp [loaded, CodeTree.bits, leafBits, CodeTree.size, CodeTree.symbols, placeTree]
  | node l r ihl ihr =>
    simp only [CodeTree.depth] at hf
    obtain ⟨fuel, rfl⟩ : ∃ f, fuel = f + 1 := ⟨fuel - 1, by omega⟩
    have hl1 := l.one_le_symbols
    have hr1 := r.one_le_symbols
    simp only [CodeTree.symbols, List.length_append, List.nodup_append] at hs hi hd
    simp only [CodeTree.bits, List.length_cons, List.length_append] at hl
    simp only [CodeTree.bits] at ha
    have hb := agrees_head ha (by omega)
    have hat := agrees_tail ha
    have h1 := ihl fuel { p with pos := p.pos + 1, next := p.next + 1, internals := p.internals + 1 }
      (by omega) (by simp; omega) (agrees_append_left hat) hs.1 (fun x hx => hd x (by simp [hx]))
      (by simp; omega)
    have h2 := ihr fuel
      (loaded { p with pos := p.pos + 1, next := p.next + 1, internals := p.internals + 1 } l)
      (by omega) (by simp [loaded]; omega) (by simpa [loaded] using agrees_append_right hat) hs.2.1
      (by
        intro x hx hm
        simp only [loaded, List.mem_append, List.mem_reverse] at hm
        rcases hm with hm | hm
        · exact hs.2.2 x hm x hx rfl
        · exact hd x (by simp [hx]) hm)
      (by simp [loaded]; omega)
    simp only [parse, hb, Bool.false_eq_true, if_false, h1, h2]
    rw [if_neg (by omega), if_neg (by omega)]
    simp only [loaded, CodeTree.bits, CodeTree.size, CodeTree.symbols, placeTree, List.length_cons,
      List.length_append, List.reverse_append, List.append_assoc]
    congr 3 <;> omega

theorem parse_short (rd : Nat → Bool) (tb limit stop fuel : Nat) (t : CodeTree) (p : Loader)
    (hf : t.depth < fuel) (hp : p.pos ≤ limit) (hl : limit < p.pos + t.bits.length)
    (ha : agrees rd p.pos limit t.bits)
    (hs : t.symbols.Nodup) (hd : ∀ x ∈ t.symbols, x ∉ p.seen)
    (hi : p.internals + (t.symbols.length - 1) ≤ 255) :
    parse rd tb limit stop fuel p = .raise ⟨.decTrunc, stop⟩ := by
  induction t generalizing fuel p with
  | leaf s =>
    obtain ⟨fuel, rfl⟩ : ∃ f, fuel = f + 1 := ⟨fuel - 1, by simp [CodeTree.depth] at hf; omega⟩
    simp only [CodeTree.bits, leafBits, List.length_cons, length_msbBits] at hl ha
    by_cases h0 : limit ≤ p.pos
    · simp [parse, h0]
    · have hb := agrees_head ha (by omega)
      simp only [parse, hb, if_true]
      rw [if_neg h0, if_pos (by omega)]
  | node l r ihl ihr =>
    simp only [CodeTree.depth] at hf
    obtain ⟨fuel, rfl⟩ : ∃ f, fuel = f + 1 := ⟨fuel - 1, by omega⟩
    have hl1 := l.one_le_symbols
    have hr1 := r.one_le_symbols
    simp only [CodeTree.symbols, List.length_append, List.nodup_append] at hs hi hd
    simp only [CodeTree.bits, List.length_cons, List.length_append] at hl
    simp only [CodeTree.bits] at ha
    by_cases h0 : limit ≤ p.pos
    · simp [parse, h0]
    · have hb := agrees_head ha (by omega)
      have hat := agrees_tail ha
      simp only [parse, hb, Bool.false_eq_true, if_false]
      rw [if_neg h0, if_neg (by omega)]
      by_cases hfit : p.pos + 1 + l.bits.length ≤ limit
      · have h1 := parse_bits rd tb limit stop fuel l
          { p with pos := p.pos + 1, next := p.next + 1, internals := p.internals + 1 }
          (by omega) hfit (agrees_append_left hat) hs.1 (fun x hx => hd x (by simp [hx])) (by simp; omega)
        have h2 := ihr fuel
          (loaded { p with pos := p.pos + 1, next := p.next + 1, internals := p.internals + 1 } l)
          (by omega) (by simpa [loaded] using hfit) (by simp [loaded]; omega)
          (by simpa [loaded] using agrees_append_right hat) hs.2.1
          (by
            intro x hx hm
            simp only [loaded, List.mem_append, List.mem_reverse] at hm
            rcases hm with hm | hm
            · exact hs.2.2 x hm x hx rfl
            · exact hd x (by simp [hx]) hm)
          (by simp [loaded]; omega)
        simp only [h1, h2]
      · have h1 := ihl fuel { p with pos := p.pos + 1, next := p.next + 1, internals := p.internals + 1 }
          (by omega) (by simp; omega) (by simp; omega) (agrees_append_left hat) hs.1
          (fun x hx => hd x (by simp [hx])) (by simp; omega)
        simp only [h1]

/-- Everything a parse can do, given the levels it needs: load a tree whose bits it read, with new
distinct symbols, or raise DEC_TRUNC or DEC_TREE. -/
theorem parse_total (rd : Nat → Bool) (tb limit stop fuel : Nat) (p : Loader) (hf : 256 ≤ fuel + p.internals)
    (hi : p.internals ≤ 255) (hp : p.pos ≤ limit) :
    (∃ t : CodeTree, t.symbols.Nodup ∧ (∀ x ∈ t.symbols, x ∉ p.seen) ∧
        p.internals + (t.symbols.length - 1) ≤ 255 ∧ p.pos + t.bits.length ≤ limit ∧
        agrees rd p.pos limit t.bits ∧ parse rd tb limit stop fuel p = .ok (p.next, loaded p t)) ∨
      parse rd tb limit stop fuel p = .raise ⟨.decTrunc, stop⟩ ∨
      ∃ k, p.pos ≤ k ∧ k < limit ∧ parse rd tb limit stop fuel p = .raise ⟨.decTree, tb + k / 8⟩ := by
  induction fuel generalizing p with
  | zero => omega
  | succ fuel ih =>
    by_cases h0 : limit ≤ p.pos
    · right; left; simp [parse, h0]
    by_cases hb : rd p.pos = true
    · by_cases h8 : limit < p.pos + 1 + 8
      · right; left; simp [parse, h0, hb, h8]
      by_cases hm : symbolAt rd (p.pos + 1) ∈ p.seen
      · right; right
        exact ⟨p.pos, le_rfl, by omega, by simp [parse, h0, hb, h8, hm]⟩
      · left
        refine ⟨.leaf (symbolAt rd (p.pos + 1)), by simp [CodeTree.symbols], by simpa [CodeTree.symbols] using hm,
          by simpa [CodeTree.symbols] using hi, by simp [CodeTree.bits, leafBits]; omega, ?_, ?_⟩
        · intro k hk hkl
          simp only [CodeTree.bits, leafBits, symbolAt_spec]
          cases k with
          | zero => simpa using hb
          | succ k =>
            simp only [CodeTree.bits, leafBits, List.length_cons, length_msbBits] at hk
            simp [show p.pos + (k + 1) = p.pos + 1 + k by omega]
        · simp [parse, h0, hb, h8, hm, loaded, CodeTree.bits, leafBits, CodeTree.size, CodeTree.symbols,
            placeTree]
    · have hb' : rd p.pos = false := by simpa using hb
      by_cases h255 : p.internals = 255
      · right; right
        exact ⟨p.pos, le_rfl, by omega, by simp [parse, h0, hb', h255]⟩
      · rcases ih { p with pos := p.pos + 1, next := p.next + 1, internals := p.internals + 1 }
          (by simp; omega) (by simp; omega) (by simp; omega) with
          ⟨l, hls, hld, hli, hll, hla, hlp⟩ | h | ⟨k, hk1, hk2, h⟩
        · simp only at hld hli hll hla
          rcases ih (loaded { p with pos := p.pos + 1, next := p.next + 1, internals := p.internals + 1 } l)
            (by simp [loaded]; omega) (by simpa [loaded] using hli) (by simpa [loaded] using hll) with
            ⟨r, hrs, hrd, hri, hrl, hra, hrp⟩ | h | ⟨k, hk1, hk2, h⟩
          · simp only [loaded, List.mem_append, List.mem_reverse, not_or] at hrd hri hrl hra
            have hl1 := l.one_le_symbols
            have hr1 := r.one_le_symbols
            left
            refine ⟨.node l r, ?_, ?_, ?_, ?_, ?_, ?_⟩
            · simp only [CodeTree.symbols, List.nodup_append]
              exact ⟨hls, hrs, fun x hx y hy hxy => (hrd y hy).1 (hxy ▸ hx)⟩
            · intro x hx
              simp only [CodeTree.symbols, List.mem_append] at hx
              rcases hx with hx | hx
              · exact hld x hx
              · exact (hrd x hx).2
            · simp only [CodeTree.symbols, List.length_append]; omega
            · simp only [CodeTree.bits, List.length_cons, List.length_append]; omega
            · intro k hk hkl
              simp only [CodeTree.bits]
              cases k with
              | zero => simpa using hb'
              | succ k =>
                simp only [CodeTree.bits, List.length_cons, List.length_append] at hk
                simp only [List.getElem_cons_succ]
                by_cases hlt : k < l.bits.length
                · rw [List.getElem_append_left hlt, ← hla k hlt (by omega)]; congr 1; omega
                · rw [List.getElem_append_right (by omega), ← hra (k - l.bits.length) (by omega) (by omega)]
                  congr 1; omega
            · simp only [parse, h0, hb', h255, Bool.false_eq_true, if_false, hlp, hrp]
              simp only [loaded, CodeTree.bits, CodeTree.size, CodeTree.symbols, placeTree, List.length_cons,
                List.length_append, List.reverse_append, List.append_assoc]
              congr 3 <;> omega
          · right; left; simp [parse, h0, hb', h255, hlp, h]
          · simp only [loaded] at hk1
            right; right; exact ⟨k, by omega, hk2, by simp [parse, h0, hb', h255, hlp, h]⟩
        · right; left; simp [parse, h0, hb', h255, h]
        · simp only at hk1
          right; right; exact ⟨k, by omega, hk2, by simp [parse, h0, hb', h255, h]⟩

/-! ## The whole tree section -/

/-- The loader's variables at the start of LoadTree. -/
def loaderStart (nodes : Nodes) : Loader :=
  { pos := 0, next := 0, internals := 0, leaves := 0, seen := [], nodes := nodes }

theorem loadTree_eq (rd : Nat → Bool) (tb limit stop : Nat) (nodes : Nodes) :
    loadTree rd tb limit stop nodes
      = match parse rd tb limit stop maxPath (loaderStart nodes) with
        | .ok (_, p) => .ok p
        | .raise e => .raise e
        | .fault f => .fault f := rfl

theorem loadTree_bits (rd : Nat → Bool) (tb limit stop : Nat) (nodes : Nodes) (t : CodeTree)
    (hs : t.symbols.Nodup) (hl : t.bits.length ≤ limit) (ha : agrees rd 0 limit t.bits) :
    loadTree rd tb limit stop nodes = .ok (loaded (loaderStart nodes) t) := by
  have h256 := nodup_symbols_le _ hs
  rw [loadTree_eq, parse_bits rd tb limit stop maxPath t (loaderStart nodes) (t.depth_lt_maxPath hs)
    (by simpa [loaderStart] using hl) (by simpa [loaderStart] using ha) hs (by simp [loaderStart])
    (by simp [loaderStart]; omega)]

theorem loadTree_short (rd : Nat → Bool) (tb limit stop : Nat) (nodes : Nodes) (t : CodeTree)
    (hs : t.symbols.Nodup) (hl : limit < t.bits.length) (ha : agrees rd 0 limit t.bits) :
    loadTree rd tb limit stop nodes = .raise ⟨.decTrunc, stop⟩ := by
  have h256 := nodup_symbols_le _ hs
  rw [loadTree_eq, parse_short rd tb limit stop maxPath t (loaderStart nodes) (t.depth_lt_maxPath hs)
    (by simp [loaderStart]) (by simpa [loaderStart] using hl) (by simpa [loaderStart] using ha) hs
    (by simp [loaderStart]) (by simp [loaderStart]; omega)]

/-- Everything LoadTree can do. It never faults. -/
theorem loadTree_total (rd : Nat → Bool) (tb limit stop : Nat) (nodes : Nodes) :
    (∃ t : CodeTree, t.symbols.Nodup ∧ t.bits.length ≤ limit ∧ agrees rd 0 limit t.bits ∧
        loadTree rd tb limit stop nodes = .ok (loaded (loaderStart nodes) t)) ∨
      loadTree rd tb limit stop nodes = .raise ⟨.decTrunc, stop⟩ ∨
      ∃ k, k < limit ∧ loadTree rd tb limit stop nodes = .raise ⟨.decTree, tb + k / 8⟩ := by
  rcases parse_total rd tb limit stop maxPath (loaderStart nodes) (by simp [maxPath, loaderStart])
    (by simp [loaderStart]) (by simp [loaderStart]) with ⟨t, hs, _, _, hl, ha, hp⟩ | hp | ⟨k, _, hk, hp⟩
  · left; exact ⟨t, hs, by simpa [loaderStart] using hl, by simpa [loaderStart] using ha, by rw [loadTree_eq, hp]⟩
  · right; left; rw [loadTree_eq, hp]
  · right; right; exact ⟨k, hk, by rw [loadTree_eq, hp]⟩

theorem CodeTree.size_le (t : CodeTree) (hs : t.symbols.Nodup) : t.size ≤ 511 := by
  have := t.size_eq
  have := nodup_symbols_le _ hs
  omega

/-- A loaded tree is held at NODE[0] (R137). -/
theorem loaded_holds (nodes : Nodes) (t : CodeTree) (hs : t.symbols.Nodup) :
    holds (loaded (loaderStart nodes) t).nodes 0 t = true :=
  (placeTree_holds nodes 0 t (by have := t.size_le hs; omega)).1

end Sys2Proof.Machine
end

