-- ==== Sys2Proof/Laws/Builder.lean ====
section
/-! SUPPORT. BUILD: leaf placement (R102), PopMin (R103), the merges (R104, R105), and the tree, the
frequencies and the untouched entries they leave (R107 to R110). -/

namespace Sys2Proof.Machine

/-! ## The leaves -/

theorem mem_presentSymbols (f : Vector Word 256) (x : Symbol) :
    x ∈ presentSymbols f ↔ 0 < (atSymbol f x).toNat := by
  simp [presentSymbols, mem_alphabet]

theorem nodup_presentSymbols (f : Vector Word 256) : (presentSymbols f).Nodup :=
  nodup_alphabet.filter _

theorem sorted_presentSymbols (f : Vector Word 256) :
    (presentSymbols f).Pairwise fun a b => a.toNat < b.toNat := by
  refine List.Pairwise.filter _ ?_
  rw [alphabet, List.pairwise_map]
  refine List.Pairwise.imp_of_mem ?_ (List.pairwise_lt_range (n := 256))
  intro a b ha hb h
  simp only [List.mem_range] at ha hb
  simp only [BitVec.toNat_ofNat]
  omega

theorem leafCount_le (f : Vector Word 256) : leafCount f ≤ 256 := nodup_symbols_le _ (nodup_presentSymbols f)

theorem getElem?_placeLeaves (f : Vector Word 256) (xs : List Symbol) (k : Nat) (nodes : Nodes)
    (h : k + xs.length ≤ 511) (j : Nat) :
    (placeLeaves f xs k nodes)[j]?
      = if k ≤ j ∧ j < k + xs.length then (xs[j - k]?).map fun x => leafNode x (atSymbol f x)
        else nodes[j]? := by
  induction xs generalizing k nodes with
  | nil => simp only [placeLeaves, List.length_nil]; rw [if_neg (by omega)]
  | cons x xs ih =>
    simp only [List.length_cons] at h ⊢
    rw [placeLeaves, ih _ _ (by omega), getElem?_setNode _ _ _ _ (by omega)]
    by_cases hj : k = j
    · subst hj; rw [if_neg (by omega), if_pos rfl, if_pos (by omega)]; simp
    · by_cases h2 : k + 1 ≤ j ∧ j < k + 1 + xs.length
      · rw [if_pos h2, if_pos (by omega), show j - k = (j - (k + 1)) + 1 by omega]; simp
      · rw [if_neg h2, if_neg hj, if_neg (by omega)]

/-! ## PopMin -/

theorem precedes_iff (nodes : Nodes) (i j : Nat) :
    precedes nodes i j = true ↔ (nfreqAt nodes i).toNat < (nfreqAt nodes j).toNat ∨
      ((nfreqAt nodes i).toNat = (nfreqAt nodes j).toNat ∧ i < j) := by
  simp [precedes]

theorem precedes_trans {nodes : Nodes} {i j k : Nat} (h1 : precedes nodes i j = true)
    (h2 : precedes nodes j k = true) : precedes nodes i k = true := by
  rw [precedes_iff] at *; omega

theorem precedes_total {nodes : Nodes} {i j : Nat} (h : i ≠ j) (h1 : ¬precedes nodes i j = true) :
    precedes nodes j i = true := by
  rw [precedes_iff] at *; omega

/-- The least index comes out and the others stay: PopMin "is a function" of the queue as a set
(R103). -/
theorem extractMin_spec (nodes : Nodes) (x : Nat) (q : List Nat) (hn : (x :: q).Nodup) :
    ((extractMin nodes x q).1 :: (extractMin nodes x q).2).Perm (x :: q) ∧
      ∀ z ∈ (extractMin nodes x q).2, precedes nodes (extractMin nodes x q).1 z = true := by
  induction q generalizing x with
  | nil => simp [extractMin]
  | cons y q ih =>
    obtain ⟨hx, hq⟩ := List.nodup_cons.mp hn
    obtain ⟨hy, hq'⟩ := List.nodup_cons.mp hq
    have hxy : x ≠ y := fun h => hx (by simp [h])
    by_cases hp : precedes nodes y x = true
    · obtain ⟨h1, h2⟩ := ih y hq
      simp only [extractMin, hp, if_true]
      refine ⟨?_, ?_⟩
      · exact (List.Perm.swap _ _ _).trans (h1.cons x)
      · intro z hz
        rcases List.mem_cons.mp hz with rfl | hz
        · have hm : y = (extractMin nodes y q).1 ∨ y ∈ (extractMin nodes y q).2 := by
            have := h1.symm.mem_iff (a := y); simpa using this
          rcases hm with hm | hm
          · rw [← hm]; exact hp
          · exact precedes_trans (h2 y hm) hp
        · exact h2 z hz
    · have hxq : (x :: q).Nodup := List.nodup_cons.mpr ⟨fun h => hx (List.mem_cons_of_mem _ h), hq'⟩
      obtain ⟨h1, h2⟩ := ih x hxq
      simp only [extractMin, hp, Bool.false_eq_true, if_false]
      refine ⟨?_, ?_⟩
      · exact (List.Perm.swap _ _ _).trans ((h1.cons y).trans (List.Perm.swap _ _ _))
      · intro z hz
        have hpx : precedes nodes x y = true := precedes_total (Ne.symm hxy) hp
        rcases List.mem_cons.mp hz with rfl | hz
        · have hm : x = (extractMin nodes x q).1 ∨ x ∈ (extractMin nodes x q).2 := by
            have := h1.symm.mem_iff (a := x); simpa using this
          rcases hm with hm | hm
          · rw [← hm]; exact hpx
          · exact precedes_trans (h2 x hm) hpx
        · exact h2 z hz

/-- One merge: a queue of two or more indices gives its least, then the least of the others. -/
theorem popMin_twice (nodes : Nodes) (q : List Nat) (hn : q.Nodup) (h2 : 2 ≤ q.length) :
    ∃ a b q1 q2, popMin nodes q = some (a, q1) ∧ popMin nodes q1 = some (b, q2) ∧
      (a :: b :: q2).Perm q ∧ q1.Perm (b :: q2) ∧
      (∀ z ∈ b :: q2, precedes nodes a z = true) ∧ ∀ z ∈ q2, precedes nodes b z = true := by
  match q, h2 with
  | x :: y :: q, _ =>
    obtain ⟨hp, hm⟩ := extractMin_spec nodes x (y :: q) hn
    have hn1 : (extractMin nodes x (y :: q)).2.Nodup := (List.nodup_cons.mp (hp.nodup_iff.mpr hn)).2
    have hl : (extractMin nodes x (y :: q)).2.length = q.length + 1 := by
      have := hp.length_eq; simpa using this
    match hq : (extractMin nodes x (y :: q)).2, hl with
    | w :: q1, _ =>
      rw [hq] at hn1 hp hm
      obtain ⟨hp', hm'⟩ := extractMin_spec nodes w q1 hn1
      refine ⟨_, _, w :: q1, _, by rw [popMin, ← hq], rfl, (hp'.cons _).trans hp, hp'.symm, ?_, hm'⟩
      intro z hz
      exact hm z (hp'.mem_iff.mp hz)

theorem nfreqAt_congr {nodes nodes' : Nodes} {i : Nat} (h : nodes'[i]? = nodes[i]?) :
    nfreqAt nodes' i = nfreqAt nodes i := by rw [nfreqAt, nfreqAt, h]

theorem precedes_congr {nodes nodes' : Nodes} {i j : Nat} (hi : nodes'[i]? = nodes[i]?)
    (hj : nodes'[j]? = nodes[j]?) : precedes nodes' i j = precedes nodes i j := by
  simp only [precedes, nfreqAt_congr hi, nfreqAt_congr hj]

/-! ## The merges -/

/-- The merge loop unrolled once, where the queue has the indices for it. -/
theorem mergeAll_succ (m next : Nat) (q : List Nat) (nodes : Nodes) (hn : q.Nodup) (hl : q.length = m + 2) :
    ∃ a b q2, (a :: b :: q2).Perm q ∧ (∀ z ∈ b :: q2, precedes nodes a z = true) ∧
      (∀ z ∈ q2, precedes nodes b z = true) ∧
      mergeAll (m + 1) next q nodes = mergeAll m (next + 1) (next :: q2)
        (setNode nodes next
          (innerNode (nfreqAt nodes a + nfreqAt nodes b) (BitVec.ofNat 9 a) (BitVec.ofNat 9 b))) := by
  obtain ⟨a, b, q1, q2, h1, h2, hp, _, ha, hb⟩ := popMin_twice nodes q hn (by omega)
  exact ⟨a, b, q2, hp, ha, hb, by simp [mergeAll, h1, h2]⟩

/-- The queue after a merge is again one of distinct indices below the next. -/
theorem queue_next {a b next m : Nat} {q q2 : List Nat} (hp : (a :: b :: q2).Perm q) (hn : q.Nodup)
    (hlt : ∀ i ∈ q, i < next) (hl : q.length = m + 2) :
    (next :: q2).Nodup ∧ (∀ i ∈ next :: q2, i < next + 1) ∧ (next :: q2).length = m + 1 ∧ a < next ∧
      b < next ∧ a ≠ b ∧ a ∉ q2 ∧ b ∉ q2 ∧ ∀ i ∈ q2, i < next := by
  have hn' := hp.nodup_iff.mpr hn
  have hm : ∀ i ∈ a :: b :: q2, i < next := fun i hi => hlt i (hp.mem_iff.mp hi)
  have hlen := hp.length_eq
  simp only [List.nodup_cons, List.mem_cons, not_or] at hn'
  simp only [List.mem_cons, forall_eq_or_imp] at hm
  refine ⟨List.nodup_cons.mpr ⟨fun h => absurd (hm.2.2 next h) (lt_irrefl _), hn'.2.2⟩, ?_, ?_, hm.1, hm.2.1,
    hn'.1.1, hn'.1.2, hn'.2.1, hm.2.2⟩
  · intro i hi
    rcases List.mem_cons.mp hi with rfl | hi
    · omega
    · have := hm.2.2 i hi; omega
  · simp only [List.length_cons] at hlen ⊢; omega

theorem mergeAll_outside (m next : Nat) (q : List Nat) (nodes : Nodes) (h : next + m ≤ 511) (j : Nat)
    (hj : j < next ∨ next + m ≤ j) : (mergeAll m next q nodes)[j]? = nodes[j]? := by
  induction m generalizing next q nodes with
  | zero => rfl
  | succ m ih =>
    rw [mergeAll]
    split
    · rfl
    · split
      · rfl
      · rw [ih _ _ _ (by omega) (by omega), getElem?_setNode _ _ _ _ (by omega), if_neg (by omega)]

/-- An index not yet taken as a child by the merges from `first` up to `upto`, by NODE. -/
def unused (nodes : Nodes) (first upto j : Nat) : Prop :=
  ∀ k, first ≤ k → k < upto → ∀ n, nodes[k]? = some n → n.left.toNat ≠ j ∧ n.right.toNat ≠ j

/-- What each merge does (R104, R105): NODE[next + k] is an internal node over the two least of the
indices in the queue at that merge, LEFT before RIGHT, with the sum of their NFREQ. -/
theorem mergeAll_merges (m next : Nat) (q : List Nat) (nodes : Nodes) (hn : q.Nodup)
    (hlt : ∀ i ∈ q, i < next) (hl : q.length = m + 1) (hb : next + m ≤ 511) (k : Nat) (hk : k < m) :
    let t := mergeAll m next q nodes
    let live := fun j => (j ∈ q ∨ (next ≤ j ∧ j < next + k)) ∧ unused t next (next + k) j
    ∃ a b, t[next + k]? = some (innerNode (nfreqAt t a + nfreqAt t b) (BitVec.ofNat 9 a) (BitVec.ofNat 9 b)) ∧
      a < next + k ∧ b < next + k ∧ live a ∧ live b ∧ precedes t a b = true ∧
      ∀ j, live j → j ≠ a → j ≠ b → precedes t b j = true := by
  induction m generalizing next q nodes k with
  | zero => omega
  | succ m ih =>
    obtain ⟨a, b, q2, hp, ha, hb2, he⟩ := mergeAll_succ m next q nodes hn (by omega)
    obtain ⟨hn', hlt', hl', han, hbn, hab, haq, hbq, hq2⟩ := queue_next hp hn hlt (by omega)
    set nodes1 := setNode nodes next
      (innerNode (nfreqAt nodes a + nfreqAt nodes b) (BitVec.ofNat 9 a) (BitVec.ofNat 9 b)) with hnodes1
    have low : ∀ j, j < next → (mergeAll m (next + 1) (next :: q2) nodes1)[j]? = nodes[j]? := fun j hj => by
      rw [mergeAll_outside _ _ _ _ (by omega) _ (.inl (by omega)), hnodes1, getElem?_setNode _ _ _ _ (by omega),
        if_neg (by omega)]
    have at_next : (mergeAll m (next + 1) (next :: q2) nodes1)[next]? = some
        (innerNode (nfreqAt nodes a + nfreqAt nodes b) (BitVec.ofNat 9 a) (BitVec.ofNat 9 b)) := by
      rw [mergeAll_outside _ _ _ _ (by omega) _ (.inl (by omega)), hnodes1, getElem?_setNode _ _ _ _ (by omega),
        if_pos rfl]
    simp only [he]
    set t := mergeAll m (next + 1) (next :: q2) nodes1 with ht
    have mem_q : ∀ j, j ∈ q ↔ j = a ∨ j = b ∨ j ∈ q2 := fun j => by rw [← hp.mem_iff]; simp
    cases k with
    | zero =>
      refine ⟨a, b, ?_, by omega, by omega, ⟨.inl ((mem_q a).mpr (.inl rfl)), ?_⟩,
        ⟨.inl ((mem_q b).mpr (.inr (.inl rfl))), ?_⟩, ?_, ?_⟩
      · rw [Nat.add_zero, at_next, nfreqAt_congr (low a han), nfreqAt_congr (low b hbn)]
      · intro k h1 h2; omega
      · intro k h1 h2; omega
      · rw [precedes_congr (low a han) (low b hbn)]; exact ha b (by simp)
      · rintro j ⟨hj, _⟩ hja hjb
        rcases hj with hj | hj
        · rcases (mem_q j).mp hj with h | h | h
          · exact absurd h hja
          · exact absurd h hjb
          · rw [precedes_congr (low b hbn) (low j (hq2 j h))]; exact hb2 j h
        · omega
    | succ k =>
      obtain ⟨a', b', h1, h2, h3, h4, h5, h6, h7⟩ := ih (next + 1) (next :: q2) nodes1 hn' hlt' hl' (by omega) k (by omega)
      simp only [← ht] at h1 h4 h5 h6 h7
      have live_iff : ∀ j, ((j ∈ q ∨ (next ≤ j ∧ j < next + (k + 1))) ∧ unused t next (next + (k + 1)) j) ↔
          ((j ∈ next :: q2 ∨ (next + 1 ≤ j ∧ j < next + 1 + k)) ∧ unused t (next + 1) (next + 1 + k) j) := by
        intro j
        have un : unused t next (next + (k + 1)) j ↔ (j ≠ a ∧ j ≠ b) ∧ unused t (next + 1) (next + 1 + k) j := by
          constructor
          · intro h
            have h0 := h next le_rfl (by omega) _ at_next
            simp only [innerNode, BitVec.toNat_ofNat] at h0
            rw [Nat.mod_eq_of_lt (by omega), Nat.mod_eq_of_lt (by omega)] at h0
            exact ⟨⟨Ne.symm h0.1, Ne.symm h0.2⟩, fun i hi1 hi2 => h i (by omega) (by omega)⟩
          · rintro ⟨⟨hja, hjb⟩, h⟩ i hi1 hi2 n hni
            by_cases hi : i = next
            · subst hi
              rw [at_next] at hni; cases hni
              simp only [innerNode, BitVec.toNat_ofNat]
              rw [Nat.mod_eq_of_lt (by omega), Nat.mod_eq_of_lt (by omega)]
              exact ⟨Ne.symm hja, Ne.symm hjb⟩
            · exact h i (by omega) (by omega) n hni
        rw [un, mem_q, List.mem_cons]
        constructor
        · rintro ⟨hj, ⟨hja, hjb⟩, h⟩
          refine ⟨?_, h⟩
          rcases hj with (h | h | h) | h
          · exact absurd h hja
          · exact absurd h hjb
          · exact .inl (.inr h)
          · by_cases hjn : j = next
            · exact .inl (.inl hjn)
            · exact .inr ⟨by omega, by omega⟩
        · rintro ⟨hj, h⟩
          rcases hj with (hj | hj) | hj
          · subst hj; exact ⟨.inr ⟨le_rfl, by omega⟩, ⟨by omega, by omega⟩, h⟩
          · exact ⟨.inl (.inr (.inr hj)), ⟨fun e => haq (e ▸ hj), fun e => hbq (e ▸ hj)⟩, h⟩
          · exact ⟨.inr ⟨by omega, by omega⟩, ⟨by omega, by omega⟩, h⟩
      refine ⟨a', b', by rw [show next + (k + 1) = next + 1 + k by omega]; exact h1, by omega, by omega,
        (live_iff a').mpr h4, (live_iff b').mpr h5, h6, fun j hj => h7 j ((live_iff j).mp hj)⟩

/-- The forest in the queue and what the merges make of it: one tree, held at the last node written (or
at the only index of the queue), over the same leaves (R110). -/
theorem mergeAll_tree (m next : Nat) (q : List Nat) (nodes : Nodes) (f : Nat → CodeTree) (hn : q.Nodup)
    (hlt : ∀ i ∈ q, i < next) (hl : q.length = m + 1) (hb : next + m ≤ 511)
    (hf : ∀ i ∈ q, holds nodes (BitVec.ofNat 9 i) (f i) = true ∧
      ∀ j ∈ reached nodes (BitVec.ofNat 9 i) (f i), j.toNat < next) :
    ∃ root t, (root ∈ q ∧ m = 0 ∨ 0 < m ∧ root = next + m - 1) ∧
      holds (mergeAll m next q nodes) (BitVec.ofNat 9 root) t = true ∧
      t.symbols.Perm (q.flatMap fun i => (f i).symbols) ∧ (0 < m → ∃ l r, t = .node l r) ∧
      ∀ j ∈ reached (mergeAll m next q nodes) (BitVec.ofNat 9 root) t, j.toNat < next + m := by
  induction m generalizing next q nodes f with
  | zero =>
    match q, hl with
    | [i], _ =>
      exact ⟨i, f i, .inl ⟨by simp, rfl⟩, (hf i (by simp)).1, by simp, by simp, (hf i (by simp)).2⟩
  | succ m ih =>
    obtain ⟨a, b, q2, hp, ha, hb2, he⟩ := mergeAll_succ m next q nodes hn (by omega)
    obtain ⟨hn', hlt', hl', han, hbn, hab, haq, hbq, hq2⟩ := queue_next hp hn hlt (by omega)
    set nodes1 := setNode nodes next
      (innerNode (nfreqAt nodes a + nfreqAt nodes b) (BitVec.ofNat 9 a) (BitVec.ofNat 9 b)) with hnodes1
    have same : ∀ j, 0 ≤ j → j < next → nodes1[j]? = nodes[j]? := fun j _ hj => by
      rw [hnodes1, getElem?_setNode _ _ _ _ (by omega), if_neg (by omega)]
    have keep : ∀ i ∈ q, holds nodes1 (BitVec.ofNat 9 i) (f i) = true ∧
        ∀ j ∈ reached nodes1 (BitVec.ofNat 9 i) (f i), j.toNat < next := by
      intro i hi
      obtain ⟨h1, h2⟩ := hf i hi
      refine ⟨holds_congr nodes nodes1 0 next same _ _ h1 (fun j hj => ⟨Nat.zero_le _, h2 j hj⟩), ?_⟩
      have reach : ∀ (t : CodeTree) (i : NodeIdx), holds nodes i t = true →
          (∀ j ∈ reached nodes i t, j.toNat < next) → reached nodes1 i t = reached nodes i t := by
        intro t
        induction t with
        | leaf s => intros; rfl
        | node l r ihl ihr =>
          intro i h hin
          obtain ⟨n, hm, _, h1, h2⟩ := (holds_node_iff _ _ _ _).mp h
          have e : reached nodes i (.node l r) = i :: (reached nodes n.left l ++ reached nodes n.right r) := by
            simp [reached, hm]
          have hi := hin i (by simp [e])
          have hm' : nodeAt nodes1 i = some n := by rw [nodeAt, same _ (Nat.zero_le _) hi]; exact hm
          rw [e]
          simp only [reached, hm']
          rw [ihl _ h1 (fun j hj => hin j (by simp [e, hj])), ihr _ h2 (fun j hj => hin j (by simp [e, hj]))]
      rw [reach _ _ h1 h2]; exact h2
    have qa : a ∈ q := hp.mem_iff.mp (by simp)
    have qb : b ∈ q := hp.mem_iff.mp (by simp)
    have q2q : ∀ i ∈ q2, i ∈ q := fun i hi => hp.mem_iff.mp (by simp [hi])
    have hnode : nodeAt nodes1 (BitVec.ofNat 9 next) = some
        (innerNode (nfreqAt nodes a + nfreqAt nodes b) (BitVec.ofNat 9 a) (BitVec.ofNat 9 b)) := by
      rw [nodeAt_ofNat _ _ (by omega), hnodes1, getElem?_setNode _ _ _ _ (by omega), if_pos rfl]
    let g : Nat → CodeTree := fun i => if i = next then .node (f a) (f b) else f i
    have g2 : ∀ i ∈ q2, g i = f i := fun i hi => by
      have := hq2 i hi; simp only [g]; rw [if_neg (by omega)]
    have gn : g next = .node (f a) (f b) := by simp [g]
    obtain ⟨root, t, hr, ht, hperm, hnd, hin⟩ := ih (next + 1) (next :: q2) nodes1 g hn' hlt' hl' (by omega) (by
      intro i hi
      rcases List.mem_cons.mp hi with rfl | hi
      · rw [gn]
        refine ⟨(holds_node_iff _ _ _ _).mpr ⟨_, hnode, rfl, (keep a qa).1, (keep b qb).1⟩, ?_⟩
        intro j hj
        simp only [reached, hnode, innerNode, List.mem_cons, List.mem_append] at hj
        rcases hj with rfl | hj | hj
        · rw [BitVec.toNat_ofNat]; exact lt_of_le_of_lt (Nat.mod_le _ _) (by omega)
        · have := (keep a qa).2 j hj; omega
        · have := (keep b qb).2 j hj; omega
      · rw [g2 i hi]
        exact ⟨(keep i (q2q i hi)).1, fun j hj => by have := (keep i (q2q i hi)).2 j hj; omega⟩)
    have hperm' : (q.flatMap fun i => (f i).symbols).Perm ((next :: q2).flatMap fun i => (g i).symbols) := by
      have e : (q2.flatMap fun i => (f i).symbols) = q2.flatMap fun i => (g i).symbols :=
        List.flatMap_congr fun i hi => by rw [g2 i hi]
      refine (hp.symm.flatMap_right _).trans ?_
      simp only [List.flatMap_cons, gn, CodeTree.symbols, e, List.append_assoc]
      exact List.Perm.refl _
    refine ⟨root, t, .inr ⟨by omega, ?_⟩, by rw [he]; exact ht, hperm.trans hperm'.symm, fun _ => ?_,
      fun j hj => by rw [he] at hj; have := hin j hj; omega⟩
    · rcases hr with ⟨hr, hm⟩ | ⟨_, hr⟩
      · subst hm
        simp only [List.length_cons] at hl'
        have : q2 = [] := List.length_eq_zero_iff.mp (by omega)
        subst this
        simp only [List.mem_singleton] at hr
        omega
      · omega
    · by_cases hm : 0 < m
      · exact hnd hm
      · obtain rfl : m = 0 := by omega
        rcases hr with ⟨hr, _⟩ | ⟨h, _⟩
        · have hq : q2 = [] := by
            simp only [List.length_cons] at hl'; exact List.length_eq_zero_iff.mp (by omega)
          subst hq
          simp only [List.mem_singleton] at hr
          subst hr
          have hh : holds (mergeAll 0 (root + 1) [root] nodes1) (BitVec.ofNat 9 root) (.node (f a) (f b)) = true := by
            exact (holds_node_iff _ _ _ _).mpr ⟨_, hnode, rfl, (keep a qa).1, (keep b qb).1⟩
          exact ⟨_, _, holds_unique _ _ _ _ ht hh⟩
        · omega

end Sys2Proof.Machine
end

