-- ==== Sys2Proof/Laws/Built.lean ====
section
/-! SUPPORT. The node memory BUILD leaves: it is a function of FREQ (R108), it holds a tree over the
present symbols (R110), and its frequencies add up (R109). -/

namespace Sys2Proof.Machine

/-! ## BUILD's result depends on FREQ alone -/

theorem extractMin_congr {nodes nodes' : Nodes} (x : Nat) (q : List Nat)
    (h : ∀ i ∈ x :: q, nodes'[i]? = nodes[i]?) : extractMin nodes' x q = extractMin nodes x q := by
  induction q generalizing x with
  | nil => rfl
  | cons y q ih =>
    rw [extractMin, extractMin, precedes_congr (h y (by simp)) (h x (by simp)),
      ih y (fun i hi => h i (List.mem_cons_of_mem _ hi)),
      ih x (fun i hi => h i (by rcases List.mem_cons.mp hi with rfl | hi <;> simp_all))]

theorem popMin_congr {nodes nodes' : Nodes} (q : List Nat) (h : ∀ i ∈ q, nodes'[i]? = nodes[i]?) :
    popMin nodes' q = popMin nodes q := by
  cases q with
  | nil => rfl
  | cons x q => rw [popMin, popMin, extractMin_congr x q h]

/-- The merges read only the nodes below the next one. -/
theorem mergeAll_congr (m next : Nat) (q : List Nat) (nodes nodes' : Nodes) (hn : q.Nodup)
    (hlt : ∀ i ∈ q, i < next) (hl : q.length = m + 1) (hb : next + m ≤ 511)
    (h : ∀ j, j < next → nodes'[j]? = nodes[j]?) (j : Nat) (hj : j < next + m) :
    (mergeAll m next q nodes')[j]? = (mergeAll m next q nodes)[j]? := by
  induction m generalizing next q nodes nodes' with
  | zero => exact h j (by omega)
  | succ m ih =>
    obtain ⟨a, b, q1, q2, h1, h2, hp, hp1, ha, hb2⟩ := popMin_twice nodes q hn (by omega)
    obtain ⟨hn', hlt', hl', han, hbn, _, _, _, hq2⟩ := queue_next hp hn hlt (by omega)
    have h1' : popMin nodes' q = some (a, q1) := by
      rw [popMin_congr q (fun i hi => h i (hlt i hi)), h1]
    have h2' : popMin nodes' q1 = some (b, q2) := by
      rw [popMin_congr q1 (fun i hi => ?_), h2]
      rcases List.mem_cons.mp (hp1.mem_iff.mp hi) with rfl | hi
      · exact h _ hbn
      · exact h i (hq2 i hi)
    simp only [mergeAll, h1, h2, h1', h2']
    refine ih (next + 1) (next :: q2) _ _ hn' hlt' hl' (by omega) ?_ (by omega)
    intro k hk
    rw [getElem?_setNode _ _ _ _ (by omega), getElem?_setNode _ _ _ _ (by omega), nfreqAt_congr (h a han),
      nfreqAt_congr (h b hbn)]
    by_cases hkn : next = k
    · simp [hkn]
    · rw [if_neg hkn, if_neg hkn, h k (by omega)]

/-! ## The leaves BUILD starts from -/

/-- NODE with the leaves placed. -/
def leavesPlaced (f : Vector Word 256) (nodes : Nodes) : Nodes := placeLeaves f (presentSymbols f) 0 nodes

theorem builtNodes_eq (f : Vector Word 256) (nodes : Nodes) :
    builtNodes f nodes
      = mergeAll (leafCount f - 1) (leafCount f) (List.range (leafCount f)) (leavesPlaced f nodes) := rfl

theorem leavesPlaced_leaf (f : Vector Word 256) (nodes : Nodes) (k : Nat) (h : k < leafCount f) :
    (leavesPlaced f nodes)[k]?
      = some (leafNode ((presentSymbols f)[k]'h) (atSymbol f ((presentSymbols f)[k]'h))) := by
  have hl := leafCount_le f
  have h' : k < (presentSymbols f).length := h
  have hl' : (presentSymbols f).length ≤ 256 := hl
  rw [leavesPlaced, getElem?_placeLeaves _ _ _ _ (by omega), if_pos (by omega)]
  simp [h']
  rfl

theorem leavesPlaced_outside (f : Vector Word 256) (nodes : Nodes) (k : Nat) (h : leafCount f ≤ k) :
    (leavesPlaced f nodes)[k]? = nodes[k]? := by
  have hl' : (presentSymbols f).length ≤ 256 := leafCount_le f
  have h' : (presentSymbols f).length ≤ k := h
  rw [leavesPlaced, getElem?_placeLeaves _ _ _ _ (by omega), if_neg (by omega)]

/-- The leaves stay where they were placed (R102). -/
theorem builtNodes_leaf (f : Vector Word 256) (nodes : Nodes) (k : Nat) (h : k < leafCount f) :
    (builtNodes f nodes)[k]?
      = some (leafNode ((presentSymbols f)[k]'h) (atSymbol f ((presentSymbols f)[k]'h))) := by
  have hl := leafCount_le f
  rw [builtNodes_eq, mergeAll_outside _ _ _ _ (by omega) _ (.inl h), leavesPlaced_leaf f nodes k h]

/-- "BUILD writes only NODE[0 .. 2L − 2] (none when L = 0)" (R107). -/
theorem builtNodes_outside (f : Vector Word 256) (nodes : Nodes) (k : Nat)
    (h : 2 * leafCount f ≤ k + 1 ∨ leafCount f = 0) : (builtNodes f nodes)[k]? = nodes[k]? := by
  have hl := leafCount_le f
  by_cases h0 : leafCount f = 0
  · rw [builtNodes_eq, h0]
    exact leavesPlaced_outside f nodes k (by omega)
  · rw [builtNodes_eq, mergeAll_outside _ _ _ _ (by omega) _ (.inr (by omega)),
      leavesPlaced_outside f nodes k (by omega)]

/-- NODE[0 .. 2L − 2] is a function of FREQ alone (R108). -/
theorem builtNodes_congr (f : Vector Word 256) (nodes nodes' : Nodes) (k : Nat)
    (h : k + 1 < 2 * leafCount f) : (builtNodes f nodes')[k]? = (builtNodes f nodes)[k]? := by
  have hl := leafCount_le f
  rw [builtNodes_eq, builtNodes_eq]
  refine mergeAll_congr _ _ _ _ _ List.nodup_range (fun i hi => List.mem_range.mp hi) (by simp; omega)
    (by omega) (fun j hj => ?_) k (by omega)
  rw [leavesPlaced_leaf f nodes' j hj, leavesPlaced_leaf f nodes j hj]

/-! ## The tree -/

/-- BUILD of one or more symbols leaves a tree at ROOT, over exactly the present symbols (R110). -/
theorem builtNodes_tree (f : Vector Word 256) (nodes : Nodes) (h : leafCount f ≠ 0) :
    ∃ t, holds (builtNodes f nodes) (BitVec.ofNat 9 (builtRoot (leafCount f))) t = true ∧
      t.symbols.Perm (presentSymbols f) ∧ t.kind = builtKind (leafCount f) ∧
      ∀ j ∈ reached (builtNodes f nodes) (BitVec.ofNat 9 (builtRoot (leafCount f))) t,
        j.toNat + 1 < 2 * leafCount f := by
  have hl := leafCount_le f
  let g : Nat → CodeTree := fun i => .leaf (((presentSymbols f)[i]?).getD 0)
  have hg : ∀ i, (hi : i < leafCount f) → g i = .leaf ((presentSymbols f)[i]'hi) := fun i hi => by
    have hi' : i < (presentSymbols f).length := hi
    simp [g, hi']
    rfl
  have leaf : ∀ i, i < leafCount f → holds (leavesPlaced f nodes) (BitVec.ofNat 9 i) (g i) = true := by
    intro i hi
    rw [hg i hi]
    refine (holds_leaf_iff _ _ _).mpr
      ⟨leafNode ((presentSymbols f)[i]'hi) (atSymbol f ((presentSymbols f)[i]'hi)), ?_, rfl, rfl⟩
    rw [nodeAt_ofNat _ _ (by omega)]
    exact leavesPlaced_leaf f nodes i hi
  obtain ⟨root, t, hr, ht, hp, hnd, hin⟩ := mergeAll_tree (leafCount f - 1) (leafCount f) (List.range (leafCount f))
    (leavesPlaced f nodes) g List.nodup_range (fun i hi => List.mem_range.mp hi) (by simp; omega) (by omega)
    (by
      intro i hi
      refine ⟨leaf i (List.mem_range.mp hi), ?_⟩
      intro j hj
      simp only [g, reached, List.mem_singleton] at hj
      have := List.mem_range.mp hi
      subst hj
      rw [BitVec.toNat_ofNat, Nat.mod_eq_of_lt (by omega)]
      omega)
  have e : ((List.range (leafCount f)).flatMap fun i => (g i).symbols) = presentSymbols f := by
    have e1 : (List.range (leafCount f)).flatMap (fun i => (g i).symbols)
        = (List.range (leafCount f)).map fun i => ((presentSymbols f)[i]?).getD 0 := by
      simp only [g, CodeTree.symbols]
      induction List.range (leafCount f) with
      | nil => rfl
      | cons i l ih => rw [List.flatMap_cons, List.map_cons, ih]; rfl
    rw [e1]
    apply List.ext_getElem (by simp [leafCount])
    intro i h1 h2
    simp [h2]
  rw [e] at hp
  have hroot : root = builtRoot (leafCount f) := by
    simp only [builtRoot]
    rcases hr with ⟨hr, hm⟩ | ⟨hm, hr⟩
    · have := List.mem_range.mp hr
      rw [if_pos (by omega)]; omega
    · rw [if_neg (by omega)]; omega
  have hin' : ∀ j ∈ reached (builtNodes f nodes) (BitVec.ofNat 9 (builtRoot (leafCount f))) t,
      j.toNat + 1 < 2 * leafCount f := fun j hj => by
    rw [← hroot] at hj
    have := hin j hj
    omega
  refine ⟨t, by rw [← hroot]; exact ht, hp, ?_, hin'⟩
  simp only [builtKind, h, if_false]
  by_cases h1 : leafCount f = 1
  · rw [if_pos h1]
    cases t with
    | leaf s => rfl
    | node l r =>
      have := hp.length_eq
      have := l.one_le_symbols
      have := r.one_le_symbols
      simp only [CodeTree.symbols, List.length_append] at *
      have e2 : (presentSymbols f).length = leafCount f := rfl
      omega
  · rw [if_neg h1]
    obtain ⟨l, r, rfl⟩ := hnd (by omega)
    rfl

/-- L as Safety.lean counts it (R102). -/
theorem presentCount_eq (f : Vector Word 256) : presentCount f = leafCount f := by
  simp only [presentCount, leafCount, presentSymbols]
  congr 1
  apply List.filter_congr
  intro x _
  have : atSymbol f x ≠ 0 ↔ 0 < (atSymbol f x).toNat := by
    rw [Nat.pos_iff_ne_zero, not_iff_not, ← BitVec.toNat_inj]; rfl
  exact decide_eq_decide.mpr this

/-- The merge that writes NODE[L + m] (R104, R105). -/
theorem builtNodes_merge (f : Vector Word 256) (nodes : Nodes) (m : Nat) (hm : m + 1 < leafCount f) :
    ∃ a b, (builtNodes f nodes)[leafCount f + m]? = some
        (innerNode (nfreqAt (builtNodes f nodes) a + nfreqAt (builtNodes f nodes) b) (BitVec.ofNat 9 a)
          (BitVec.ofNat 9 b)) ∧
      InQueue (builtNodes f nodes) (leafCount f) m a ∧ InQueue (builtNodes f nodes) (leafCount f) m b ∧
      precedes (builtNodes f nodes) a b = true ∧
      ∀ j, InQueue (builtNodes f nodes) (leafCount f) m j → j ≠ a → j ≠ b →
        precedes (builtNodes f nodes) b j = true := by
  have hl := leafCount_le f
  obtain ⟨a, b, h1, h2, h3, ⟨_, h4⟩, ⟨_, h5⟩, h6, h7⟩ := mergeAll_merges (leafCount f - 1) (leafCount f)
    (List.range (leafCount f)) (leavesPlaced f nodes) List.nodup_range (fun i hi => List.mem_range.mp hi)
    (by simp; omega) (by omega) m (by omega)
  have hto : ∀ j, unused (builtNodes f nodes) (leafCount f) (leafCount f + m) j ↔
      ∀ k, k < m → ∀ n, (builtNodes f nodes)[leafCount f + k]? = some n → n.left.toNat ≠ j ∧ n.right.toNat ≠ j := by
    intro j
    refine ⟨fun h k hk => h _ (by omega) (by omega), fun h k hk1 hk2 => ?_⟩
    have := h (k - leafCount f) (by omega)
    rwa [show leafCount f + (k - leafCount f) = k by omega] at this
  refine ⟨a, b, h1, ⟨h2, (hto a).mp h4⟩, ⟨h3, (hto b).mp h5⟩, h6, fun j ⟨hj, hq⟩ ha hb => h7 j ⟨?_, (hto j).mpr hq⟩ ha hb⟩
  by_cases hjl : j < leafCount f
  · exact .inl (List.mem_range.mpr hjl)
  · exact .inr ⟨by omega, hj⟩

/-! ## The frequencies -/

/-- NFREQ of an index as a number. -/
def nfreqNat (nodes : Nodes) (i : Nat) : Nat := (nfreqAt nodes i).toNat

/-- Each merge's NFREQ is its children's sum, without overflow, and the last node holds the queue's
whole frequency (R109). -/
theorem mergeAll_freq (m next : Nat) (q : List Nat) (nodes : Nodes) (hn : q.Nodup) (hlt : ∀ i ∈ q, i < next)
    (hl : q.length = m + 1) (hb : next + m ≤ 511) (hs : (q.map (nfreqNat nodes)).sum < 2 ^ 32) :
    let t := mergeAll m next q nodes
    (∀ k, next ≤ k → k < next + m → ∃ n, t[k]? = some n ∧ n.isLeaf = false ∧
        n.nfreq.toNat = nfreqNat t n.left.toNat + nfreqNat t n.right.toNat) ∧
      (0 < m → nfreqNat t (next + m - 1) = (q.map (nfreqNat nodes)).sum) := by
  induction m generalizing next q nodes with
  | zero => exact ⟨fun k h1 h2 => by omega, fun h => by omega⟩
  | succ m ih =>
    obtain ⟨a, b, q2, hp, ha, hb2, he⟩ := mergeAll_succ m next q nodes hn (by omega)
    obtain ⟨hn', hlt', hl', han, hbn, hab, haq, hbq, hq2⟩ := queue_next hp hn hlt (by omega)
    have hsum : (q.map (nfreqNat nodes)).sum
        = nfreqNat nodes a + nfreqNat nodes b + (q2.map (nfreqNat nodes)).sum := by
      rw [← (hp.map (nfreqNat nodes)).sum_eq]; simp [Nat.add_assoc]
    set nodes1 := setNode nodes next
      (innerNode (nfreqAt nodes a + nfreqAt nodes b) (BitVec.ofNat 9 a) (BitVec.ofNat 9 b)) with hnodes1
    have at1 : nodes1[next]? = some
        (innerNode (nfreqAt nodes a + nfreqAt nodes b) (BitVec.ofNat 9 a) (BitVec.ofNat 9 b)) := by
      rw [hnodes1, getElem?_setNode _ _ _ _ (by omega), if_pos rfl]
    have low1 : ∀ j, j < next → nodes1[j]? = nodes[j]? := fun j hj => by
      rw [hnodes1, getElem?_setNode _ _ _ _ (by omega), if_neg (by omega)]
    have hnext : nfreqNat nodes1 next = nfreqNat nodes a + nfreqNat nodes b := by
      rw [nfreqNat, nfreqAt, at1]
      simp only [Option.map_some, Option.getD_some, innerNode, BitVec.toNat_add]
      rw [Nat.mod_eq_of_lt]
      · rfl
      · simp only [nfreqNat] at hsum hs; omega
    have hsum' : ((next :: q2).map (nfreqNat nodes1)).sum = (q.map (nfreqNat nodes)).sum := by
      rw [hsum, List.map_cons, List.sum_cons, hnext]
      congr 2
      apply List.map_congr_left
      intro i hi
      rw [nfreqNat, nfreqNat, nfreqAt_congr (low1 i (hq2 i hi))]
    obtain ⟨h1, h2⟩ := ih (next + 1) (next :: q2) nodes1 hn' hlt' hl' (by omega) (by rw [hsum']; exact hs)
    simp only [he]
    set t := mergeAll m (next + 1) (next :: q2) nodes1 with ht
    have low : ∀ j, j < next + 1 → t[j]? = nodes1[j]? := fun j hj => by
      rw [ht, mergeAll_outside _ _ _ _ (by omega) _ (.inl hj)]
    refine ⟨fun k hk1 hk2 => ?_, fun _ => ?_⟩
    · by_cases hk : k = next
      · subst hk
        refine ⟨_, by rw [low k (by omega), at1], rfl, ?_⟩
        have e1 : (BitVec.ofNat 9 a).toNat = a := by
          rw [BitVec.toNat_ofNat]; exact Nat.mod_eq_of_lt (by omega)
        have e2 : (BitVec.ofNat 9 b).toNat = b := by
          rw [BitVec.toNat_ofNat]; exact Nat.mod_eq_of_lt (by omega)
        simp only [innerNode, e1, e2]
        have ea : nfreqNat t a = nfreqNat nodes a := by
          rw [nfreqNat, nfreqNat, nfreqAt_congr ((low a (by omega)).trans (low1 a han))]
        have eb : nfreqNat t b = nfreqNat nodes b := by
          rw [nfreqNat, nfreqNat, nfreqAt_congr ((low b (by omega)).trans (low1 b hbn))]
        have en : (nfreqAt nodes a + nfreqAt nodes b).toNat = nfreqNat nodes1 k := by
          simp only [nfreqNat, nfreqAt, at1, Option.map_some, Option.getD_some, innerNode]
        rw [ea, eb, ← hnext, en]
      · exact h1 k (by omega) (by omega)
    · by_cases hm : 0 < m
      · rw [← hsum', ← h2 hm]; congr 1; omega
      · obtain rfl : m = 0 := by omega
        simp only [List.length_cons] at hl'
        have : q2 = [] := List.length_eq_zero_iff.mp (by omega)
        subst this
        simp only [List.map_nil, List.sum_nil, Nat.add_zero] at hsum
        have hlast : nfreqNat t next = nfreqNat nodes1 next := by
          rw [nfreqNat, nfreqNat, nfreqAt_congr (low next (by omega))]
        rw [hsum, ← hnext]; simpa using hlast

/-- The leaves' frequencies add up to FREQ's sum. -/
theorem sum_leaves (f : Vector Word 256) (nodes : Nodes) :
    ((List.range (leafCount f)).map (nfreqNat (leavesPlaced f nodes))).sum = freqSum f := by
  have e : (List.range (leafCount f)).map (nfreqNat (leavesPlaced f nodes))
      = (presentSymbols f).map fun x => (atSymbol f x).toNat := by
    apply List.ext_getElem (by simp [leafCount])
    intro i h1 h2
    simp only [List.length_map, List.length_range] at h1
    simp only [List.getElem_map, List.getElem_range, nfreqNat, nfreqAt, leavesPlaced_leaf f nodes i h1]
    rfl
  have filt : ∀ l : List Symbol, ((l.filter fun s => decide (0 < (atSymbol f s).toNat)).map
      fun x => (atSymbol f x).toNat).sum = (l.map fun x => (atSymbol f x).toNat).sum := by
    intro l
    induction l with
    | nil => rfl
    | cons a l ih =>
      by_cases h : 0 < (atSymbol f a).toNat
      · rw [List.filter_cons_of_pos (by simpa using h)]; simp [ih]
      · rw [List.filter_cons_of_neg (by simpa using h), ih]; simp; omega
  rw [e, freqSum_eq, presentSymbols, filt]

/-- The frequency invariant of a built tree (R109). -/
theorem builtNodes_freq (f : Vector Word 256) (nodes : Nodes) (h : leafCount f ≠ 0) (hs : freqSum f < 2 ^ 32) :
    (∀ k, leafCount f ≤ k → k + 1 < 2 * leafCount f → ∃ n, (builtNodes f nodes)[k]? = some n ∧
        n.isLeaf = false ∧
        n.nfreq.toNat = nfreqNat (builtNodes f nodes) n.left.toNat + nfreqNat (builtNodes f nodes) n.right.toNat) ∧
      nfreqNat (builtNodes f nodes) (builtRoot (leafCount f)) = freqSum f := by
  have hl := leafCount_le f
  obtain ⟨h1, h2⟩ := mergeAll_freq (leafCount f - 1) (leafCount f) (List.range (leafCount f))
    (leavesPlaced f nodes) List.nodup_range (fun i hi => List.mem_range.mp hi) (by simp; omega) (by omega)
    (by rw [sum_leaves]; exact hs)
  rw [← builtNodes_eq, sum_leaves] at *
  refine ⟨fun k hk1 hk2 => h1 k hk1 (by omega), ?_⟩
  simp only [builtRoot]
  by_cases h1' : leafCount f ≤ 1
  · rw [if_pos h1', ← sum_leaves f nodes]
    have e : leafCount f = 1 := by omega
    have hlow : (builtNodes f nodes)[0]? = (leavesPlaced f nodes)[0]? := by
      rw [builtNodes_eq, mergeAll_outside _ _ _ _ (by omega) _ (.inl (by omega))]
    rw [e]
    simp [nfreqNat, nfreqAt_congr hlow]
  · rw [if_neg h1', ← h2 (by omega)]
    congr 1; omega

end Sys2Proof.Machine
end

