-- ==== Sys2Proof/Laws/Bus.lean ====
section
/-! SUPPORT. What a bus transaction reaches, by its offset, and everything it can do. -/

namespace Sys2Proof.Machine

theorem target_regOffset (r : Reg) : target (regOffset r) = .reg r := by cases r <;> decide

theorem regOffset_lt (r : Reg) : regOffset r < 0x048 := by cases r <;> decide

theorem regOffset_mod (r : Reg) : regOffset r % 4 = 0 := by cases r <;> decide

/-- The aligned offsets below 0x048 are the registers' (R17). -/
theorem exists_regOffset (off : Nat) (h : off < 0x048) (h4 : off % 4 = 0) : ∃ r, regOffset r = off := by
  have : ∀ k, k < 18 → ∃ r, regOffset r = 4 * k := by
    intro k hk
    interval_cases k
    exacts [⟨.id, rfl⟩, ⟨.version, rfl⟩, ⟨.ctrl, rfl⟩, ⟨.status, rfl⟩, ⟨.cmd, rfl⟩, ⟨.srcAddr, rfl⟩,
      ⟨.srcLen, rfl⟩, ⟨.dstAddr, rfl⟩, ⟨.dstCap, rfl⟩, ⟨.outLen, rfl⟩, ⟨.dataBits, rfl⟩, ⟨.symCount, rfl⟩,
      ⟨.total, rfl⟩, ⟨.leaves, rfl⟩, ⟨.root, rfl⟩, ⟨.maxLen, rfl⟩, ⟨.errCode, rfl⟩, ⟨.errAddr, rfl⟩]
  obtain ⟨r, hr⟩ := this (off / 4) (by omega)
  exact ⟨r, by omega⟩

theorem target_freq (off : Nat) (h : 0x0400 ≤ off) (h' : off < 0x0800) :
    target off = .freq (BitVec.ofNat 8 ((off - 0x0400) / 4)) := by
  rw [target, if_neg (by omega), if_pos ⟨h, h'⟩]

theorem target_codeLen (off : Nat) (h : 0x0800 ≤ off) (h' : off < 0x0C00) :
    target off = .codeLen (BitVec.ofNat 8 ((off - 0x0800) / 4)) := by
  rw [target, if_neg (by omega), if_neg (by omega), if_pos ⟨h, h'⟩]

theorem target_node (off : Nat) (h : 0x1000 ≤ off) (h' : off < 0x1FF8) :
    target off = if (off - 0x1000) % 8 = 0 then .nodeFreq ((off - 0x1000) / 8)
      else .nodeLinks ((off - 0x1000) / 8) := by
  rw [target, if_neg (by omega), if_neg (by omega), if_neg (by omega), if_pos ⟨h, h'⟩]

theorem target_codeVal (off : Nat) (h : 0x2000 ≤ off) (h' : off < 0x4000) :
    target off = .codeVal (BitVec.ofNat 8 ((off - 0x2000) / 32)) ((off - 0x2000) % 32 / 4) := by
  rw [target, if_neg (by omega), if_neg (by omega), if_neg (by omega), if_neg (by omega), if_pos ⟨h, h'⟩]

theorem target_reserved (off : Nat)
    (h : 0x048 ≤ off ∧ off < 0x0400 ∨ 0x0C00 ≤ off ∧ off < 0x1000 ∨ 0x1FF8 ≤ off ∧ off < 0x2000 ∨ 0x4000 ≤ off) :
    target off = .reserved := by
  rw [target, if_neg (by omega), if_neg (by omega), if_neg (by omega), if_neg (by omega), if_neg (by omega)]

/-- An aligned offset below 0x10000 reaches a register, a table window, or nothing (R17, R18). -/
theorem target_cases (off : Nat) (h4 : off % 4 = 0) :
    (∃ r, off = regOffset r ∧ target off = .reg r) ∨
    ((0x0400 ≤ off ∧ off < 0x0C00 ∨ 0x1000 ≤ off ∧ off < 0x1FF8 ∨ 0x2000 ≤ off ∧ off < 0x4000) ∧
      target off ≠ .reserved ∧ ∀ r, target off ≠ .reg r) ∨
    ((0x048 ≤ off ∧ off < 0x0400 ∨ 0x0C00 ≤ off ∧ off < 0x1000 ∨ 0x1FF8 ≤ off ∧ off < 0x2000 ∨ 0x4000 ≤ off) ∧
      target off = .reserved) := by
  by_cases h0 : off < 0x048
  · left
    obtain ⟨r, rfl⟩ := exists_regOffset off h0 h4
    exact ⟨r, rfl, target_regOffset r⟩
  right
  by_cases h1 : 0x0400 ≤ off ∧ off < 0x0800
  · left; rw [target_freq off h1.1 h1.2]; exact ⟨by omega, by simp, by simp⟩
  by_cases h2 : 0x0800 ≤ off ∧ off < 0x0C00
  · left; rw [target_codeLen off h2.1 h2.2]; exact ⟨by omega, by simp, by simp⟩
  by_cases h3 : 0x1000 ≤ off ∧ off < 0x1FF8
  · left; rw [target_node off h3.1 h3.2]; exact ⟨by omega, by split <;> simp, by split <;> simp⟩
  by_cases h5 : 0x2000 ≤ off ∧ off < 0x4000
  · left; rw [target_codeVal off h5.1 h5.2]; exact ⟨by omega, by simp, by simp⟩
  · right; exact ⟨by omega, target_reserved off (by omega)⟩

/-- A 4-byte transaction at an aligned offset below 0x10000. -/
theorem busStep_low (op : BusOp) (addr : BusAddr) (w : Word) (s : State) (h : addr.toNat < 0x10000)
    (h4 : addr.toNat % 4 = 0) :
    busStep { op := op, addr := addr, size := .four, wdata := w } s
      = match op with
        | .read => readTarget (target addr.toNat) s
        | .write => writeTarget (target addr.toNat) w s := by
  simp only [busStep]
  rw [if_neg (by simpa [sizeBytes] using h4), if_pos h]
  rfl

/-- A 4-byte READ of a register. -/
theorem busStep_read_reg (r : Reg) (addr : BusAddr) (w : Word) (s : State) (h : addr.toNat = regOffset r) :
    busStep { op := .read, addr := addr, size := .four, wdata := w } s = readTarget (.reg r) s := by
  have := regOffset_lt r
  have := regOffset_mod r
  rw [busStep_low _ _ _ _ (by omega) (by omega), h, target_regOffset]

/-- A 4-byte WRITE of a register. -/
theorem busStep_write_reg (r : Reg) (addr : BusAddr) (w : Word) (s : State) (h : addr.toNat = regOffset r) :
    busStep { op := .write, addr := addr, size := .four, wdata := w } s = writeReg r w s := by
  have := regOffset_lt r
  have := regOffset_mod r
  rw [busStep_low _ _ _ _ (by omega) (by omega), h, target_regOffset]
  rfl

/-- The ways a transaction can go: refused with a bus error, a mapped word below 0x10000, or BUF (R54, R55,
R57). -/
theorem busStep_cases (t : Txn) (s : State) :
    ((t.addr.toNat % 4 ≠ 0 ∨ t.size ≠ .four ∨ 0x10000 ≤ t.addr.toNat) ∧ busStep t s = busError s) ∨
    (t.addr.toNat < 0x10000 ∧ t.addr.toNat % 4 = 0 ∧ t.size = .four ∧ t.op = .read ∧
      busStep t s = readTarget (target t.addr.toNat) s) ∨
    (t.addr.toNat < 0x10000 ∧ t.addr.toNat % 4 = 0 ∧ t.size = .four ∧ t.op = .write ∧
      busStep t s = writeTarget (target t.addr.toNat) t.wdata s) ∨
    (s.busy = false ∧ 0x10000 ≤ t.addr.toNat ∧ inBuf s (t.addr.toNat - 0x10000) (sizeBytes t.size) = true ∧
      busStep t s = match t.op with
        | .read => busData (BitVec.ofNat 32 (s.memRead (t.addr.toNat - 0x10000) (sizeBytes t.size))) s
        | .write => busOkay (s.memWrite (t.addr.toNat - 0x10000) (sizeBytes t.size) t.wdata.toNat)) := by
  unfold busStep
  by_cases h1 : t.addr.toNat % sizeBytes t.size ≠ 0
  · left
    refine ⟨?_, by rw [if_pos h1]⟩
    by_cases h3 : t.size = .four
    · left; simpa [h3, sizeBytes] using h1
    · exact .inr (.inl h3)
  rw [if_neg h1]
  by_cases h2 : t.addr.toNat < 0x10000
  · rw [if_pos h2]
    by_cases h3 : t.size ≠ .four
    · left; exact ⟨.inr (.inl h3), by rw [if_pos h3]⟩
    · rw [if_neg h3]
      have h3' : t.size = .four := by simpa using h3
      have h4 : t.addr.toNat % 4 = 0 := by simpa [h3', sizeBytes] using h1
      right
      cases h : t.op with
      | read => left; exact ⟨h2, h4, h3', rfl, rfl⟩
      | write => right; left; exact ⟨h2, h4, h3', rfl, rfl⟩
  · rw [if_neg h2]
    by_cases hb : s.busy = true
    · left; exact ⟨.inr (.inr (by omega)), by simp [bufTxn, hb]⟩
    by_cases hi : inBuf s (t.addr.toNat - 0x10000) (sizeBytes t.size) = true
    · right; right; right
      refine ⟨by simpa using hb, by omega, hi, ?_⟩
      simp only [bufTxn, hi]
      exact (if_neg (by simpa using hb)).trans rfl
    · left; exact ⟨.inr (.inr (by omega)), by simp [bufTxn, hi]⟩

/-- What a READ of a mapped word can change: the response, and the draw counter (R56). -/
theorem readTarget_frame (t : Target) (s : State) :
    readTarget t s = { s with response := (readTarget t s).response, draws := (readTarget t s).draws } := by
  unfold readTarget
  cases t <;> simp only <;> (try split) <;> rfl

end Sys2Proof.Machine
end

