-- ==== Sys2Proof/Laws/Exec.lean ====
section
/-! SUPPORT. Everything a command can do: one lemma per command that names every way its execution can
end. -/

namespace Sys2Proof.Machine

/-! ## Checks -/

@[simp] theorem firstError_nil : firstError [] = none := rfl

@[simp] theorem firstError_none (cs : List (Option CmdError)) : firstError (none :: cs) = firstError cs := rfl

@[simp] theorem firstError_some (e : CmdError) (cs : List (Option CmdError)) :
    firstError (some e :: cs) = some e := rfl

theorem checkSrc_eq (s : State) :
    checkSrc s = if s.srcAddr.toNat + s.srcLen.toNat ≤ s.cfg.bufSize then none
      else some ⟨.range, s.srcAddr.toNat⟩ :=
  if_congr (by simp [inBuf, State.srcStart, State.srcCount]) rfl rfl

theorem checkDst_eq (s : State) :
    checkDst s = if s.dstAddr.toNat + s.dstCap.toNat ≤ s.cfg.bufSize then none
      else some ⟨.range, s.dstAddr.toNat⟩ :=
  if_congr (by simp [inBuf, State.dstStart, State.dstRoom]) rfl rfl

theorem checkApart_eq (s : State) :
    checkApart s = if 0 < s.srcLen.toNat ∧ 0 < s.dstCap.toNat ∧
        s.srcAddr.toNat < s.dstAddr.toNat + s.dstCap.toNat ∧
        s.dstAddr.toNat < s.srcAddr.toNat + s.srcLen.toNat then some ⟨.overlap, s.dstAddr.toNat⟩
      else none :=
  if_congr (by simp [overlap, State.srcStart, State.srcCount, State.dstStart, State.dstRoom, and_assoc]) rfl rfl

/-- The three ways the range checks can end (R90). -/
theorem rangeChecks_cases (s : State) :
    (RangesLegal s ∧ firstError (rangeChecks s) = none) ∨
      (s.cfg.bufSize < s.srcAddr.toNat + s.srcLen.toNat ∧
        firstError (rangeChecks s) = some ⟨.range, s.srcAddr.toNat⟩) ∨
      (s.srcAddr.toNat + s.srcLen.toNat ≤ s.cfg.bufSize ∧ s.cfg.bufSize < s.dstAddr.toNat + s.dstCap.toNat ∧
        firstError (rangeChecks s) = some ⟨.range, s.dstAddr.toNat⟩) ∨
      (s.srcAddr.toNat + s.srcLen.toNat ≤ s.cfg.bufSize ∧ s.dstAddr.toNat + s.dstCap.toNat ≤ s.cfg.bufSize ∧
        0 < s.srcLen.toNat ∧ 0 < s.dstCap.toNat ∧ s.srcAddr.toNat < s.dstAddr.toNat + s.dstCap.toNat ∧
        s.dstAddr.toNat < s.srcAddr.toNat + s.srcLen.toNat ∧
        firstError (rangeChecks s) = some ⟨.overlap, s.dstAddr.toNat⟩) := by
  rw [rangeChecks, checkSrc_eq, checkDst_eq, checkApart_eq]
  by_cases h1 : s.srcAddr.toNat + s.srcLen.toNat ≤ s.cfg.bufSize
  · by_cases h2 : s.dstAddr.toNat + s.dstCap.toNat ≤ s.cfg.bufSize
    · by_cases h3 : 0 < s.srcLen.toNat ∧ 0 < s.dstCap.toNat ∧
          s.srcAddr.toNat < s.dstAddr.toNat + s.dstCap.toNat ∧
          s.dstAddr.toNat < s.srcAddr.toNat + s.srcLen.toNat
      · right; right; right
        exact ⟨h1, h2, h3.1, h3.2.1, h3.2.2.1, h3.2.2.2, by rw [if_pos h1, if_pos h2, if_pos h3]; rfl⟩
      · left
        exact ⟨⟨h1, h2, by omega⟩, by rw [if_pos h1, if_pos h2, if_neg h3]; rfl⟩
    · right; right; left
      exact ⟨h1, by omega, by rw [if_pos h1, if_neg h2]; rfl⟩
  · right; left
    exact ⟨by omega, by rw [if_neg h1]; rfl⟩

theorem rangeChecks_legal {s : State} (h : RangesLegal s) : firstError (rangeChecks s) = none := by
  have h1 := h.src
  have h2 := h.dst
  have h3 := h.apart
  rcases rangeChecks_cases s with ⟨_, h⟩ | ⟨h, _⟩ | ⟨_, h, _⟩ | ⟨_, _, _, _, _, _, _⟩
  · exact h
  all_goals omega

theorem completeOk_eq (s : State) : completeOk s = succeeded s := rfl

theorem raiseError_eq (c : ErrCode) (a : Nat) (s : State) : raiseError ⟨c, a⟩ s = failedWith c a s := rfl

/-! ## No walk over a tree raises an error -/

theorem walk_no_raise (nodes : Nodes) (fuel : Nat) (i : NodeIdx) (d v : Nat) (t : CodeTable) (e : CmdError) :
    walk nodes fuel i d v t ≠ .raise e := by
  induction fuel generalizing i d v t with
  | zero => simp [walk]
  | succ fuel ih =>
    simp only [walk]
    cases nodeAt nodes i with
    | none => simp
    | some n =>
      simp only
      split
      · simp
      · cases h : walk nodes fuel n.left (d + 1) (2 * v) t with
        | ok t' => exact ih _ _ _ _
        | raise e' => exact fun he => ih _ _ _ _ (h.trans he)
        | fault f => simp

theorem codesOf_no_raise (kind : TreeKind) (nodes : Nodes) (root : NodeIdx) (e : CmdError) :
    codesOf kind nodes root ≠ .raise e := by
  cases kind with
  | empty => simp [codesOf]
  | single => simp only [codesOf]; cases nodeAt nodes root <;> simp
  | multi => exact walk_no_raise _ _ _ _ _ _ _

theorem serialize_no_raise (nodes : Nodes) (fuel : Nat) (i : NodeIdx) (e : CmdError) :
    serialize nodes fuel i ≠ .raise e := by
  induction fuel generalizing i with
  | zero => simp [serialize]
  | succ fuel ih =>
    simp only [serialize]
    cases nodeAt nodes i with
    | none => simp
    | some n =>
      simp only
      split
      · simp
      · cases hl : serialize nodes fuel n.left with
        | ok l =>
          simp only
          cases hr : serialize nodes fuel n.right with
          | ok r => simp
          | raise e' => exact fun he => ih _ (hr.trans he)
          | fault f => simp
        | raise e' => exact fun he => ih _ (hl.trans he)
        | fault f => simp

theorem payload_no_raise (s : State) (x : List Symbol) (e : CmdError) : payload s x ≠ .raise e := by
  simp only [payload]
  split
  · simp
  · cases h : serialize s.node maxPath s.root with
    | ok t => simp
    | raise e' => exact absurd h (serialize_no_raise _ _ _ _)
    | fault f => simp

/-! ## NOP, COUNT, BUILD, GENCODE -/

theorem exec_nop (s : State) : exec .nop s = .next (succeeded s) := rfl

theorem exec_build (s : State) : exec .build s = .next (succeeded (built s)) := rfl

/-- The three ways COUNT can end (R97). -/
theorem exec_count_cases (acc : Bool) (s : State) :
    (s.cfg.bufSize < s.srcAddr.toNat + s.srcLen.toNat ∧
      exec (.count acc) s = .next (failedWith .range s.srcAddr.toNat s)) ∨
    (s.srcAddr.toNat + s.srcLen.toNat ≤ s.cfg.bufSize ∧ 2 ^ 32 - 1 < countBase acc s + s.srcLen.toNat ∧
      exec (.count acc) s = .next (failedWith .overflow 0 s)) ∨
    (s.srcAddr.toNat + s.srcLen.toNat ≤ s.cfg.bufSize ∧ countBase acc s + s.srcLen.toNat ≤ 2 ^ 32 - 1 ∧
      exec (.count acc) s = .next (succeeded (counted acc s))) := by
  simp only [exec, execCount, checkSrc_eq, checkTotal, State.srcCount]
  by_cases h1 : s.srcAddr.toNat + s.srcLen.toNat ≤ s.cfg.bufSize
  · by_cases h2 : 2 ^ 32 - 1 < countBase acc s + s.srcLen.toNat
    · right; left
      exact ⟨h1, h2, by rw [if_pos h1, if_pos h2]; rfl⟩
    · right; right
      exact ⟨h1, by omega, by rw [if_pos h1, if_neg h2]; rfl⟩
  · left
    exact ⟨by omega, by rw [if_neg h1]; rfl⟩

/-- The ways GENCODE can answer a next state (R114). -/
theorem exec_gencode_cases {s t : State} (h : exec .gencode s = .next t) :
    (s.treeValid = false ∧ t = failedWith .sequence 0 s) ∨
      (s.treeValid = true ∧ ∃ tab, codesOf s.treeKind s.node s.root = .ok tab ∧ t = succeeded (coded tab s)) := by
  simp only [exec, execGencode, checkValid] at h
  cases hv : s.treeValid with
  | false =>
    left
    simp only [hv, Bool.false_eq_true, if_false, firstError_some] at h
    exact ⟨rfl, (Host.Outcome.next.inj h).symm⟩
  | true =>
    right
    simp only [hv, if_true, firstError_none, firstError_nil] at h
    cases hc : codesOf s.treeKind s.node s.root with
    | ok tab => rw [hc] at h; exact ⟨rfl, tab, rfl, (Host.Outcome.next.inj h).symm⟩
    | raise e => exact absurd hc (codesOf_no_raise _ _ _ _)
    | fault f => rw [hc] at h; simp at h

theorem exec_gencode_ok {s : State} {tab : CodeTable} (hv : s.treeValid = true)
    (hc : codesOf s.treeKind s.node s.root = .ok tab) :
    exec .gencode s = .next (succeeded (coded tab s)) := by
  simp only [exec, execGencode, checkValid, hv, if_true, firstError_none, firstError_nil, hc]
  rfl

/-! ## ENCODE -/

/-- The bytes before the first one with no code, or that there is none (R127). -/
theorem checkCodes_cases (s : State) (a : Nat) (xs : List Symbol) :
    (checkCodes s a xs = none ∧ ∀ x ∈ xs, atSymbol s.codeLen x ≠ 0) ∨
      ∃ i, ∃ h : i < xs.length, checkCodes s a xs = some ⟨.noCode, a + i⟩ ∧ atSymbol s.codeLen xs[i] = 0 ∧
        ∀ j, (hj : j < i) → atSymbol s.codeLen xs[j] ≠ 0 := by
  induction xs generalizing a with
  | nil => left; simp [checkCodes]
  | cons x xs ih =>
    by_cases hx : atSymbol s.codeLen x = 0
    · right
      exact ⟨0, by simp, by simp [checkCodes, hx], hx, fun j hj => absurd hj (Nat.not_lt_zero j)⟩
    · rcases ih (a + 1) with ⟨h1, h2⟩ | ⟨i, hi, h1, h2, h3⟩
      · left
        exact ⟨by rw [checkCodes, if_neg hx, h1], List.forall_mem_cons.mpr ⟨hx, h2⟩⟩
      · right
        refine ⟨i + 1, by simpa using hi, ?_, by simpa using h2, ?_⟩
        · rw [checkCodes, if_neg hx, h1, Nat.add_assoc, Nat.add_comm 1 i]
        · intro j hj
          cases j with
          | zero => simpa using hx
          | succ j => simpa using h3 j (by omega)

/-- The ways ENCODE can answer a next state (R127). -/
theorem exec_encode_cases {s t : State} (h : exec .encode s = .next t) :
    (s.codesValid = false ∧ t = failedWith .sequence 0 s) ∨
    (s.codesValid = true ∧ ∃ e, firstError (rangeChecks s) = some e ∧ t = raiseError e s) ∨
    (s.codesValid = true ∧ RangesLegal s ∧ ∃ e, checkCodes s s.srcStart s.source = some e ∧
      t = raiseError e (encodeFailed s)) ∨
    (s.codesValid = true ∧ RangesLegal s ∧ (∀ x ∈ s.source, atSymbol s.codeLen x ≠ 0) ∧
      ∃ p, payload s s.source = .ok p ∧
        ((s.dstCap.toNat < p.length ∧
            t = failedWith .dstFull (s.dstAddr.toNat + s.dstCap.toNat) (encodeFailed s)) ∨
          (p.length ≤ s.dstCap.toNat ∧ t = succeeded (encoded p s)))) := by
  simp only [exec, execEncode, encodeChecks, checkValid] at h
  cases hv : s.codesValid with
  | false =>
    left
    simp only [hv, Bool.false_eq_true, if_false, firstError_some] at h
    exact ⟨rfl, (Host.Outcome.next.inj h).symm⟩
  | true =>
    right
    simp only [hv, if_true, firstError_none] at h
    have legal : firstError (rangeChecks s) = none → RangesLegal s := by
      intro h0
      rcases rangeChecks_cases s with ⟨hl, _⟩ | ⟨_, h1⟩ | ⟨_, _, h1⟩ | ⟨_, _, _, _, _, _, h1⟩
      · exact hl
      all_goals rw [h0] at h1; simp at h1
    cases hr : firstError (rangeChecks s) with
    | some e => left; rw [hr] at h; exact ⟨rfl, e, rfl, (Host.Outcome.next.inj h).symm⟩
    | none =>
      right
      rw [hr] at h
      simp only at h
      rcases checkCodes_cases s s.srcStart s.source with ⟨hc, hall⟩ | ⟨i, hi, hc, _⟩
      · right
        rw [hc] at h
        simp only at h
        refine ⟨rfl, legal hr, hall, ?_⟩
        cases hp : payload s s.source with
        | ok p =>
          rw [hp] at h
          simp only [State.dstRoom] at h
          refine ⟨p, rfl, ?_⟩
          split at h
          · exact .inl ⟨‹_›, (Host.Outcome.next.inj h).symm⟩
          · exact .inr ⟨by omega, (Host.Outcome.next.inj h).symm⟩
        | raise e => exact absurd hp (payload_no_raise _ _ _)
        | fault f => rw [hp] at h; simp at h
      · left
        rw [hc] at h
        exact ⟨rfl, legal hr, _, hc, (Host.Outcome.next.inj h).symm⟩

/-- What an ENCODE that succeeds did (R127). -/
theorem exec_encode_done {s t : State} (h : exec .encode s = .next t) (hd : t.done = true) :
    s.codesValid = true ∧ RangesLegal s ∧ (∀ x ∈ s.source, atSymbol s.codeLen x ≠ 0) ∧
      ∃ p, payload s s.source = .ok p ∧ p.length ≤ s.dstCap.toNat ∧ t = succeeded (encoded p s) := by
  rcases exec_encode_cases h with ⟨_, rfl⟩ | ⟨_, ⟨c, a⟩, _, rfl⟩ | ⟨_, _, ⟨c, a⟩, _, rfl⟩ |
    ⟨h1, h2, h3, p, h4, ⟨_, rfl⟩ | ⟨h5, rfl⟩⟩
  · exact absurd hd Bool.false_ne_true
  · exact absurd hd Bool.false_ne_true
  · exact absurd hd Bool.false_ne_true
  · exact absurd hd Bool.false_ne_true
  · exact ⟨h1, h2, h3, p, h4, h5, rfl⟩

/-- The bytes outside the window after a command that left the window `any` (R149). -/
theorem readByte_anyWindow_outside (k : Nat) (s : State) (b : Nat)
    (h : b < s.dstAddr.toNat ∨ s.dstAddr.toNat + s.dstCap.toNat ≤ b) :
    (anyWindow k s).readByte b = s.readByte b := by
  rw [anyWindow, readByte_anyBytes, if_neg (by simp only [State.dstStart, State.dstRoom]; omega)]

/-- ENCODE past its pre-checks and its scan for codes (R127). -/
theorem exec_encode_ok {s : State} (hv : s.codesValid = true) (hr : RangesLegal s)
    (hc : ∀ x ∈ s.source, atSymbol s.codeLen x ≠ 0) {p : List Byte} (hp : payload s s.source = .ok p) :
    exec .encode s = if s.dstCap.toNat < p.length then
        .next (failedWith .dstFull (s.dstAddr.toNat + s.dstCap.toNat) (encodeFailed s))
      else .next (succeeded (encoded p s)) := by
  have h1 : checkCodes s s.srcStart s.source = none := by
    rcases checkCodes_cases s s.srcStart s.source with ⟨h, _⟩ | ⟨i, hi, _, h, _⟩
    · exact h
    · exact absurd h (hc _ (List.getElem_mem hi))
  simp only [exec, execEncode, encodeChecks, checkValid, hv, if_true, firstError_none, rangeChecks_legal hr,
    h1, hp]
  rfl

/-- The payload of a tree that NODE holds (R125). -/
theorem payload_holds (s : State) (x : List Symbol) (t : CodeTree)
    (h : x.length ≠ 0 → holds s.node s.root t = true ∧ t.symbols.Nodup) :
    payload s x = .ok (payloadOf x.length t (x.flatMap (code s))) := by
  by_cases h0 : x.length = 0
  · simp [payload, payloadOf, h0]
  · obtain ⟨h1, h2⟩ := h h0
    simp only [payload, payloadOf, h0, if_false, serialize_holds _ _ _ _ h1 (t.depth_lt_maxPath h2)]
    rfl

theorem length_payloadOf (n : Nat) (t : CodeTree) (d : Bits) :
    (payloadOf n t d).length = if n = 0 then 4 else 4 + (t.bits.length + 7) / 8 + (d.length + 7) / 8 := by
  simp only [payloadOf]
  split <;> simp [le32, Nat.add_assoc]

@[simp] theorem length_source (s : State) : s.source.length = s.srcLen.toNat := by
  simp [State.source, State.srcCount]

/-! ## DECODE -/

/-- The ways DECODE's body can end: a whole tree and all symbols, or one of its three errors (R136,
R139). -/
theorem decodeBody_total (s : State) (n : Nat) :
    (∃ (t : CodeTree) (cs : List (Symbol × Bits)), t.symbols.Nodup ∧ cs.length = n ∧
        (∀ c ∈ cs, c ∈ t.codes) ∧
        decodeBody s n = .ok
          { symbols := cs.map Prod.fst, bits := (codeBits cs).length, tree := loaded (loaderStart s.node) t }) ∨
      decodeBody s n = .raise ⟨.decTrunc, s.srcAddr.toNat + s.srcLen.toNat⟩ ∨
      (∃ a, decodeBody s n = .raise ⟨.decTree, a⟩) ∨ ∃ a, decodeBody s n = .raise ⟨.decCode, a⟩ := by
  simp only [decodeBody, State.srcStart, State.srcCount]
  rcases loadTree_total (s.bitAt (s.srcAddr.toNat + 4)) (s.srcAddr.toNat + 4) (8 * (s.srcLen.toNat - 4))
    (s.srcAddr.toNat + s.srcLen.toNat) s.node with ⟨t, ht, _, _, hl⟩ | hl | ⟨k, _, hl⟩
  · rw [hl]
    have hh := loaded_holds s.node t ht
    simp only [loadedKind_holds _ _ hh]
    rcases walkData_total
      (s.bitAt (s.srcAddr.toNat + 4 + ((loaded (loaderStart s.node) t).pos + 7) / 8))
      (s.srcAddr.toNat + 4 + ((loaded (loaderStart s.node) t).pos + 7) / 8)
      (8 * (s.srcAddr.toNat + s.srcLen.toNat
        - (s.srcAddr.toNat + 4 + ((loaded (loaderStart s.node) t).pos + 7) / 8)))
      (s.srcAddr.toNat + s.srcLen.toNat) _ t hh n 0 (Nat.zero_le _) with ⟨cs, h1, h2, _, _, hw⟩ | hw | ⟨_, k, _, _, _, hw⟩
    · left; exact ⟨t, cs, ht, h1, h2, by rw [hw]; simp⟩
    · right; left; rw [hw]
    · right; right; right; exact ⟨_, by rw [hw]⟩
  · right; left; rw [hl]
  · right; right; left; exact ⟨_, by rw [hl]⟩

/-- The ways DECODE can end; it always ends in a next state (R133). -/
theorem exec_decode_cases (s : State) :
    (∃ e, firstError (rangeChecks s) = some e ∧ exec .decode s = .next (raiseError e s)) ∨
    (RangesLegal s ∧ ∃ c a, (c = .decTrunc ∨ c = .dstFull ∨ c = .decTree ∨ c = .decCode) ∧
      exec .decode s = .next (failedWith c a (decodeFailed s))) ∨
    (RangesLegal s ∧ 4 ≤ s.srcLen.toNat ∧ headerCount s = 0 ∧
      exec .decode s = .next (succeeded (decodedEmpty s))) ∨
    (RangesLegal s ∧ 4 ≤ s.srcLen.toNat ∧ 0 < headerCount s ∧ headerCount s ≤ s.dstCap.toNat ∧
      ∃ (t : CodeTree) (cs : List (Symbol × Bits)), t.symbols.Nodup ∧ cs.length = headerCount s ∧
        (∀ c ∈ cs, c ∈ t.codes) ∧
        exec .decode s = .next (succeeded (decoded (headerCount s)
          { symbols := cs.map Prod.fst, bits := (codeBits cs).length, tree := loaded (loaderStart s.node) t }
          s))) := by
  simp only [exec, execDecode]
  rcases rangeChecks_cases s with ⟨hl, h0⟩ | ⟨_, h0⟩ | ⟨_, _, h0⟩ | ⟨_, _, _, _, _, _, h0⟩
  · right
    rw [h0]
    simp only [State.srcCount, State.dstRoom]
    by_cases h4 : s.srcLen.toNat < 4
    · left
      exact ⟨hl, .decTrunc, _, .inl rfl, by rw [if_pos h4]; rfl⟩
    rw [if_neg h4]
    by_cases hz : headerCount s = 0
    · right; left
      exact ⟨hl, by omega, hz, by rw [if_pos hz]; rfl⟩
    rw [if_neg hz]
    by_cases hd : s.dstCap.toNat < headerCount s
    · left
      exact ⟨hl, .dstFull, _, .inr (.inl rfl), by rw [if_pos hd]; rfl⟩
    rw [if_neg hd]
    rcases decodeBody_total s (headerCount s) with ⟨t, cs, h1, h2, h3, hb⟩ | hb | ⟨a, hb⟩ | ⟨a, hb⟩
    · right; right
      exact ⟨hl, by omega, by omega, by omega, t, cs, h1, h2, h3, by rw [hb]; rfl⟩
    · left; exact ⟨hl, .decTrunc, _, .inl rfl, by rw [hb]; rfl⟩
    · left; exact ⟨hl, .decTree, a, .inr (.inr (.inl rfl)), by rw [hb]; rfl⟩
    · left; exact ⟨hl, .decCode, a, .inr (.inr (.inr rfl)), by rw [hb]; rfl⟩
  all_goals left; exact ⟨_, h0, by rw [h0]⟩

/-- DECODE past its pre-checks and its header, by how its body ends (R133). -/
theorem exec_decode_body {s : State} (hr : RangesLegal s) (h4 : 4 ≤ s.srcLen.toNat) {n : Nat}
    (hn : headerCount s = n) (h0 : 0 < n) (hd : n ≤ s.dstCap.toNat) :
    exec .decode s = match decodeBody s n with
      | .ok r => .next (succeeded (decoded n r s))
      | .raise e => .next (raiseError e (decodeFailed s))
      | .fault f => .fault f := by
  subst hn
  have h1 : ¬s.srcCount < 4 := by simp only [State.srcCount]; omega
  have h2 : ¬headerCount s = 0 := by omega
  have h3 : ¬s.dstRoom < headerCount s := by simp only [State.dstRoom]; omega
  simp only [exec, execDecode, rangeChecks_legal hr]
  exact (if_neg h1).trans ((if_neg h2).trans ((if_neg h3).trans rfl))

/-- The header of a payload (R124, R134). -/
theorem headerCount_of_bytes {s : State} {n : Nat} (h : BytesAt s s.srcAddr.toNat (le32 n)) :
    headerCount s = n % 2 ^ 32 := by
  have e : s.readBytes s.srcAddr.toNat 4 = le32 n := by
    apply List.ext_getElem (by simp [le32])
    intro i h1 h2
    rw [getElem_readBytes _ _ _ _ (by simpa using h1)]
    exact h i h2
  rw [headerCount, State.memRead, State.srcStart, e, le32, leNumber_leBytes]
  rfl

end Sys2Proof.Machine
end

