-- ==== Sys2Proof/Laws/Coded.lean ====
section
/-! SUPPORT. The code table of a valid tree, and what GENCODE and ENCODE do with it in a state that has the
invariants of R49. -/

namespace Sys2Proof.Machine

theorem maxCodeLen_zero : maxCodeLen CodeTable.zero = 0 := by decide +kernel

theorem CodeTree.codes_prefix_free (t : CodeTree) (p q : Symbol × Bits) (hp : p ∈ t.codes) (hq : q ∈ t.codes)
    (h : p.2 <+: q.2) : p = q := by
  cases t with
  | leaf s => simp only [CodeTree.codes, List.mem_singleton] at hp hq; rw [hp, hq]
  | node l r => exact CodeTree.paths_prefix_free _ _ _ hp hq h

theorem CodeTree.exists_code (t : CodeTree) (x : Symbol) (h : x ∈ t.symbols) : ∃ c ∈ t.codes, c.1 = x := by
  rw [← t.map_fst_codes] at h
  exact List.mem_map.mp h

theorem CodeTree.nodup_fst_codes (t : CodeTree) (h : t.symbols.Nodup) : (t.codes.map Prod.fst).Nodup := by
  rw [t.map_fst_codes]; exact h

/-- The code table of a tree (R112, R113). -/
def treeTable (t : CodeTree) : CodeTable := tableOf t.codes CodeTable.zero

theorem treeTable_len (t : CodeTree) (h : t.symbols.Nodup) (c : Symbol × Bits) (hc : c ∈ t.codes) :
    (atSymbol (treeTable t).len c.1).toNat = c.2.length ∧ 1 ≤ c.2.length ∧ c.2.length ≤ 255 := by
  have h1 := t.length_code_le h c hc
  refine ⟨?_, t.one_le_length_code c hc, h1⟩
  rw [treeTable, (tableOf_present _ _ (t.nodup_fst_codes h) c hc).1, BitVec.toNat_ofNat]
  omega

theorem treeTable_val (t : CodeTree) (h : t.symbols.Nodup) (c : Symbol × Bits) (hc : c ∈ t.codes) :
    (atSymbol (treeTable t).val c.1).toNat = bitsNumber c.2 := by
  have h1 := t.length_code_le h c hc
  rw [treeTable, (tableOf_present _ _ (t.nodup_fst_codes h) c hc).2, BitVec.toNat_ofNat]
  exact Nat.mod_eq_of_lt (lt_of_lt_of_le (bitsNumber_lt _) (Nat.pow_le_pow_right (by decide) (by omega)))

theorem treeTable_absent (t : CodeTree) (x : Symbol) (hx : x ∉ t.symbols) :
    atSymbol (treeTable t).len x = 0 ∧ atSymbol (treeTable t).val x = 0 := by
  rw [treeTable, (tableOf_absent _ _ x (by rw [t.map_fst_codes]; exact hx)).1,
    (tableOf_absent _ _ x (by rw [t.map_fst_codes]; exact hx)).2]
  exact ⟨atSymbol_replicate _ _, atSymbol_replicate _ _⟩

theorem treeTable_pos_iff (t : CodeTree) (h : t.symbols.Nodup) (x : Symbol) :
    0 < (atSymbol (treeTable t).len x).toNat ↔ x ∈ t.symbols := by
  constructor
  · intro hx
    by_contra hc
    rw [(treeTable_absent t x hc).1] at hx
    exact absurd hx (by decide)
  · intro hx
    obtain ⟨c, hc, rfl⟩ := t.exists_code x hx
    obtain ⟨h1, h2, _⟩ := treeTable_len t h c hc
    omega

/-- A sum over the symbols with a code is a sum over the tree's codes. -/
theorem sum_treeTable (t : CodeTree) (h : t.symbols.Nodup) (f : Nat → Nat) :
    ((alphabet.filter fun x => decide (0 < (atSymbol (treeTable t).len x).toNat)).map
        fun x => f (atSymbol (treeTable t).len x).toNat).sum = (t.codes.map fun c => f c.2.length).sum := by
  have hp : (alphabet.filter fun x => decide (0 < (atSymbol (treeTable t).len x).toNat)).Perm
      (t.codes.map Prod.fst) := by
    refine (List.perm_ext_iff_of_nodup (nodup_alphabet.filter _) (t.nodup_fst_codes h)).mpr fun x => ?_
    simp only [List.mem_filter, mem_alphabet, decide_eq_true_eq, true_and, treeTable_pos_iff t h,
      t.map_fst_codes]
  rw [(hp.map _).sum_eq, List.map_map]
  congr 1
  apply List.map_congr_left
  intro c hc
  simp only [Function.comp, (treeTable_len t h c hc).1]

/-- The two shapes a valid tree's code table has in a state with the invariants (R49, R113, R114). -/
theorem codesOf_cases {s : State} (hi : Invariants s) (hv : s.treeValid = true) {tab : CodeTable}
    (hc : codesOf s.treeKind s.node s.root = .ok tab) :
    (s.treeKind = .empty ∧ tab = CodeTable.zero) ∨
      ∃ t : CodeTree, holds s.node s.root t = true ∧ t.symbols.Nodup ∧ s.treeKind = t.kind ∧
        s.leaves.toNat = t.symbols.length ∧ tab = treeTable t := by
  cases hk : s.treeKind with
  | empty =>
    left
    rw [hk] at hc
    exact ⟨rfl, (Answer.ok.inj hc).symm⟩
  | single =>
    right
    obtain ⟨h1, n, hn, hl⟩ := hi.singleTree hv hk
    have hh : holds s.node s.root (.leaf n.sym) = true := (holds_leaf_iff _ _ _).mpr ⟨n, hn, hl, rfl⟩
    have h2 := codesOf_holds s.node s.root _ hh (by simp [CodeTree.symbols])
    rw [hk] at hc
    rw [show (CodeTree.leaf n.sym).kind = .single from rfl, hc] at h2
    exact ⟨.leaf n.sym, hh, by simp [CodeTree.symbols], rfl, by rw [h1]; rfl, Answer.ok.inj h2⟩
  | multi =>
    right
    obtain ⟨h2, t, ht⟩ := hi.multiTree hv hk
    have hkind : t.kind = .multi := by
      cases t with
      | leaf x => have := ht.count; simp only [CodeTree.symbols, List.length_singleton] at this; omega
      | node l r => rfl
    have h3 := codesOf_holds s.node s.root _ ht.inNode ht.distinct
    rw [hk] at hc
    rw [hkind, hc] at h3
    exact ⟨t, ht.inNode, ht.distinct, hkind.symm, ht.count, Answer.ok.inj h3⟩

/-- In a state with the invariants a valid tree has a code table: GENCODE does not stop (R13, R114). -/
theorem codesOf_total {s : State} (hi : Invariants s) (hv : s.treeValid = true) :
    ∃ tab, codesOf s.treeKind s.node s.root = .ok tab := by
  cases hk : s.treeKind with
  | empty => exact ⟨_, rfl⟩
  | single =>
    obtain ⟨_, n, hn, _⟩ := hi.singleTree hv hk
    exact ⟨CodeTable.zero.put n.sym 1 0, by simp [codesOf, hn]⟩
  | multi =>
    obtain ⟨h2, t, ht⟩ := hi.multiTree hv hk
    have hkind : t.kind = .multi := by
      cases t with
      | leaf x => have := ht.count; simp only [CodeTree.symbols, List.length_singleton] at this; omega
      | node l r => rfl
    exact ⟨_, hkind ▸ codesOf_holds s.node s.root _ ht.inNode ht.distinct⟩

/-- What a GENCODE that succeeds leaves (R114). -/
theorem exec_gencode_done {s t : State} (hi : Invariants s) (h : exec .gencode s = .next t) (hd : t.done = true) :
    s.treeValid = true ∧
      ((s.treeKind = .empty ∧ t = succeeded (coded CodeTable.zero s)) ∨
        ∃ tree : CodeTree, holds s.node s.root tree = true ∧ tree.symbols.Nodup ∧ s.treeKind = tree.kind ∧
          s.leaves.toNat = tree.symbols.length ∧ t = succeeded (coded (treeTable tree) s)) := by
  rcases exec_gencode_cases h with ⟨_, rfl⟩ | ⟨hv, tab, hc, rfl⟩
  · exact absurd hd Bool.false_ne_true
  · refine ⟨hv, ?_⟩
    rcases codesOf_cases hi hv hc with ⟨hk, rfl⟩ | ⟨tree, h1, h2, h3, h4, rfl⟩
    · exact .inl ⟨hk, rfl⟩
    · exact .inr ⟨tree, h1, h2, h3, h4, rfl⟩

/-- The code table of a state with the invariants and valid codes (R49.3). -/
theorem coded_cases {s : State} (hi : Invariants s) (hv : s.codesValid = true) :
    (s.treeKind = .empty ∧ ∀ x, atSymbol s.codeLen x = 0) ∨
      ∃ t : CodeTree, holds s.node s.root t = true ∧ t.symbols.Nodup ∧ s.treeKind = t.kind ∧
        s.leaves.toNat = t.symbols.length ∧ s.codeLen = (treeTable t).len ∧ s.codeVal = (treeTable t).val := by
  obtain ⟨tab, hc, hl, hval, _⟩ := hi.codesCurrent hv
  rcases codesOf_cases hi (hi.codesNeedTree hv) hc with ⟨hk, rfl⟩ | ⟨t, h1, h2, h3, h4, rfl⟩
  · exact .inl ⟨hk, fun x => by rw [hl]; exact atSymbol_replicate _ _⟩
  · exact .inr ⟨t, h1, h2, h3, h4, hl, hval⟩

/-- A code as ENCODE writes it is the tree's (R122). -/
theorem code_of_treeTable {s : State} {t : CodeTree} (h : t.symbols.Nodup) (hl : s.codeLen = (treeTable t).len)
    (hv : s.codeVal = (treeTable t).val) (c : Symbol × Bits) (hc : c ∈ t.codes) : code s c.1 = c.2 :=
  code_of_tableOf s t h CodeTable.zero hl hv c hc

/-- The codes of a sequence of symbols of a tree. -/
theorem exists_codes {s : State} {t : CodeTree} (h : t.symbols.Nodup) (hl : s.codeLen = (treeTable t).len)
    (hv : s.codeVal = (treeTable t).val) (xs : List Symbol) (hx : ∀ x ∈ xs, x ∈ t.symbols) :
    ∃ cs : List (Symbol × Bits), (∀ c ∈ cs, c ∈ t.codes) ∧ cs.map Prod.fst = xs ∧ codeBits cs = xs.flatMap (code s) := by
  induction xs with
  | nil => exact ⟨[], by simp, rfl, rfl⟩
  | cons x xs ih =>
    obtain ⟨cs, h1, h2, h3⟩ := ih fun y hy => hx y (List.mem_cons_of_mem _ hy)
    obtain ⟨c, hc, rfl⟩ := t.exists_code x (hx x List.mem_cons_self)
    refine ⟨c :: cs, ?_, by rw [List.map_cons, h2], ?_⟩
    · intro d hd
      rcases List.mem_cons.mp hd with rfl | hd
      · exact hc
      · exact h1 d hd
    · rw [codeBits, List.flatMap_cons, List.flatMap_cons, code_of_treeTable h hl hv c hc, ← h3, codeBits]

/-- The symbols with a code are the tree's (R115). -/
theorem mem_symbols_of_code {s : State} {t : CodeTree} (h : t.symbols.Nodup) (hl : s.codeLen = (treeTable t).len)
    (x : Symbol) : atSymbol s.codeLen x ≠ 0 ↔ x ∈ t.symbols := by
  rw [← treeTable_pos_iff t h, ← hl, Nat.pos_iff_ne_zero, not_iff_not, ← BitVec.toNat_inj]
  rfl

/-- The payload in a state with the invariants and valid codes, where every byte has a code. -/
theorem payload_cases {s : State} (hi : Invariants s) (hv : s.codesValid = true) (xs : List Symbol)
    (hx : ∀ x ∈ xs, atSymbol s.codeLen x ≠ 0) :
    (xs = [] ∧ payload s xs = .ok (le32 0)) ∨
      ∃ (t : CodeTree) (cs : List (Symbol × Bits)), xs ≠ [] ∧ holds s.node s.root t = true ∧ t.symbols.Nodup ∧
        s.treeKind = t.kind ∧ s.leaves.toNat = t.symbols.length ∧ s.codeLen = (treeTable t).len ∧
        s.codeVal = (treeTable t).val ∧ (∀ c ∈ cs, c ∈ t.codes) ∧
        cs.map Prod.fst = xs ∧ codeBits cs = xs.flatMap (code s) ∧
        payload s xs = .ok (payloadOf xs.length t (codeBits cs)) := by
  cases xs with
  | nil => exact .inl ⟨rfl, rfl⟩
  | cons y ys =>
    right
    rcases coded_cases hi hv with ⟨_, h0⟩ | ⟨t, h1, h2, h3, h4, h5, h6⟩
    · exact absurd (h0 y) (hx y List.mem_cons_self)
    · obtain ⟨cs, hc1, hc2, hc3⟩ := exists_codes h2 h5 h6 (y :: ys)
        fun x hm => (mem_symbols_of_code h2 h5 x).mp (hx x hm)
      refine ⟨t, cs, by simp, h1, h2, h3, h4, h5, h6, hc1, hc2, hc3, ?_⟩
      rw [payload_holds s _ t fun _ => ⟨h1, h2⟩, hc3]

end Sys2Proof.Machine
end

