-- ==== Sys2Proof/Laws/Section.lean ====
section
/-! SUPPORT. Tree sections node by node (R136, R138): what a parse does at the end of an unfinished
section, and the two causes of DEC_TREE. -/

namespace Sys2Proof.Machine

/-! ## Sequences of nodes -/

@[simp] theorem sectionBits_nil : sectionBits [] = [] := rfl

@[simp] theorem sectionBits_cons (x : SectionNode) (l : List SectionNode) :
    sectionBits (x :: l) = x.bits ++ sectionBits l := rfl

@[simp] theorem sectionBits_append (l m : List SectionNode) :
    sectionBits (l ++ m) = sectionBits l ++ sectionBits m := List.flatMap_append

@[simp] theorem sectionSymbols_nil : sectionSymbols [] = [] := rfl

@[simp] theorem sectionSymbols_none (l : List SectionNode) : sectionSymbols (none :: l) = sectionSymbols l := rfl

@[simp] theorem sectionSymbols_some (s : Symbol) (l : List SectionNode) :
    sectionSymbols (some s :: l) = s :: sectionSymbols l := rfl

@[simp] theorem sectionSymbols_append (l m : List SectionNode) :
    sectionSymbols (l ++ m) = sectionSymbols l ++ sectionSymbols m := List.filterMap_append

theorem CodeTree.sectionBits_nodes (t : CodeTree) : sectionBits t.nodes = t.bits := by
  induction t with
  | leaf s => simp [CodeTree.nodes, SectionNode.bits, CodeTree.bits]
  | node l r ihl ihr => simp [CodeTree.nodes, SectionNode.bits, CodeTree.bits, ihl, ihr]

theorem CodeTree.sectionSymbols_nodes (t : CodeTree) : sectionSymbols t.nodes = t.symbols := by
  induction t with
  | leaf s => rfl
  | node l r ihl ihr => simp [CodeTree.nodes, CodeTree.symbols, ihl, ihr]

theorem CodeTree.count_nodes (t : CodeTree) : t.nodes.count none + 1 = t.symbols.length := by
  induction t with
  | leaf s => simp [CodeTree.nodes, CodeTree.symbols]
  | node l r ihl ihr =>
    simp only [CodeTree.nodes, CodeTree.symbols, List.count_cons_self, List.count_append, List.length_append]
    omega

/-! ## What is in order after the nodes a loader has read -/

/-- The nodes `l`, read on from a loader's variables, are an unfinished tree in order so far. -/
structure InOrder (p : Loader) (l : List SectionNode) : Prop where
  unfinished : Unfinished l
  distinct : (sectionSymbols l).Nodup
  fresh : ∀ x ∈ sectionSymbols l, x ∉ p.seen
  internals : p.internals + l.count none ≤ 255

/-- A node is malformed after the nodes `l`, read on from a loader's variables. -/
def MalformedAt (p : Loader) (l : List SectionNode) : SectionNode → Prop
  | none => p.internals + l.count none = 255
  | some s => s ∈ p.seen ∨ s ∈ sectionSymbols l

theorem inOrder_start (nodes : Nodes) (l : List SectionNode) : InOrder (loaderStart nodes) l ↔ WellFormedSoFar l :=
  ⟨fun h => ⟨h.unfinished, h.distinct, by simpa [loaderStart] using h.internals⟩,
    fun h => ⟨h.unfinished, h.distinct, by simp [loaderStart], by simpa [loaderStart] using h.internals⟩⟩

theorem malformedAt_start (nodes : Nodes) (l : List SectionNode) (x : SectionNode) :
    MalformedAt (loaderStart nodes) l x ↔ Malformed l x := by
  cases x <;> simp [MalformedAt, Malformed, loaderStart]

/-- The loader's variables after the flag bit of an internal node. -/
def inside (p : Loader) : Loader := { p with pos := p.pos + 1, next := p.next + 1, internals := p.internals + 1 }

theorem InOrder.inLeft {p : Loader} {l : List SectionNode} (h : InOrder (inside p) l) : InOrder p (none :: l) :=
  ⟨.inLeft l h.unfinished, h.distinct, h.fresh, by have := h.internals; simp [inside] at this ⊢; omega⟩

/-- A whole left subtree in order, and then nodes in order in the right one. -/
theorem InOrder.inRight {p : Loader} {t : CodeTree} {l : List SectionNode} (ht : t.symbols.Nodup)
    (hd : ∀ x ∈ t.symbols, x ∉ p.seen) (h : InOrder (loaded (inside p) t) l) :
    InOrder p (none :: (t.nodes ++ l)) := by
  have hf := h.fresh
  have hi := h.internals
  have hc := t.count_nodes
  simp only [loaded, inside, List.mem_append, List.mem_reverse, not_or] at hf hi
  refine ⟨.inRight t l h.unfinished, ?_, ?_, ?_⟩
  · simp only [sectionSymbols_none, sectionSymbols_append, t.sectionSymbols_nodes, List.nodup_append]
    exact ⟨ht, h.distinct, fun x hx y hy hxy => (hf y hy).1 (hxy ▸ hx)⟩
  · intro x hx
    simp only [sectionSymbols_none, sectionSymbols_append, t.sectionSymbols_nodes, List.mem_append] at hx
    exact hx.elim (hd x) fun h => (hf x h).2
  · simp only [List.count_cons_self, List.count_append]; omega

/-! ## A parse that reaches the end of an unfinished section -/

/-- A parse reads nodes that are in order and comes to stand at their end: an error there is its error. -/
theorem parse_reaches (rd : Nat → Bool) (tb limit stop : Nat) {l : List SectionNode} (hu : Unfinished l)
    (fuel : Nat) (p : Loader) (hf : 256 ≤ fuel + p.internals) (ho : InOrder p l)
    (hl : p.pos + (sectionBits l).length ≤ limit) (ha : agrees rd p.pos limit (sectionBits l)) :
    ∃ fuel' q, 256 ≤ fuel' + q.internals ∧ q.pos = p.pos + (sectionBits l).length ∧
      q.internals = p.internals + l.count none ∧ (∀ x, x ∈ q.seen ↔ x ∈ p.seen ∨ x ∈ sectionSymbols l) ∧
      ∀ e, parse rd tb limit stop fuel' q = .raise e → parse rd tb limit stop fuel p = .raise e := by
  induction hu generalizing fuel p with
  | start => exact ⟨fuel, p, hf, by simp, by simp, by simp, fun _ h => h⟩
  | inLeft l hu ih =>
    have hi := ho.internals
    simp only [List.count_cons_self] at hi
    obtain ⟨fuel, rfl⟩ : ∃ n, fuel = n + 1 := ⟨fuel - 1, by omega⟩
    simp only [sectionBits_cons, SectionNode.bits, List.cons_append, List.nil_append, List.length_cons] at hl ha
    have hb : rd p.pos = false := agrees_head ha (by omega)
    obtain ⟨f, q, h1, h2, h3, h4, h5⟩ := ih fuel (inside p) (by simp only [inside]; omega)
      ⟨hu, ho.distinct, ho.fresh, by simp only [inside]; omega⟩ (by simp only [inside]; omega) (agrees_tail ha)
    refine ⟨f, q, h1, by simp [h2, inside, SectionNode.bits]; omega, by simp [h3, inside]; omega, h4, fun e he => ?_⟩
    have h6 := h5 e he
    simp only [inside] at h6
    have h0 : ¬limit ≤ p.pos := by omega
    have h255 : ¬p.internals = 255 := by omega
    simp only [parse, hb, h6, Bool.false_eq_true, if_false, if_neg h0, if_neg h255]
  | inRight t l hu ih =>
    have hi := ho.internals
    have hd := ho.distinct
    have hfr := ho.fresh
    have hc := t.count_nodes
    simp only [List.count_cons_self, List.count_append] at hi
    simp only [sectionSymbols_none, sectionSymbols_append, t.sectionSymbols_nodes, List.nodup_append,
      List.mem_append] at hd hfr
    obtain ⟨fuel, rfl⟩ : ∃ n, fuel = n + 1 := ⟨fuel - 1, by omega⟩
    simp only [sectionBits_cons, sectionBits_append, SectionNode.bits, t.sectionBits_nodes, List.cons_append,
      List.nil_append, List.length_cons, List.length_append] at hl ha
    have hb : rd p.pos = false := agrees_head ha (by omega)
    have hat : agrees rd (inside p).pos limit t.bits := agrees_append_left (agrees_tail ha)
    have hlt := parse_bits rd tb limit stop fuel t (inside p)
      (by have := t.depth_lt_symbols; omega) (by simp only [inside]; omega) hat
      hd.1 (fun x hx => hfr x (.inl hx)) (by simp only [inside]; omega)
    obtain ⟨f, q, h1, h2, h3, h4, h5⟩ := ih fuel (loaded (inside p) t) (by simp only [loaded, inside]; omega)
      ⟨hu, hd.2.1, by
        intro x hx
        simp only [loaded, inside, List.mem_append, List.mem_reverse, not_or]
        exact ⟨fun hm => hd.2.2 x hm x hx rfl, hfr x (.inr hx)⟩, by simp only [loaded, inside]; omega⟩
      (by simp only [loaded, inside]; omega) (agrees_append_right (agrees_tail ha))
    refine ⟨f, q, h1, ?_, ?_, ?_, fun e he => ?_⟩
    · simp only [h2, loaded, inside, sectionBits_cons, sectionBits_append, t.sectionBits_nodes, SectionNode.bits,
        List.length_append, List.length_singleton]
      omega
    · simp only [h3, loaded, inside, List.count_cons_self, List.count_append]; omega
    · intro x
      simp only [h4, loaded, inside, sectionSymbols_none, sectionSymbols_append, t.sectionSymbols_nodes,
        List.mem_append, List.mem_reverse]
      tauto
    · have h6 := h5 e he
      simp only [inside] at hlt h6
      have h0 : ¬limit ≤ p.pos := by omega
      have h255 : ¬p.internals = 255 := by omega
      simp only [parse, hb, hlt, h6, Bool.false_eq_true, if_false, if_neg h0, if_neg h255]

theorem agrees_symbol {rd : Nat → Bool} {pos limit : Nat} {s : Symbol} (h : agrees rd pos limit (leafBits s))
    (hl : pos + 9 ≤ limit) : rd pos = true ∧ symbolAt rd (pos + 1) = s :=
  ⟨agrees_head h (by omega), symbolAt_of_agrees rd _ limit s (agrees_tail h) (by omega)⟩

/-- A malformed node is DEC_TREE at the byte of its flag bit (R138). -/
theorem parse_malformed (rd : Nat → Bool) (tb limit stop fuel : Nat) (p : Loader) {l : List SectionNode}
    {x : SectionNode} (hf : 256 ≤ fuel + p.internals) (ho : InOrder p l) (hx : MalformedAt p l x)
    (hl : p.pos + (sectionBits (l ++ [x])).length ≤ limit) (ha : agrees rd p.pos limit (sectionBits (l ++ [x]))) :
    parse rd tb limit stop fuel p = .raise ⟨.decTree, tb + (p.pos + (sectionBits l).length) / 8⟩ := by
  simp only [sectionBits_append, sectionBits_cons, sectionBits_nil, List.append_nil, List.length_append] at hl ha
  obtain ⟨f, q, h1, h2, h3, h4, h5⟩ := parse_reaches rd tb limit stop ho.unfinished fuel p hf ho (by omega)
    (agrees_append_left ha)
  apply h5
  have hax := agrees_append_right ha
  rw [← Nat.add_assoc] at hl
  rw [← h2] at hl hax ⊢
  have hi := ho.internals
  obtain ⟨f, rfl⟩ : ∃ n, f = n + 1 := ⟨f - 1, by omega⟩
  cases x with
  | none =>
    simp only [SectionNode.bits, List.length_singleton] at hl hax
    have hb : rd q.pos = false := agrees_head hax (by omega)
    have h0 : ¬limit ≤ q.pos := by omega
    have h255 : q.internals = 255 := h3.trans hx
    simp only [parse, hb, h255, Bool.false_eq_true, if_false, if_neg h0, if_true]
  | some y =>
    have h9 : (leafBits y).length = 9 := by simp [leafBits]
    simp only [SectionNode.bits, h9] at hl hax
    obtain ⟨hb, hy⟩ := agrees_symbol hax (by omega)
    have hm : y ∈ q.seen := (h4 y).mpr hx
    have h0 : ¬limit ≤ q.pos := by omega
    have h8 : ¬limit < q.pos + 1 + 8 := by omega
    simp only [parse, hb, hy, hm, if_neg h0, if_neg h8, if_true]

/-- A section that ends after nodes in order, or inside a leaf there, is DEC_TRUNC (R136). -/
theorem parse_cut (rd : Nat → Bool) (tb limit stop fuel : Nat) (p : Loader) {l : List SectionNode}
    (hf : 256 ≤ fuel + p.internals) (ho : InOrder p l) (hl : p.pos + (sectionBits l).length ≤ limit)
    (ha : agrees rd p.pos limit (sectionBits l))
    (hc : limit = p.pos + (sectionBits l).length ∨
      rd (p.pos + (sectionBits l).length) = true ∧ limit < p.pos + (sectionBits l).length + 9) :
    parse rd tb limit stop fuel p = .raise ⟨.decTrunc, stop⟩ := by
  obtain ⟨f, q, h1, h2, h3, _, h5⟩ := parse_reaches rd tb limit stop ho.unfinished fuel p hf ho hl ha
  apply h5
  rw [← h2] at hc
  have hi := ho.internals
  obtain ⟨f, rfl⟩ : ∃ n, f = n + 1 := ⟨f - 1, by omega⟩
  by_cases h0 : limit ≤ q.pos
  · simp only [parse, if_pos h0]
  · obtain ⟨hb, h9⟩ := hc.resolve_left (by omega)
    have h8 : limit < q.pos + 1 + 8 := by omega
    simp only [parse, hb, if_neg h0, if_pos h8, if_true]

/-! ## The causes of DEC_TREE -/

theorem agrees_append {rd : Nat → Bool} {q limit : Nat} {a b : Bits} (h1 : agrees rd q limit a)
    (h2 : agrees rd (q + a.length) limit b) : agrees rd q limit (a ++ b) := by
  intro k hk hl
  by_cases hlt : k < a.length
  · rw [List.getElem_append_left hlt]; exact h1 k hlt hl
  · rw [List.getElem_append_right (by omega)]
    have := h2 (k - a.length) (by rw [List.length_append] at hk; omega) (by omega)
    rwa [show q + a.length + (k - a.length) = q + k by omega] at this

theorem agrees_cons {rd : Nat → Bool} {q limit : Nat} {b : Bool} {a : Bits} (h1 : rd q = b)
    (h2 : agrees rd (q + 1) limit a) : agrees rd q limit (b :: a) :=
  agrees_append (a := [b]) (fun k hk _ => by
    have : k = 0 := by simpa using hk
    subst this; simpa using h1) h2

/-- A parse raises DEC_TREE only at a malformed node after nodes in order (R138). -/
theorem parse_decTree (rd : Nat → Bool) (tb limit stop fuel : Nat) (p : Loader) (a : Nat)
    (hf : 256 ≤ fuel + p.internals) (hi : p.internals ≤ 255) (hp : p.pos ≤ limit)
    (h : parse rd tb limit stop fuel p = .raise ⟨.decTree, a⟩) :
    ∃ l x, InOrder p l ∧ MalformedAt p l x ∧ p.pos + (sectionBits (l ++ [x])).length ≤ limit ∧
      agrees rd p.pos limit (sectionBits (l ++ [x])) ∧ a = tb + (p.pos + (sectionBits l).length) / 8 := by
  induction fuel generalizing p with
  | zero => omega
  | succ fuel ih =>
    have here : ∀ x, MalformedAt p [] x → p.pos + x.bits.length ≤ limit → agrees rd p.pos limit x.bits →
        a = tb + p.pos / 8 → ∃ l x, InOrder p l ∧ MalformedAt p l x ∧
          p.pos + (sectionBits (l ++ [x])).length ≤ limit ∧ agrees rd p.pos limit (sectionBits (l ++ [x])) ∧
          a = tb + (p.pos + (sectionBits l).length) / 8 := fun x h1 h2 h3 h4 =>
      ⟨[], x, ⟨.start, by simp, by simp, by simpa using hi⟩, h1, by simpa using h2, by simpa using h3, by simpa using h4⟩
    by_cases h0 : limit ≤ p.pos
    · simp [parse, h0] at h
    by_cases hb : rd p.pos = true
    · by_cases h8 : limit < p.pos + 1 + 8
      · simp [parse, h0, hb, h8] at h
      by_cases hm : symbolAt rd (p.pos + 1) ∈ p.seen
      · simp only [parse, hb, hm, if_neg h0, if_neg h8, if_true, Answer.raise.injEq, CmdError.mk.injEq] at h
        refine here (some (symbolAt rd (p.pos + 1))) (.inl hm) (by simp [SectionNode.bits, leafBits]; omega) ?_ h.2.symm
        refine agrees_cons hb fun k hk _ => ?_
        simp [symbolAt_spec]
      · simp [parse, h0, hb, h8, hm] at h
    have hb' : rd p.pos = false := by simpa using hb
    by_cases h255 : p.internals = 255
    · simp only [parse, hb', h255, if_neg h0, Bool.false_eq_true, if_false, if_true, Answer.raise.injEq,
        CmdError.mk.injEq] at h
      exact here none (by simpa [MalformedAt] using h255) (by simp [SectionNode.bits]; omega)
        (agrees_cons hb' fun k hk => by simp at hk) h.2.symm
    rcases parse_total rd tb limit stop fuel (inside p) (by simp only [inside]; omega) (by simp only [inside]; omega)
      (by simp only [inside]; omega) with ⟨t, ht, hd, hti, htl, hta, hp1⟩ | hp1 | ⟨k, _, _, hp1⟩
    · have h2 : parse rd tb limit stop fuel (loaded (inside p) t) = .raise ⟨.decTree, a⟩ := by
        have hp1' := hp1
        simp only [inside] at hp1'
        simp only [parse, hb', hp1', if_neg h0, if_neg h255, Bool.false_eq_true, if_false] at h
        split at h <;> simp_all [inside]
      obtain ⟨l, x, ho, hx, hl, hax, he⟩ := ih (loaded (inside p) t) (by simp only [loaded, inside]; omega)
        (by simpa only [loaded, inside] using hti) (by simpa only [loaded, inside] using htl) h2
      have hc := t.count_nodes
      refine ⟨none :: (t.nodes ++ l), x, .inRight ht hd ho, ?_, ?_, ?_, ?_⟩
      · cases x with
        | none =>
          simp only [MalformedAt, loaded, inside, List.count_cons_self, List.count_append] at hx ⊢
          omega
        | some y =>
          simp only [MalformedAt, loaded, inside, List.mem_append, List.mem_reverse, sectionSymbols_none,
            sectionSymbols_append, t.sectionSymbols_nodes] at hx ⊢
          tauto
      · simp only [loaded, inside, sectionBits_append, sectionBits_cons, SectionNode.bits, t.sectionBits_nodes,
          List.cons_append, List.length_append, List.length_cons, List.length_nil] at hl ⊢
        omega
      · simp only [List.cons_append, sectionBits_cons, SectionNode.bits, List.nil_append]
        refine agrees_cons hb' ?_
        rw [List.append_assoc, sectionBits_append, t.sectionBits_nodes]
        exact agrees_append hta hax
      · simp only [loaded, inside, sectionBits_append, sectionBits_cons, SectionNode.bits, t.sectionBits_nodes,
          List.length_append, List.length_singleton] at he ⊢
        rw [he]; congr 2; omega
    · simp only [inside] at hp1
      simp [parse, h0, hb', h255, hp1] at h
    · have h1 : parse rd tb limit stop fuel (inside p) = .raise ⟨.decTree, a⟩ := by
        have hp1' := hp1
        simp only [inside] at hp1'
        simp only [parse, hb', hp1', if_neg h0, if_neg h255, Bool.false_eq_true, if_false] at h
        rw [hp1, h]
      obtain ⟨l, x, ho, hx, hl, hax, he⟩ := ih (inside p) (by simp only [inside]; omega) (by simp only [inside]; omega)
        (by simp only [inside]; omega) h1
      refine ⟨none :: l, x, ho.inLeft, ?_, ?_, ?_, ?_⟩
      · cases x with
        | none => simp only [MalformedAt, inside, List.count_cons_self] at hx ⊢; omega
        | some y => exact hx
      · simp only [inside, List.cons_append, List.nil_append, sectionBits_cons (none : SectionNode),
          SectionNode.bits, List.length_cons] at hl ⊢
        omega
      · exact agrees_cons hb' hax
      · simp only [inside, sectionBits_cons, SectionNode.bits, List.length_append, List.length_singleton] at he ⊢
        rw [he]; congr 2; omega

/-! ## The first malformed node of a tree -/

/-- A tree is in order after a loader's variables, or some node of it is the first that is malformed. -/
theorem CodeTree.first_malformed (t : CodeTree) (p : Loader) (hi : p.internals ≤ 255) :
    (t.symbols.Nodup ∧ (∀ x ∈ t.symbols, x ∉ p.seen) ∧ p.internals + (t.symbols.length - 1) ≤ 255) ∨
      ∃ l x rest, t.nodes = l ++ x :: rest ∧ InOrder p l ∧ MalformedAt p l x := by
  induction t generalizing p with
  | leaf s =>
    by_cases hs : s ∈ p.seen
    · exact .inr ⟨[], some s, [], rfl, ⟨.start, by simp, by simp, by simpa using hi⟩, .inl hs⟩
    · exact .inl ⟨by simp [CodeTree.symbols], by simpa [CodeTree.symbols] using hs, by simpa [CodeTree.symbols] using hi⟩
  | node l r ihl ihr =>
    by_cases h255 : p.internals = 255
    · exact .inr ⟨[], none, _, rfl, ⟨.start, by simp, by simp, by simpa using hi⟩, by simpa [MalformedAt] using h255⟩
    rcases ihl (inside p) (by simp only [inside]; omega) with ⟨hls, hld, hli⟩ | ⟨m, x, rest, hm, ho, hx⟩
    · rcases ihr (loaded (inside p) l) (by simpa only [loaded, inside] using hli) with
        ⟨hrs, hrd, hri⟩ | ⟨m, x, rest, hm, ho, hx⟩
      · left
        simp only [loaded, inside, List.mem_append, List.mem_reverse, not_or] at hrd hri
        have hl1 := l.one_le_symbols
        have hr1 := r.one_le_symbols
        simp only [CodeTree.symbols, List.nodup_append, List.mem_append, List.length_append]
        exact ⟨⟨hls, hrs, fun x hx y hy hxy => (hrd y hy).1 (hxy ▸ hx)⟩,
          fun x hx => hx.elim (hld x) fun h => (hrd x h).2, by omega⟩
      · refine .inr ⟨none :: (l.nodes ++ m), x, rest, by simp [CodeTree.nodes, hm], .inRight hls hld ho, ?_⟩
        have hc := l.count_nodes
        cases x with
        | none =>
          simp only [MalformedAt, loaded, inside, List.count_cons_self, List.count_append] at hx ⊢
          omega
        | some y =>
          simp only [MalformedAt, loaded, inside, List.mem_append, List.mem_reverse, sectionSymbols_none,
            sectionSymbols_append, l.sectionSymbols_nodes] at hx ⊢
          tauto
    · refine .inr ⟨none :: m, x, rest ++ r.nodes, by simp [CodeTree.nodes, hm], ho.inLeft, ?_⟩
      cases x with
      | none => simp only [MalformedAt, inside, List.count_cons_self] at hx ⊢; omega
      | some y => exact hx

/-! ## The whole tree section -/

theorem loadTree_malformed (rd : Nat → Bool) (tb limit stop : Nat) (nodes : Nodes) {l : List SectionNode}
    {x : SectionNode} (ho : WellFormedSoFar l) (hx : Malformed l x) (hl : (sectionBits (l ++ [x])).length ≤ limit)
    (ha : agrees rd 0 limit (sectionBits (l ++ [x]))) :
    loadTree rd tb limit stop nodes = .raise ⟨.decTree, tb + (sectionBits l).length / 8⟩ := by
  have h := parse_malformed rd tb limit stop maxPath (loaderStart nodes) (by simp [loaderStart, maxPath])
    ((inOrder_start nodes l).mpr ho) ((malformedAt_start nodes l x).mpr hx) (by simpa [loaderStart] using hl)
    (by simpa [loaderStart] using ha)
  rw [loadTree_eq, h]
  simp [loaderStart]

theorem loadTree_cut (rd : Nat → Bool) (tb limit stop : Nat) (nodes : Nodes) {l : List SectionNode}
    (ho : WellFormedSoFar l) (hl : (sectionBits l).length ≤ limit) (ha : agrees rd 0 limit (sectionBits l))
    (hc : limit = (sectionBits l).length ∨
      rd (sectionBits l).length = true ∧ limit < (sectionBits l).length + 9) :
    loadTree rd tb limit stop nodes = .raise ⟨.decTrunc, stop⟩ := by
  rw [loadTree_eq, parse_cut rd tb limit stop maxPath (loaderStart nodes) (by simp [loaderStart, maxPath])
    ((inOrder_start nodes l).mpr ho) (by simpa [loaderStart] using hl) (by simpa [loaderStart] using ha)
    (by simpa [loaderStart] using hc)]

theorem loadTree_decTree (rd : Nat → Bool) (tb limit stop : Nat) (nodes : Nodes) (a : Nat)
    (h : loadTree rd tb limit stop nodes = .raise ⟨.decTree, a⟩) :
    ∃ l x, WellFormedSoFar l ∧ Malformed l x ∧ (sectionBits (l ++ [x])).length ≤ limit ∧
      agrees rd 0 limit (sectionBits (l ++ [x])) ∧ a = tb + (sectionBits l).length / 8 := by
  have hp : parse rd tb limit stop maxPath (loaderStart nodes) = .raise ⟨.decTree, a⟩ := by
    rw [loadTree_eq] at h
    split at h <;> simp_all
  obtain ⟨l, x, ho, hx, hl, ha, he⟩ := parse_decTree rd tb limit stop maxPath (loaderStart nodes) a
    (by simp [loaderStart, maxPath]) (by simp [loaderStart]) (by simp [loaderStart]) hp
  exact ⟨l, x, (inOrder_start nodes l).mp ho, (malformedAt_start nodes l x).mp hx, by simpa [loaderStart] using hl,
    by simpa [loaderStart] using ha, by simpa [loaderStart] using he⟩

/-- A tree that repeats a symbol has a first malformed node (R138). -/
theorem CodeTree.malformed_of_repeated (t : CodeTree) (h : ¬t.symbols.Nodup) :
    ∃ l x rest, t.nodes = l ++ x :: rest ∧ WellFormedSoFar l ∧ Malformed l x := by
  rcases t.first_malformed (loaderStart (Vector.replicate 511 Node.zero)) (by simp [loaderStart]) with
    ⟨hn, _⟩ | ⟨l, x, rest, he, ho, hx⟩
  · exact absurd hn h
  · exact ⟨l, x, rest, he, (inOrder_start _ l).mp ho, (malformedAt_start _ l x).mp hx⟩

end Sys2Proof.Machine
end

