-- ==== Sys2Proof/Laws/Codec.lean ====
section
/-! SUPPORT. Payloads in BUF: bytes and bits of a section, and what DECODE's body answers for the bits it
finds (spec/45_decoder.md R133 to R139). -/

namespace Sys2Proof.Machine

theorem bytesAt_iff (s : State) (a : Nat) (p : List Byte) : BytesAt s a p ↔ s.readBytes a p.length = p := by
  constructor
  · intro h
    apply List.ext_getElem (by simp)
    intro i h1 h2
    rw [getElem_readBytes _ _ _ _ h2]
    exact h i h2
  · intro h i hi
    have := getElem_readBytes s a p.length i hi
    rw [← this]
    simp only [h]

theorem bytesAt_append (s : State) (a : Nat) (p q : List Byte) :
    BytesAt s a (p ++ q) ↔ BytesAt s a p ∧ BytesAt s (a + p.length) q := by
  constructor
  · intro h
    refine ⟨fun i hi => ?_, fun i hi => ?_⟩
    · have := h i (by rw [List.length_append]; omega)
      rwa [List.getElem_append_left hi] at this
    · have := h (p.length + i) (by rw [List.length_append]; omega)
      rw [List.getElem_append_right (by omega)] at this
      simpa [Nat.add_assoc] using this
  · rintro ⟨h1, h2⟩ i hi
    by_cases hl : i < p.length
    · rw [List.getElem_append_left hl]; exact h1 i hl
    · rw [List.getElem_append_right (by omega)]
      have := h2 (i - p.length) (by rw [List.length_append] at hi; omega)
      rwa [show a + p.length + (i - p.length) = a + i by omega] at this

/-- A packed bit-string in BUF reads back bit by bit (R62, R63). -/
theorem bitsAt_of_pack {s : State} {base : Nat} {b : Bits} (h : BytesAt s base (pack b)) : BitsAt s base b := by
  intro k hk
  have hl : k < 8 * (pack b).length := by rw [length_pack]; omega
  rw [bitAt_packed s base b k hl (h (k / 8) (by omega)), bitOr0_of_lt b k hk]

/-- The bits of the bytes that are there agree with a packed bit-string (R62, R63). -/
theorem agrees_of_take {s : State} {base m : Nat} {b : Bits} (h : BytesAt s base ((pack b).take m)) :
    agrees (s.bitAt base) 0 (8 * m) b := by
  intro k hk hl
  simp only [Nat.zero_add] at hl ⊢
  have h8 : k < 8 * (pack b).length := by rw [length_pack]; omega
  have ht : k / 8 < ((pack b).take m).length := by rw [List.length_take]; omega
  have hb := h (k / 8) ht
  rw [List.getElem_take] at hb
  rw [bitAt_packed s base b k h8 hb, bitOr0_of_lt b k hk]

theorem agrees_of_bitsAt {s : State} {base limit : Nat} {b : Bits} (h : BitsAt s base b) :
    agrees (s.bitAt base) 0 limit b := by
  intro k hk _
  simpa using h k hk

/-- DECODE's body over a whole tree and the codes of its symbols (R136, R137, R139). -/
theorem decodeBody_ok {s : State} {t : CodeTree} {cs : List (Symbol × Bits)} (ht : t.symbols.Nodup)
    (hc : ∀ c ∈ cs, c ∈ t.codes) (hb : BitsAt s (s.srcAddr.toNat + 4) t.bits)
    (hd : BitsAt s (s.srcAddr.toNat + 4 + (t.bits.length + 7) / 8) (codeBits cs))
    (hl : 4 + (t.bits.length + 7) / 8 + ((codeBits cs).length + 7) / 8 ≤ s.srcLen.toNat) :
    decodeBody s cs.length = .ok
      { symbols := cs.map Prod.fst, bits := (codeBits cs).length, tree := loaded (loaderStart s.node) t } := by
  simp only [decodeBody, State.srcStart, State.srcCount]
  have hp : (loaded (loaderStart s.node) t).pos = t.bits.length := by simp [loaded, loaderStart]
  have hh := loaded_holds s.node t ht
  rw [loadTree_bits _ _ _ _ _ t ht (by omega) (agrees_of_bitsAt hb)]
  simp only [loadedKind_holds _ _ hh, hp]
  rw [walkData_codes _ _ _ _ _ t hh cs hc 0 (by omega) (agrees_of_bitsAt hd)]
  simp

/-- DECODE's body over a tree section with a malformed node after nodes in order (R138). -/
theorem decodeBody_malformed {s : State} {l : List SectionNode} {x : SectionNode} {n : Nat}
    (ho : WellFormedSoFar l) (hx : Malformed l x)
    (hb : BitsAt s (s.srcAddr.toNat + 4) (sectionBits (l ++ [x])))
    (hl : (sectionBits (l ++ [x])).length ≤ 8 * (s.srcLen.toNat - 4)) :
    decodeBody s n = .raise ⟨.decTree, s.srcAddr.toNat + 4 + (sectionBits l).length / 8⟩ := by
  simp only [decodeBody, State.srcStart, State.srcCount,
    loadTree_malformed _ _ _ _ _ ho hx hl (agrees_of_bitsAt hb)]

/-- DECODE's body over a tree section that ends after nodes in order, or inside a leaf there (R136). -/
theorem decodeBody_cut {s : State} {l : List SectionNode} {n : Nat} (ho : WellFormedSoFar l)
    (hb : BitsAt s (s.srcAddr.toNat + 4) (sectionBits l))
    (hl : (sectionBits l).length ≤ 8 * (s.srcLen.toNat - 4))
    (hc : 8 * (s.srcLen.toNat - 4) = (sectionBits l).length ∨
      s.bitAt (s.srcAddr.toNat + 4) (sectionBits l).length = true ∧
        8 * (s.srcLen.toNat - 4) < (sectionBits l).length + 9) :
    decodeBody s n = .raise ⟨.decTrunc, s.srcAddr.toNat + s.srcLen.toNat⟩ := by
  simp only [decodeBody, State.srcStart, State.srcCount, loadTree_cut _ _ _ _ _ ho hl (agrees_of_bitsAt hb) hc]

/-- DECODE's body raises DEC_TREE only at a malformed node after nodes in order (R138). -/
theorem decodeBody_decTree {s : State} {n a : Nat} (h : decodeBody s n = .raise ⟨.decTree, a⟩) :
    ∃ l x, WellFormedSoFar l ∧ Malformed l x ∧ BitsAt s (s.srcAddr.toNat + 4) (sectionBits (l ++ [x])) ∧
      (sectionBits (l ++ [x])).length ≤ 8 * (s.srcLen.toNat - 4) ∧
      a = s.srcAddr.toNat + 4 + (sectionBits l).length / 8 := by
  have hload : loadTree (s.bitAt (s.srcAddr.toNat + 4)) (s.srcAddr.toNat + 4) (8 * (s.srcLen.toNat - 4))
      (s.srcAddr.toNat + s.srcLen.toNat) s.node = .raise ⟨.decTree, a⟩ := by
    simp only [decodeBody, State.srcStart, State.srcCount] at h
    rcases loadTree_total (s.bitAt (s.srcAddr.toNat + 4)) (s.srcAddr.toNat + 4) (8 * (s.srcLen.toNat - 4))
      (s.srcAddr.toNat + s.srcLen.toNat) s.node with ⟨t, ht, _, _, hl⟩ | hl | ⟨k, _, hl⟩
    · rw [hl] at h
      have hh := loaded_holds s.node t ht
      simp only [loadedKind_holds _ _ hh] at h
      rcases walkData_total
        (s.bitAt (s.srcAddr.toNat + 4 + ((loaded (loaderStart s.node) t).pos + 7) / 8))
        (s.srcAddr.toNat + 4 + ((loaded (loaderStart s.node) t).pos + 7) / 8)
        (8 * (s.srcAddr.toNat + s.srcLen.toNat
          - (s.srcAddr.toNat + 4 + ((loaded (loaderStart s.node) t).pos + 7) / 8)))
        (s.srcAddr.toNat + s.srcLen.toNat) _ t hh n 0 (Nat.zero_le _)
        with ⟨cs, _, _, _, _, hw⟩ | hw | ⟨_, k, _, _, _, hw⟩ <;> rw [hw] at h <;> simp at h
    · rw [hl] at h; simp at h
    · rw [hl] at h; rw [hl]; simpa using h
  obtain ⟨l, x, ho, hx, hlen, ha, he⟩ := loadTree_decTree _ _ _ _ _ _ hload
  exact ⟨l, x, ho, hx, fun k hk => by simpa using ha k hk (by omega), hlen, he⟩

/-- DECODE's body over a payload whose source range stops before its tree section ends (R136, R144). -/
theorem decodeBody_short_tree {s : State} {t : CodeTree} {n : Nat} (ht : t.symbols.Nodup)
    (hb : agrees (s.bitAt (s.srcAddr.toNat + 4)) 0 (8 * (s.srcLen.toNat - 4)) t.bits)
    (hl : 8 * (s.srcLen.toNat - 4) < t.bits.length) :
    decodeBody s n = .raise ⟨.decTrunc, s.srcAddr.toNat + s.srcLen.toNat⟩ := by
  simp only [decodeBody, State.srcStart, State.srcCount, loadTree_short _ _ _ _ _ t ht hl hb]

/-- DECODE's body over a payload whose source range stops before its data section ends (R139, R144). -/
theorem decodeBody_short_data {s : State} {t : CodeTree} {cs : List (Symbol × Bits)} (ht : t.symbols.Nodup)
    (hc : ∀ c ∈ cs, c ∈ t.codes)
    (hb : agrees (s.bitAt (s.srcAddr.toNat + 4)) 0 (8 * (s.srcLen.toNat - 4)) t.bits)
    (hl : t.bits.length ≤ 8 * (s.srcLen.toNat - 4))
    (hd : agrees (s.bitAt (s.srcAddr.toNat + 4 + (t.bits.length + 7) / 8)) 0
      (8 * (s.srcLen.toNat - 4 - (t.bits.length + 7) / 8)) (codeBits cs))
    (hs : 8 * (s.srcLen.toNat - 4 - (t.bits.length + 7) / 8) < (codeBits cs).length) :
    decodeBody s cs.length = .raise ⟨.decTrunc, s.srcAddr.toNat + s.srcLen.toNat⟩ := by
  simp only [decodeBody, State.srcStart, State.srcCount]
  have hp : (loaded (loaderStart s.node) t).pos = t.bits.length := by simp [loaded, loaderStart]
  have hh := loaded_holds s.node t ht
  rw [loadTree_bits _ _ _ _ _ t ht hl hb]
  simp only [loadedKind_holds _ _ hh, hp]
  have e : s.srcAddr.toNat + s.srcLen.toNat - (s.srcAddr.toNat + 4 + (t.bits.length + 7) / 8)
      = s.srcLen.toNat - 4 - (t.bits.length + 7) / 8 := by omega
  rw [e, walkData_short _ _ _ _ _ t hh cs hc 0 (by omega) (by simpa using hs) hd]

/-- The bytes ENCODE's payload has in BUF. -/
theorem readBytes_encoded (s : State) (p : List Byte) (hp : p.length < 2 ^ 32) :
    (succeeded (encoded p s)).readBytes s.dstAddr.toNat (succeeded (encoded p s)).outLen.toNat = p := by
  have e : (succeeded (encoded p s)).outLen.toNat = p.length := by
    show (BitVec.ofNat 32 p.length).toNat = _
    rw [BitVec.toNat_ofNat, Nat.mod_eq_of_lt hp]
  rw [e]
  rw [readBytes_congr (succeeded (encoded p s)) (s.writeBytes s.dstAddr.toNat p) _ _ fun _ _ => rfl]
  exact readBytes_writeBytes s s.dstAddr.toNat p

/-- A source range that holds given bytes. -/
theorem bytesAt_of_source {s : State} {p : List Byte} (h : s.source = p) : BytesAt s s.srcAddr.toNat p := by
  have hl := congrArg List.length h
  rw [length_source] at hl
  rw [bytesAt_iff, ← hl]
  exact h

end Sys2Proof.Machine
end

