-- ==== Sys2Proof/Laws/Decode.lean ====
section
/-! SUPPORT. The fields of a command word (spec/30_encoding.md R71). -/

namespace Sys2Proof

/-- A command word is its three fields in their places (R71). -/
theorem word_fields (w : Word) : w = rsvdField w ++ (BitVec.ofBool (accField w) ++ opField w) := by
  apply BitVec.eq_of_getLsbD_eq
  intro i hi
  simp only [BitVec.getLsbD_append, rsvdField, accField, opField, BitVec.getLsbD_extractLsb']
  by_cases h8 : i < 8
  · simp [h8, show i < 1 + 8 by omega]
  · by_cases h9 : i = 8
    · subst h9; simp
    · simp [show ¬i < 1 + 8 by omega, show 9 + (i - 9) = i by omega, show i - 9 < 23 by omega]

end Sys2Proof
end

