-- ==== Sys2Proof/Laws/HostProgram.lean ====
section
/-! SUPPORT. Host programs as events: `actEvents` follows BUSY as the block has it, and a READ of STATUS
shows it (spec/30_encoding.md R81, R84). -/

namespace Sys2Proof.Machine

theorem softReset_busy (s : State) : (softReset s).busy = false := by
  unfold softReset
  split <;> rfl

/-- BUSY is bit 0 of STATUS (R22). -/
theorem statusLayout_busy (b d e o t c : Bool) (k : TreeKind) : (statusLayout b d e o t c k).getLsbD 0 = b := by
  simp only [statusLayout, BitVec.getLsbD_append]
  simp

theorem writeReg_busy (r : Reg) (w : Word) (s : State) :
    (writeReg r w s).busy =
      match r with
      | .cmd => true
      | .ctrl => s.busy && !w.getLsbD 0
      | _ => s.busy := by
  cases r with
  | cmd => cases h : s.busy <;> simp [writeReg, writeCmd, h, busError, busOkay, acceptCommand]
  | ctrl =>
    show (writeCtrl w s).busy = _
    unfold writeCtrl
    cases w.getLsbD 0 <;> simp [softReset_busy]
  | _ => cases h : s.busy <;> simp [writeReg, writeIdle, writeStatus, h, busError, busOkay]

theorem readTarget_busy (t : Target) (s : State) : (readTarget t s).busy = s.busy := by
  rw [readTarget_frame]

theorem writeTarget_busy {t : Target} (ht : ∀ r, t ≠ .reg r) (w : Word) (s : State) :
    (writeTarget t w s).busy = s.busy := by
  cases t with
  | reg r => exact absurd rfl (ht r)
  | reserved => rfl
  | _ => simp only [writeTarget, writeIdle]; split <;> rfl

/-- What a transaction does to BUSY (R22): a CMD write sets it, a soft reset clears it, nothing else
changes it. -/
theorem busStep_busy (t : Txn) (s : State) :
    (busStep t s).busy = (issuesCommand t || s.busy && !resetsBlock t) := by
  have off : ∀ a : BusAddr, t.addr = a ↔ t.addr.toNat = a.toNat := fun a =>
    ⟨fun h => h ▸ rfl, BitVec.eq_of_toNat_eq⟩
  have e1 : (0x00010 : BusAddr).toNat = 0x10 := rfl
  have e2 : (0x00008 : BusAddr).toNat = 0x08 := rfl
  have other : ¬(t.op = .write ∧ t.size = .four ∧ (t.addr.toNat = 0x10 ∨ t.addr.toNat = 0x08)) →
      (busStep t s).busy = s.busy → (busStep t s).busy = (issuesCommand t || s.busy && !resetsBlock t) := by
    intro hn h
    have h1 : issuesCommand t = false := by simp only [issuesCommand, off, e1, decide_eq_false_iff_not]; tauto
    have h2 : resetsBlock t = false := by
      simp only [resetsBlock, off, e2, Bool.and_eq_false_iff, decide_eq_false_iff_not]; tauto
    simp [h, h1, h2]
  rcases busStep_cases t s with ⟨hc, h⟩ | ⟨_, _, _, hop, h⟩ | ⟨hlt, h4, hsz, hop, h⟩ | ⟨_, hge, _, h⟩
  · exact other (by rintro ⟨_, h1, h2⟩; rcases hc with hc | hc | hc <;> first | exact hc h1 | omega) (by rw [h]; rfl)
  · exact other (by simp [hop]) (by rw [h, readTarget_busy])
  · rcases target_cases t.addr.toNat h4 with ⟨r, hr, ht⟩ | ⟨_, _, ht⟩ | ⟨_, ht⟩
    · rw [ht] at h
      by_cases hw : r = .cmd ∨ r = .ctrl
      · have hb : (busStep t s).busy = (writeReg r t.wdata s).busy := by rw [h]; rfl
        rw [hb, writeReg_busy]
        rcases hw with rfl | rfl <;> simp [issuesCommand, resetsBlock, off, hop, hsz, hr, regOffset]
      · refine other ?_ ?_
        · rintro ⟨_, _, h1⟩
          rw [hr] at h1
          revert hw h1
          cases r <;> simp [regOffset]
        · have hb : (busStep t s).busy = (writeReg r t.wdata s).busy := by rw [h]; rfl
          rw [hb, writeReg_busy]
          revert hw
          cases r <;> simp
    · refine other ?_ (by rw [h, writeTarget_busy ht])
      rintro ⟨_, _, h1 | h1⟩
      · exact ht .cmd (by rw [h1]; exact target_regOffset .cmd)
      · exact ht .ctrl (by rw [h1]; exact target_regOffset .ctrl)
    · refine other ?_ (by rw [h, ht]; rfl)
      rintro ⟨_, _, h1 | h1⟩
      · rw [h1] at ht; exact absurd ht (by decide)
      · rw [h1] at ht; exact absurd ht (by decide)
  · refine other (by rintro ⟨_, _, h1⟩; omega) ?_
    rw [h]
    cases t.op <;> rfl

/-- While no command runs, a transaction starts one exactly where `actEvents` does. -/
theorem busStep_busy_of_idle (t : Txn) (s : State) (h : s.busy = false) : (busStep t s).busy = issuesCommand t := by
  simp [busStep_busy, h]

/-- While a command runs, a transaction stops it exactly where `actEvents` does. -/
theorem busStep_busy_of_running (t : Txn) (s : State) (h : s.busy = true) : (busStep t s).busy = !resetsBlock t := by
  have hx : issuesCommand t = true → resetsBlock t = false := by
    intro h1
    have h2 : t.addr = 0x00010 := by simp only [issuesCommand, decide_eq_true_eq] at h1; exact h1.2.2
    simp [resetsBlock, h2]
  rw [busStep_busy, h]
  cases h1 : issuesCommand t
  · simp
  · simp [hx h1]

/-- The READ of STATUS that a `wait` repeats answers BUSY in bit 0 and leaves BUSY as it is (R22, R50, R81). -/
theorem readStatus_busy (s : State) :
    (∃ v, (busStep (readReg .status) s).response = .okayData v ∧ v.getLsbD 0 = s.busy) ∧
      (busStep (readReg .status) s).busy = s.busy := by
  have h : busStep (readReg .status) s = readTarget (.reg .status) s := busStep_read_reg .status _ _ s rfl
  refine ⟨?_, by rw [h, readTarget_busy]⟩
  rw [h]
  cases hb : s.busy
  · exact ⟨statusWord s, by simp [readTarget, hb, busData, regWord], by rw [statusWord, statusLayout_busy, hb]⟩
  · exact ⟨regWordBusy s.draws s .status, by simp [readTarget, hb, busData], by rw [regWordBusy, statusLayout_busy, hb]⟩

end Sys2Proof.Machine
end

