-- ==== Sys2Proof/Laws/Invariants.lean ====
section
/-! SUPPORT. The invariants of R49 under each part of a step: what a command leaves, what a completion
writes, what a host transaction and a reset change. -/

namespace Sys2Proof.Machine

/-! ## Completion -/

theorem Invariants.succeeded {s : State} (h : Invariants s) : Invariants (succeeded s) where
  sizeLegal := h.sizeLegal
  bufCanonical := h.bufCanonical
  bufInRange := h.bufInRange
  totalIsSum := h.totalIsSum
  codesNeedTree := h.codesNeedTree
  singleTree := h.singleTree
  multiTree := fun hv hk => by
    obtain ⟨h1, t, ht⟩ := h.multiTree hv hk
    exact ⟨h1, t, ht.inNode, ht.onePath, ht.distinct, ht.count⟩
  emptyTree := h.emptyTree
  codesCurrent := h.codesCurrent
  oneFlag := fun h => absurd h.2 Bool.false_ne_true
  busyClear := fun h => absurd h Bool.false_ne_true
  errNamed := fun h => absurd h Bool.false_ne_true
  doneUnnamed := fun _ => ⟨rfl, rfl⟩

theorem Invariants.failedWith {s : State} (h : Invariants s) {c : ErrCode} (hc : c ≠ .none) (a : Nat) :
    Invariants (failedWith c a s) where
  sizeLegal := h.sizeLegal
  bufCanonical := h.bufCanonical
  bufInRange := h.bufInRange
  totalIsSum := h.totalIsSum
  codesNeedTree := h.codesNeedTree
  singleTree := h.singleTree
  multiTree := fun hv hk => by
    obtain ⟨h1, t, ht⟩ := h.multiTree hv hk
    exact ⟨h1, t, ht.inNode, ht.onePath, ht.distinct, ht.count⟩
  emptyTree := h.emptyTree
  codesCurrent := h.codesCurrent
  oneFlag := fun h => absurd h.1 Bool.false_ne_true
  busyClear := fun h => absurd h Bool.false_ne_true
  errNamed := fun _ => hc
  doneUnnamed := fun h => absurd h Bool.false_ne_true

/-! ## Changes the invariants do not see -/

/-- The fields the invariants mention are the same in two states, but for the flags, which still agree
with each other. -/
theorem Invariants.congr {s t : State} (h : Invariants s) (h1 : t.cfg = s.cfg) (h2 : t.buf = s.buf) (h3 : t.freq = s.freq)
    (h4 : t.total = s.total) (h5 : t.treeValid = s.treeValid) (h6 : t.codesValid = s.codesValid)
    (h7 : t.treeKind = s.treeKind) (h8 : t.node = s.node) (h9 : t.root = s.root) (h10 : t.leaves = s.leaves)
    (h11 : t.codeLen = s.codeLen) (h12 : t.codeVal = s.codeVal) (h13 : t.maxLen = s.maxLen)
    (h14 : t.errCode = s.errCode) (h15 : t.errAddr = s.errAddr) (h16 : t.done = true → s.done = true)
    (h17 : t.err = true → s.err = true) (h18 : t.busy = true → t.done = false ∧ t.err = false) : Invariants t where
  sizeLegal := by rw [h1]; exact h.sizeLegal
  bufCanonical := by rw [h2]; exact h.bufCanonical
  bufInRange := by rw [h1, h2]; exact h.bufInRange
  totalIsSum := by rw [h3, h4]; exact h.totalIsSum
  codesNeedTree := by rw [h5, h6]; exact h.codesNeedTree
  singleTree := by rw [h5, h7, h8, h9, h10]; exact h.singleTree
  multiTree := fun hv hk => by
    obtain ⟨e1, tr, ht⟩ := h.multiTree (h5 ▸ hv) (h7 ▸ hk)
    exact ⟨by rw [h10]; exact e1, tr, by rw [h8, h9]; exact ht.inNode, by rw [h8, h9]; exact ht.onePath,
      ht.distinct, by rw [h10]; exact ht.count⟩
  emptyTree := by rw [h5, h7, h9, h10]; exact h.emptyTree
  codesCurrent := by rw [h6, h7, h8, h9, h11, h12, h13]; exact h.codesCurrent
  oneFlag := fun hf => h.oneFlag ⟨h16 hf.1, h17 hf.2⟩
  busyClear := h18
  errNamed := fun hf => by rw [h14]; exact h.errNamed (h17 hf)
  doneUnnamed := fun hf => by rw [h14, h15]; exact h.doneUnnamed (h16 hf)

/-- The model's own fields do not matter. -/
theorem Invariants.own {s : State} (h : Invariants s) (d n : Nat) (p : List Event) (r : Response) :
    Invariants { s with bufDraw := d, draws := n, pending := p, response := r } :=
  h.congr rfl rfl rfl rfl rfl rfl rfl rfl rfl rfl rfl rfl rfl rfl rfl id id h.busyClear

/-! ## BUF -/

theorem Invariants.writeBytes {s : State} (h : Invariants s) (a : Nat) (l : List Byte) (hl : a + l.length ≤ s.cfg.bufSize) :
    Invariants (s.writeBytes a l) where
  sizeLegal := h.sizeLegal
  bufCanonical := storeAll_wf h.bufCanonical a l
  bufInRange := fun c hc => by
    rcases mem_storeAll hc with hc | hc
    · have e : (s.writeBytes a l).cfg = s.cfg := rfl
      rw [e]; omega
    · exact h.bufInRange c hc
  totalIsSum := h.totalIsSum
  codesNeedTree := h.codesNeedTree
  singleTree := h.singleTree
  multiTree := fun hv hk => by
    obtain ⟨h1, t, ht⟩ := h.multiTree hv hk
    exact ⟨h1, t, ht.inNode, ht.onePath, ht.distinct, ht.count⟩
  emptyTree := h.emptyTree
  codesCurrent := h.codesCurrent
  oneFlag := h.oneFlag
  busyClear := h.busyClear
  errNamed := h.errNamed
  doneUnnamed := h.doneUnnamed

theorem Invariants.anyWindow {s : State} (h : Invariants s) (k : Nat) (hl : s.dstAddr.toNat + s.dstCap.toNat ≤ s.cfg.bufSize) :
    Invariants (anyWindow k s) :=
  h.writeBytes _ _ (by rw [length_freeBytes]; exact hl)

/-! ## The commands -/

/-- The invariants in a state with no valid tree. -/
theorem Invariants.invalid {s : State} (h1 : s.cfg.wf = true) (h2 : Memory.wf s.buf = true)
    (h3 : ∀ c ∈ s.buf, c.1 < s.cfg.bufSize) (h4 : s.total.toNat = (s.freq.toList.map BitVec.toNat).sum)
    (h5 : s.treeValid = false) (h6 : s.codesValid = false) (h7 : ¬(s.done = true ∧ s.err = true))
    (h8 : s.busy = true → s.done = false ∧ s.err = false) (h9 : s.err = true → s.errCode ≠ .none)
    (h10 : s.done = true → s.errCode = .none ∧ s.errAddr = 0) : Invariants s where
  sizeLegal := h1
  bufCanonical := h2
  bufInRange := h3
  totalIsSum := h4
  codesNeedTree := fun h => by rw [h6] at h; exact absurd h Bool.false_ne_true
  singleTree := fun h => by rw [h5] at h; exact absurd h Bool.false_ne_true
  multiTree := fun h => by rw [h5] at h; exact absurd h Bool.false_ne_true
  emptyTree := fun h => by rw [h5] at h; exact absurd h Bool.false_ne_true
  codesCurrent := fun h => by rw [h6] at h; exact absurd h Bool.false_ne_true
  oneFlag := h7
  busyClear := h8
  errNamed := h9
  doneUnnamed := h10

theorem Invariants.invalidated {s : State} (h : Invariants s) : Invariants (invalidated s) :=
  .invalid h.sizeLegal h.bufCanonical h.bufInRange h.totalIsSum rfl rfl h.oneFlag h.busyClear h.errNamed
    h.doneUnnamed

/-- R49.1 after a count (R97, R98). -/
theorem Invariants.counted {s : State} (h : Invariants s) (acc : Bool)
    (hlt : countBase acc s + s.srcLen.toNat ≤ 2 ^ 32 - 1) : Invariants (counted acc s) := by
  refine .invalid h.sizeLegal h.bufCanonical h.bufInRange ?_ rfl rfl h.oneFlag h.busyClear h.errNamed
    h.doneUnnamed
  have hbase : freqSum (countStart acc s) = countBase acc s := by
    cases acc with
    | false => exact freqSum_zero
    | true => exact h.totalIsSum.symm
  have hs := (countBytes_sum (countStart acc s) s.source (by rw [hbase, length_source]; omega)).2
  rw [hbase, length_source] at hs
  have e : freqSum (Machine.counted acc s).freq = countBase acc s + s.srcLen.toNat := hs
  refine Eq.trans ?_ e.symm
  show (BitVec.ofNat 32 (countBase acc s + s.srcLen.toNat)).toNat = _
  rw [BitVec.toNat_ofNat, Nat.mod_eq_of_lt (by omega)]

/-- A valid tree of a given shape, with no valid codes. -/
theorem Invariants.tree {s : State} (h1 : s.cfg.wf = true) (h2 : Memory.wf s.buf = true)
    (h3 : ∀ c ∈ s.buf, c.1 < s.cfg.bufSize) (h4 : s.total.toNat = (s.freq.toList.map BitVec.toNat).sum)
    (h6 : s.codesValid = false)
    (ht : (s.treeKind = .empty ∧ s.leaves = 0 ∧ s.root = 0) ∨
      ∃ t : CodeTree, holds s.node s.root t = true ∧ t.symbols.Nodup ∧ s.treeKind = t.kind ∧
        s.leaves.toNat = t.symbols.length)
    (h7 : ¬(s.done = true ∧ s.err = true))
    (h8 : s.busy = true → s.done = false ∧ s.err = false) (h9 : s.err = true → s.errCode ≠ .none)
    (h10 : s.done = true → s.errCode = .none ∧ s.errAddr = 0) : Invariants s where
  sizeLegal := h1
  bufCanonical := h2
  bufInRange := h3
  totalIsSum := h4
  codesNeedTree := fun h => by rw [h6] at h; exact absurd h Bool.false_ne_true
  singleTree := fun _ hk => by
    rcases ht with ⟨hk', _⟩ | ⟨t, hh, hn, hk', hl⟩
    · rw [hk] at hk'; exact absurd hk' (by decide)
    · cases t with
      | leaf x =>
        obtain ⟨n, hn, hleaf, _⟩ := (holds_leaf_iff _ _ _).mp hh
        exact ⟨BitVec.eq_of_toNat_eq hl, n, hn, hleaf⟩
      | node l r => rw [hk] at hk'; exact absurd hk' (by simp [CodeTree.kind])
  multiTree := fun _ hk => by
    rcases ht with ⟨hk', _⟩ | ⟨t, hh, hn, hk', hl⟩
    · rw [hk] at hk'; exact absurd hk' (by decide)
    · refine ⟨?_, t, hh, reached_nodup _ _ _ hh hn, hn, hl⟩
      cases t with
      | leaf x => rw [hk] at hk'; exact absurd hk' (by simp [CodeTree.kind])
      | node l r =>
        rw [hl]
        have := l.one_le_symbols
        have := r.one_le_symbols
        simp only [CodeTree.symbols, List.length_append]
        omega
  emptyTree := fun _ hk => by
    rcases ht with ⟨_, hl, hr⟩ | ⟨t, _, _, hk', _⟩
    · exact ⟨hl, hr⟩
    · rw [hk] at hk'; cases t <;> exact absurd hk' (by simp [CodeTree.kind])
  codesCurrent := fun h => by rw [h6] at h; exact absurd h Bool.false_ne_true
  oneFlag := h7
  busyClear := h8
  errNamed := h9
  doneUnnamed := h10

/-- R49.2 and R49.4 after BUILD (R104, R110). -/
theorem Invariants.built {s : State} (h : Invariants s) : Invariants (built s) := by
  refine .tree h.sizeLegal h.bufCanonical h.bufInRange h.totalIsSum rfl ?_ h.oneFlag h.busyClear h.errNamed
    h.doneUnnamed
  by_cases h0 : leafCount s.freq = 0
  · left
    simp [Machine.built, h0, builtKind, builtRoot]
  · right
    obtain ⟨t, h1, h2, h3, _⟩ := builtNodes_tree s.freq s.node h0
    refine ⟨t, h1, h2.nodup_iff.mpr (nodup_presentSymbols _), h3.symm, ?_⟩
    have hl := leafCount_le s.freq
    rw [h2.length_eq]
    show (BitVec.ofNat 9 (leafCount s.freq)).toNat = _
    rw [BitVec.toNat_ofNat, Nat.mod_eq_of_lt (by omega)]
    rfl

/-- R49.3 after GENCODE (R114). -/
theorem Invariants.coded {s : State} (h : Invariants s) (hv : s.treeValid = true) {tab : CodeTable}
    (hc : codesOf s.treeKind s.node s.root = .ok tab) : Invariants (coded tab s) where
  sizeLegal := h.sizeLegal
  bufCanonical := h.bufCanonical
  bufInRange := h.bufInRange
  totalIsSum := h.totalIsSum
  codesNeedTree := fun _ => hv
  singleTree := h.singleTree
  multiTree := fun hv hk => by
    obtain ⟨h1, t, ht⟩ := h.multiTree hv hk
    exact ⟨h1, t, ht.inNode, ht.onePath, ht.distinct, ht.count⟩
  emptyTree := h.emptyTree
  codesCurrent := fun _ => ⟨tab, hc, rfl, rfl, rfl⟩
  oneFlag := h.oneFlag
  busyClear := h.busyClear
  errNamed := h.errNamed
  doneUnnamed := h.doneUnnamed

theorem Invariants.encoded {s : State} (h : Invariants s) (p : List Byte) (hl : s.dstAddr.toNat + p.length ≤ s.cfg.bufSize) :
    Invariants (encoded p s) :=
  (h.writeBytes _ p hl).congr rfl rfl rfl rfl rfl rfl rfl rfl rfl rfl rfl rfl rfl rfl rfl id id h.busyClear

theorem Invariants.encodeFailed {s : State} (h : Invariants s) (hr : RangesLegal s) : Invariants (encodeFailed s) :=
  (h.anyWindow s.draws hr.dst).congr rfl rfl rfl rfl rfl rfl rfl rfl rfl rfl rfl rfl rfl rfl rfl id id h.busyClear

theorem Invariants.decodeFailed {s : State} (h : Invariants s) (hr : RangesLegal s) : Invariants (decodeFailed s) := by
  have hw := h.invalidated.anyWindow s.draws hr.dst
  exact .invalid hw.sizeLegal hw.bufCanonical hw.bufInRange hw.totalIsSum rfl rfl h.oneFlag h.busyClear
    h.errNamed h.doneUnnamed

theorem Invariants.decodedEmpty {s : State} (h : Invariants s) : Invariants (decodedEmpty s) :=
  .tree h.sizeLegal h.bufCanonical h.bufInRange h.totalIsSum rfl (.inl ⟨rfl, rfl, rfl⟩) h.oneFlag h.busyClear
    h.errNamed h.doneUnnamed

theorem Invariants.decoded {s : State} (h : Invariants s) (hr : RangesLegal s) (n : Nat) (hn : n ≤ s.dstCap.toNat)
    (t : CodeTree) (ht : t.symbols.Nodup) (xs : List Symbol) (hx : xs.length = n) (q : Nat) :
    Invariants (decoded n { symbols := xs, bits := q, tree := loaded (loaderStart s.node) t } s) := by
  have hw := h.writeBytes s.dstAddr.toNat xs (by have := hr.dst; omega)
  refine .tree hw.sizeLegal hw.bufCanonical hw.bufInRange hw.totalIsSum rfl (.inr ⟨t, ?_, ht, ?_, ?_⟩) h.oneFlag
    h.busyClear h.errNamed h.doneUnnamed
  · exact loaded_holds s.node t ht
  · exact loadedKind_holds _ t (loaded_holds s.node t ht)
  · have := nodup_symbols_le _ ht
    show (BitVec.ofNat 9 (0 + t.symbols.length)).toNat = _
    rw [BitVec.toNat_ofNat, Nat.zero_add, Nat.mod_eq_of_lt (by omega)]

/-! ## The resets and the bus -/

theorem resetRegisters_inv {s : State} (h1 : s.cfg.wf = true) (h2 : Memory.wf s.buf = true)
    (h3 : ∀ c ∈ s.buf, c.1 < s.cfg.bufSize) : Invariants (resetRegisters s) := by
  refine .invalid h1 h2 h3 ?_ rfl rfl ?_ ?_ ?_ ?_
  · exact freqSum_zero.symm
  all_goals simp [resetRegisters, State.reset]

theorem Invariants.softReset {s : State} (h : Invariants s) : Invariants (softReset s) := by
  unfold Machine.softReset
  split
  · rename_i hc
    simp only [Bool.and_eq_true, inBuf, decide_eq_true_eq] at hc
    have hw := h.anyWindow s.draws hc.2
    exact resetRegisters_inv hw.sizeLegal hw.bufCanonical hw.bufInRange
  · exact resetRegisters_inv h.sizeLegal h.bufCanonical h.bufInRange

theorem Invariants.hardwareReset {s : State} (h : Invariants s) : Invariants (hardwareReset s) := by
  have := resetRegisters_inv (s := { s with buf := [] }) h.sizeLegal (show Memory.wf [] = true by decide) (by simp)
  exact this.own _ _ _ _

theorem Invariants.respond {s : State} (h : Invariants s) (r : Response) : Invariants { s with response := r } :=
  h.own s.bufDraw s.draws s.pending r

theorem Invariants.acceptCommand {s : State} (h : Invariants s) (w : Word) : Invariants (acceptCommand w s) :=
  h.congr rfl rfl rfl rfl rfl rfl rfl rfl rfl rfl rfl rfl rfl rfl rfl (fun h => absurd h Bool.false_ne_true)
    (fun h => absurd h Bool.false_ne_true) fun _ => ⟨rfl, rfl⟩

theorem Invariants.writeStatus {s : State} (h : Invariants s) (w : Word) : Invariants (writeStatus w s) := by
  refine h.congr rfl rfl rfl rfl rfl rfl rfl rfl rfl rfl rfl rfl rfl rfl rfl ?_ ?_ ?_
  · intro hd; exact (Bool.and_eq_true_iff.mp hd).1
  · intro hd; exact (Bool.and_eq_true_iff.mp hd).1
  · intro hb
    obtain ⟨h1, h2⟩ := h.busyClear hb
    simp [Machine.writeStatus, h1, h2]

end Sys2Proof.Machine
end

