-- ==== Sys2Proof/Laws/PerInstr.lean ====
section
/-! SUPPORT. Statements about every instruction as syntax, one lemma per constructor. -/

/-- The fields of an instruction's word are its own: OP and ACC in their places, RSVD 0 (R71, R72, R73). -/
def Sys2Proof.Laws.EncodedFields.Statement (i : Sys2Proof.Instr) : Prop :=
  Sys2Proof.opField (Sys2Proof.encode i) = Sys2Proof.opcode i ∧
    Sys2Proof.accField (Sys2Proof.encode i) = Sys2Proof.accBit i ∧
    Sys2Proof.rsvdField (Sys2Proof.encode i) = 0

theorem Sys2Proof.Laws.EncodedFields.nop : Sys2Proof.Laws.EncodedFields.Statement .nop := by
  unfold Sys2Proof.Laws.EncodedFields.Statement; decide

theorem Sys2Proof.Laws.EncodedFields.count (acc : Bool) : Sys2Proof.Laws.EncodedFields.Statement (.count acc) := by
  unfold Sys2Proof.Laws.EncodedFields.Statement; cases acc <;> decide

theorem Sys2Proof.Laws.EncodedFields.build : Sys2Proof.Laws.EncodedFields.Statement .build := by
  unfold Sys2Proof.Laws.EncodedFields.Statement; decide

theorem Sys2Proof.Laws.EncodedFields.gencode : Sys2Proof.Laws.EncodedFields.Statement .gencode := by
  unfold Sys2Proof.Laws.EncodedFields.Statement; decide

theorem Sys2Proof.Laws.EncodedFields.encode : Sys2Proof.Laws.EncodedFields.Statement .encode := by
  unfold Sys2Proof.Laws.EncodedFields.Statement; decide

theorem Sys2Proof.Laws.EncodedFields.decode : Sys2Proof.Laws.EncodedFields.Statement .decode := by
  unfold Sys2Proof.Laws.EncodedFields.Statement; decide
end

