-- ==== Sys2Proof/Tests/Slice0.lean ====
section
/-! SUPPORT. The model's own tests: what the checks refuse, words written out bit by bit from
spec/30_encoding.md, single steps with the values of spec/95_test_vectors.md, and for every obligation
with hypotheses a named state that meets them. -/

namespace Sys2Proof.Tests

set_option Elab.async false

open Sys2Proof.Machine

/-! ## Helpers -/

/-- The state an outcome goes on in; where it stops, the reset state. -/
def nextOf : Host.Outcome State Fault Refusal → State
  | .next t => t
  | .fault _ => State.reset
  | .refused _ => State.reset

/-- Whether an outcome goes on. -/
def goesOn : Host.Outcome State Fault Refusal → Bool
  | .next _ => true
  | .fault _ => false
  | .refused _ => false

theorem eq_next {o : Host.Outcome State Fault Refusal} (h : goesOn o = true) : o = .next (nextOf o) := by
  cases o with
  | next t => rfl
  | fault _ => exact absurd h Bool.false_ne_true
  | refused _ => exact absurd h Bool.false_ne_true

/-- The state after one command. -/
def after (i : Instr) (s : State) : State := nextOf (exec i s)

/-- Bytes as memory from an offset up. -/
def cellsAt (a : Nat) (l : List Byte) : Memory := Memory.storeAll [] a l

/-- The bytes of "aabbbcc". -/
def text : List Byte := [0x61, 0x61, 0x62, 0x62, 0x62, 0x63, 0x63]

/-- The payload of "aabbbcc" (spec/95_test_vectors.md 1.1). -/
def textPayload : List Byte := [0x07, 0x00, 0x00, 0x00, 0x58, 0x96, 0x1B, 0x18, 0xA1, 0xE0]

/-- The tree of "aabbbcc" (1.1). -/
def textTree : CodeTree := .node (.leaf 0x62) (.node (.leaf 0x61) (.leaf 0x63))

/-- A table that holds three values at 0x61, 0x62, 0x63 and zero elsewhere. -/
def three {n : Nat} (a b c : BitVec n) : Vector (BitVec n) 256 :=
  setSymbol (setSymbol (setSymbol (Vector.replicate 256 0) 0x61 a) 0x62 b) 0x63 c

/-- "aabbbcc" in BUF, not counted yet. -/
def plain : State :=
  { State.reset with buf := cellsAt 0 text, srcLen := 7, dstAddr := 0x100, dstCap := 64 }

/-- The state with FREQ of "aabbbcc" (1.1, COUNT). -/
def freqState : State := { plain with freq := three 2 3 2, total := 7 }

/-- The state with the tree of "aabbbcc" (1.1, BUILD). -/
def treeState : State :=
  { freqState with
    node := setNode (setNode (setNode (setNode (setNode State.reset.node
      0 { isLeaf := true, sym := 0x61, nfreq := 2, left := 0, right := 0 })
      1 { isLeaf := true, sym := 0x62, nfreq := 3, left := 0, right := 0 })
      2 { isLeaf := true, sym := 0x63, nfreq := 2, left := 0, right := 0 })
      3 { isLeaf := false, sym := 0, nfreq := 4, left := 0, right := 2 })
      4 { isLeaf := false, sym := 0, nfreq := 7, left := 1, right := 3 }
    leaves := 3, root := 4, treeKind := .multi, treeValid := true }

/-- The state with the codes of "aabbbcc" (1.1, GENCODE). -/
def codeState : State :=
  { treeState with codeLen := three 2 1 2, codeVal := three 2 0 3, maxLen := 2, codesValid := true }

/-- A payload as DECODE's source (2.6): at 0x100, with a window at 0x200. -/
def payloadState (p : List Byte) (cap : Word) : State :=
  { State.reset with
    buf := cellsAt 0x100 p, srcAddr := 0x100, srcLen := BitVec.ofNat 32 p.length
    dstAddr := 0x200, dstCap := cap }

/-- The state with a tree of one leaf, 0x61 (1.2). -/
def singleState : State :=
  { State.reset with
    node := setNode State.reset.node 0 { isLeaf := true, sym := 0x61, nfreq := 4, left := 0, right := 0 }
    leaves := 1, root := 0, treeKind := .single, treeValid := true }

/-- The state with a valid EMPTY tree and its all-zero code table (1.3). -/
def emptyState : State := { State.reset with treeValid := true, codesValid := true }

/-- What a READ answers. -/
def readAt (off : Nat) (s : State) : Response :=
  (busStep { op := .read, addr := BitVec.ofNat 17 off, size := .four, wdata := 0 } s).response

/-! ## The checks refuse ill-formed terms (R6, R53, R79, R84) -/

theorem test_config_refuses_odd_sizes :
    Config.wf { bufSize := 12 } = false ∧ Config.wf { bufSize := 18 } = false ∧
      Config.wf { bufSize := 65540 } = false ∧ Config.wf { bufSize := 16 } = true ∧
      Config.default.wf = true := by decide

theorem test_line_refuses_addresses_off_the_bus :
    Line.wf (.wrBuf .one 0x10000 0) = false ∧ Line.wf (.rdBuf .four 0x10000) = false ∧
      Line.wf (.rdw 0x20000) = false ∧ Line.wf (.rdw 0x1FFFF) = true ∧ Line.wf (.wr .cmd 6) = true := by decide

theorem test_load_refuses_bytes_past_the_window :
    Stmt.addressesOk (.load 0xFFFF [1, 2]) = false ∧ Stmt.addressesOk (.load 0xFFFF [1]) = true := by decide

theorem test_program_refuses_a_command_while_busy :
    programWf .default .ready [.cmd .build, .cmd .gencode] = false ∧
      programWf .default .ready [.cmd .build, .line (.rdBuf .one 0)] = false ∧
      programWf .default .ready [.cmd .build, .line (.rdw 0x1000)] = false ∧
      programWf .default .ready [.run .build, .cmd .gencode] = true ∧
      programWf .default .running [.wait, .load 0 [1], .setsrc 0 1, .run (.count false)] = true := by decide

/-- R18: while a command runs, a reserved offset may be read, the last word of a window before it may not. -/
theorem test_program_admits_reserved_offsets_while_busy :
    ([0xC00, 0xFFC, 0x1FF8, 0x1FFC, 0x4000, 0xFFFC, 0x10010] : List Nat).all
        (fun off => programWf { bufSize := 16 } .running [.line (.rdw off)]) = true ∧
      ([0x400, 0xBFC, 0x1000, 0x1FF4, 0x2000, 0x3FFC, 0x10000, 0x1000C] : List Nat).all
        (fun off => programWf { bufSize := 16 } .running [.line (.rdw off)] = false) = true := by decide

/-- R84, R166: a soft reset makes BUSY 0, so BUF and the windows may be touched after it, and a command after a
`wait` more (log 20); a CTRL write without bit 0 makes nothing idle. -/
theorem test_program_after_a_soft_reset :
    programWf .default .ready
        [.cmd .build, .line (.wr .ctrl 1), .line (.rdBuf .one 0), .load 0 [1], .line (.rdw 0x1000), .wait, .cmd .nop]
        = true ∧
      programWf .default .ready [.cmd .build, .line (.wr .ctrl 2), .line (.rdBuf .one 0)] = false ∧
      programWf .default .ready [.cmd .build, .line (.wr .ctrl 1), .cmd .nop] = false ∧
      programWf .default .ready [.line (.wr .ctrl 1), .cmd .nop] = true := by decide

/-- A text's characters must be ASCII (R81). -/
theorem test_load_refuses_characters_without_a_byte :
    Stmt.addressesOk (.loadText 0 ['a', 'é']) = false ∧ Stmt.addressesOk (.loadText 0xFFFE ['a', 'b']) = true ∧
      Stmt.addressesOk (.loadText 0xFFFF ['a', 'b']) = false := by decide

theorem test_every_command_is_legal :
    ([.nop, .count false, .count true, .build, .gencode, .encode, .decode] : List Instr).all Instr.wf = true := by
  decide

/-! ## Words, bit by bit from R71 and R72: bits 31:9 RSVD, bit 8 ACC, bits 7:0 OP -/

theorem test_decode_nop : decode 0b00000000000000000000000000000000 = some .nop := by decide
theorem test_decode_count : decode 0b00000000000000000000000000000001 = some (.count false) := by decide
theorem test_decode_count_acc : decode 0b00000000000000000000000100000001 = some (.count true) := by decide
theorem test_decode_build : decode 0b00000000000000000000000000000010 = some .build := by decide
theorem test_decode_gencode : decode 0b00000000000000000000000000000011 = some .gencode := by decide
theorem test_decode_encode : decode 0b00000000000000000000000000000100 = some .encode := by decide
theorem test_decode_decode : decode 0b00000000000000000000000000000101 = some .decode := by decide

/-- The illegal words of 2.1. -/
theorem test_decode_refuses :
    decode 0x00000006 = none ∧ decode 0x000000FF = none ∧ decode 0x00000102 = none ∧
      decode 0x00000100 = none ∧ decode 0x00000200 = none ∧ decode 0x80000001 = none := by decide

theorem test_table_words :
    decodeTableWord 32 0x101 = some (.count true) ∧ decodeTableWord 32 5 = some .decode ∧
      decodeTableWord 32 6 = none ∧ decodeTableWord 40 0x100000005 = none := by decide

theorem test_placed_word_runs :
    goesOn (step (State.reset.withFetchWord 32 2)) = true ∧
      (nextOf (step (State.reset.withFetchWord 32 2))).done = true := by decide +kernel

/-! ## Host programs (R80 to R83) -/

theorem test_transaction_text :
    txnText (writeRegTxn .cmd (encode .build)) = "W@0x00010/4=0x00000002".toList ∧
      txnText (readReg .status) = "R@0x0000C/4".toList := by decide

/-- R81: `ack`, and `load 0, "ab"` with the bytes of the text. -/
theorem test_ack_and_load :
    stmtActs .ack = [.txn { op := .write, addr := 0x0000C, size := .four, wdata := 0x0000000E }] ∧
      stmtActs (.loadText 0 ['a', 'b']) = stmtActs (.load 0 [0x61, 0x62]) ∧
      (programText [] [.loadText 0 ['a', 'b']]) = ["W@0x10000/1=0x00000061".toList, "W@0x10001/1=0x00000062".toList] := by
  decide

/-- R81, U7: a `wait` reads STATUS until BUSY = 0, as often as the Engine lets it, and once where nothing runs;
the Engine may move between any two lines. -/
theorem test_wait_and_delays :
    programEvents [2, 0] [.wait, .run .nop, .cmd .build, .setsrc 0 1] =
      [.host (readReg .status), .host (writeRegTxn .cmd 0), .host (readReg .status), .host (readReg .status),
        .engine, .host (readReg .status), .host (writeRegTxn .cmd 2), .engine, .host (writeRegTxn .srcAddr 0),
        .host (writeRegTxn .srcLen 1)] := by decide

/-! ## One command each, with the values of spec/95_test_vectors.md -/

/-- 2.1: NOP from a state with STATUS = 0xB4 leaves 0xB2, and illegal words leave 0x04. -/
theorem test_nop_status :
    statusWord (after .nop { State.reset with
      cmd := 0, busy := true, treeValid := true, codesValid := true, treeKind := .multi }) = 0xB2 := by decide +kernel

theorem test_illegal_status :
    statusWord (nextOf (engineTurn (acceptCommand 6 State.reset))) = 0x04 := by decide +kernel

/-- 2.2: COUNT of "aabbbcc". -/
theorem test_count :
    atSymbol (after (.count false) plain).freq 0x62 = 3 ∧ (after (.count false) plain).total = 7 := by
  decide +kernel

/-- 2.2: COUNT.ACC that would pass 2^32 − 1 is an OVERFLOW. -/
theorem test_count_acc_overflow :
    (after (.count true) { plain with total := 0xFFFFFFFF, srcLen := 1 }).errCode = .overflow ∧
      (after (.count false) { plain with total := 0xFFFFFFFF, srcLen := 1 }).total = 1 := by decide +kernel

/-- 1.1: BUILD of the FREQ of "aabbbcc". -/
theorem test_build :
    (after .build freqState).node[3]? = some { isLeaf := false, sym := 0, nfreq := 4, left := 0, right := 2 } := by
  decide +kernel

/-- 2.3: the order of "aab": the least is LEFT. -/
theorem test_build_order :
    (after .build { State.reset with freq := three 2 1 0 }).node[2]?
      = some { isLeaf := false, sym := 0, nfreq := 3, left := 1, right := 0 } := by decide +kernel

/-- 1.1: GENCODE of that tree. -/
theorem test_gencode :
    atSymbol (after .gencode treeState).codeLen 0x63 = 2 ∧
      atSymbol (after .gencode treeState).codeVal 0x63 = 3 := by
  decide +kernel

theorem test_gencode_single :
    atSymbol (after .gencode singleState).codeLen 0x61 = 1 ∧
      atSymbol (after .gencode singleState).codeVal 0x61 = 0 := by decide +kernel

/-- 1.1: ENCODE of "aabbbcc". -/
theorem test_encode :
    (after .encode codeState).readBytes 0x100 10 = textPayload ∧ (after .encode codeState).outLen = 10 ∧
      (after .encode codeState).dataBits = 11 ∧ (after .encode codeState).symCount = 7 := by decide +kernel

/-- 2.5: DST_CAP 9 is DST_FULL at 0x109. -/
theorem test_encode_full :
    (after .encode { codeState with dstCap := 9 }).errCode = .dstFull ∧
      (after .encode { codeState with dstCap := 9 }).errAddr = 0x109 := by decide +kernel

/-- 2.6: DECODE of the payload of "aabbbcc". -/
theorem test_decode :
    (after .decode (payloadState textPayload 64)).readBytes 0x200 7 = text ∧
      (after .decode (payloadState textPayload 64)).dataBits = 11 ∧
      statusWord (after .decode (payloadState textPayload 64)) = 0x92 ∧
      readAt 0x1014 (after .decode (payloadState textPayload 64)) = .okayData 0x00000803 := by decide +kernel

/-- 2.6: a repeated symbol is DEC_TREE at 0x105. -/
theorem test_decode_repeated :
    (after .decode (payloadState [0x02, 0, 0, 0, 0x58, 0x6C, 0x20, 0x00] 64)).errCode = .decTree ∧
      (after .decode (payloadState [0x02, 0, 0, 0, 0x58, 0x6C, 0x20, 0x00] 64)).errAddr = 0x105 := by
  decide +kernel

/-! ## The bus (2.7 and P1's bus views) -/

theorem test_window_reads :
    readAt 0x1004 treeState = .okayData 0x81840000 ∧ readAt 0x101C treeState = .okayData 0x00000400 ∧
      readAt 0x588 treeState = .okayData 3 ∧ readAt 0x984 codeState = .okayData 2 ∧
      readAt 0x2C60 codeState = .okayData 3 ∧ readAt 0x2C24 codeState = .okayData 0 := by decide +kernel

theorem test_bus_refusals :
    readAt 0x1FF8 State.reset = .error ∧ readAt 0x00048 State.reset = .error ∧
      (busStep { op := .read, addr := 0x0000C, size := .one, wdata := 0 } State.reset).response = .error ∧
      (busStep { op := .read, addr := 0x1FFFF, size := .two, wdata := 0 } State.reset).response = .error ∧
      (busStep { op := .write, addr := 0x00018, size := .four, wdata := 5 }
        (acceptCommand 2 State.reset)).response = .error := by decide +kernel

theorem test_id_is_read_only :
    (busStep { op := .write, addr := 0x00000, size := .four, wdata := 0 } State.reset).response = .okay ∧
      readAt 0 State.reset = .okayData 0x48554646 := by decide +kernel

theorem test_little_endian :
    (busStep { op := .read, addr := 0x10100, size := .four, wdata := 0 } (payloadState textPayload 64)).response
        = .okayData 0x00000007 ∧
      (busStep { op := .read, addr := 0x10108, size := .two, wdata := 0 } (payloadState textPayload 64)).response
        = .okayData 0x0000E0A1 := by decide +kernel

theorem test_memory_stays_sorted :
    (State.reset.memWrite 4 4 0x04030201).buf = [(4, 1), (5, 2), (6, 3), (7, 4)] ∧
      Memory.wf ((State.reset.memWrite 4 4 0x04030201).memWrite 2 4 0).buf = true := by decide

/-! ## Witnesses: for each obligation with hypotheses, states that meet them, clause by clause -/

/-- The state with the codes of "aabbbcc", by the tree's own table. -/
def codedState : State := coded (treeTable textTree) treeState

theorem treeAt_treeState : TreeAt treeState textTree :=
  ⟨by decide +kernel, by decide +kernel, by decide, by decide⟩

theorem treeAt_codedState : TreeAt codedState textTree :=
  ⟨treeAt_treeState.inNode, treeAt_treeState.onePath, treeAt_treeState.distinct, treeAt_treeState.count⟩

theorem treeAt_singleState : TreeAt singleState (.leaf 0x61) :=
  ⟨by decide +kernel, by decide +kernel, by decide, by decide⟩

theorem invariants_reset : Invariants State.reset :=
  resetRegisters_inv (s := State.reset) (by decide) (by decide) (by simp [State.reset])

theorem invariants_payloadState (p : List Byte) (cap : Word) (h : 0x100 + p.length ≤ 65536) :
    Invariants (payloadState p cap) := by
  have h1 := invariants_reset.writeBytes 0x100 p h
  exact h1.congr rfl rfl rfl rfl rfl rfl rfl rfl rfl rfl rfl rfl rfl rfl rfl id id h1.busyClear

theorem invariants_plain : Invariants plain := by
  have h1 := invariants_reset.writeBytes 0 text (by decide)
  exact h1.congr rfl rfl rfl rfl rfl rfl rfl rfl rfl rfl rfl rfl rfl rfl rfl id id h1.busyClear

theorem invariants_treeState : Invariants treeState :=
  .tree invariants_plain.sizeLegal invariants_plain.bufCanonical invariants_plain.bufInRange
    (by decide +kernel) rfl
    (.inr ⟨textTree, treeAt_treeState.inNode, treeAt_treeState.distinct, rfl, treeAt_treeState.count⟩)
    invariants_plain.oneFlag invariants_plain.busyClear invariants_plain.errNamed invariants_plain.doneUnnamed

theorem invariants_codedState : Invariants codedState :=
  invariants_treeState.coded rfl
    (codesOf_holds treeState.node treeState.root textTree treeAt_treeState.inNode treeAt_treeState.distinct)

theorem invariants_singleState : Invariants singleState :=
  .tree invariants_reset.sizeLegal invariants_reset.bufCanonical invariants_reset.bufInRange
    invariants_reset.totalIsSum rfl
    (.inr ⟨.leaf 0x61, treeAt_singleState.inNode, treeAt_singleState.distinct, rfl, treeAt_singleState.count⟩)
    invariants_reset.oneFlag invariants_reset.busyClear invariants_reset.errNamed invariants_reset.doneUnnamed

theorem ranges_codedState : RangesLegal codedState :=
  ⟨by decide, by decide, by decide⟩

theorem goesOn_codedState : goesOn (exec .encode codedState) = true := by decide +kernel

theorem encoded_codedState :
    exec .encode codedState = .next (after .encode codedState) ∧ (after .encode codedState).done = true ∧
      (after .encode codedState).readBytes codedState.dstAddr.toNat (after .encode codedState).outLen.toNat
        = textPayload := by
  refine ⟨eq_next goesOn_codedState, by decide +kernel, by decide +kernel⟩

/-! ### The command word and the steps -/

theorem witness_EncodedCommandsDecode :
    (Instr.count true).wf = true ∧ decode 0x00000101 = some (.count true) := by decide

theorem witness_StepTakesTheNextEvent :
    ({ State.reset with pending := [.host (readReg .status), .engine] } : State).pending
        = .host (readReg .status) :: [.engine] ∧
      ({ State.reset with pending := [.hardwareReset] } : State).pending = .hardwareReset :: [] ∧
      (({ State.reset with pending := [.engine] } : State).pending = .engine :: [] ∧
        ({ State.reset with pending := [.engine] } : State).busy = false) ∧
      (State.reset.pending = [] ∧ State.reset.busy = false) := ⟨rfl, rfl, ⟨rfl, rfl⟩, rfl, rfl⟩

theorem witness_StepRunsTheDecodedCommand :
    (acceptCommand 5 State.reset).busy = true ∧ decode (acceptCommand 5 State.reset).cmd = some .decode ∧
      (acceptCommand 5 State.reset).pending = [] ∧
      ({ acceptCommand 5 State.reset with pending := [.engine] } : State).pending = .engine :: [] :=
  ⟨rfl, by decide, rfl, rfl⟩

theorem witness_IllegalWordsCompleteWithAnError :
    State.reset.busy = false ∧ decode 0x80000001 = none ∧
      ({ State.reset with
        pending := [.host { op := .write, addr := 0x00010, size := .four, wdata := 0x80000001 }, .engine] } :
          State).pending
        = .host { op := .write, addr := 0x00010, size := .four, wdata := 0x80000001 } :: .engine :: [] ∧
      6 ≤ (0x00000006 : Word).toNat % 256 ∧ 6 ≤ (0xFFFFFFFF : Word).toNat % 256 :=
  ⟨rfl, by decide, rfl, by decide, by decide⟩

theorem witness_CmdWritesAcceptOrOverrun :
    State.reset.busy = false ∧ (acceptCommand 2 State.reset).busy = true := ⟨rfl, rfl⟩

theorem witness_NopCompletes : (0x00000100 : Word).toNat % 256 = 0 ∧ (0x00000100 : Word) ≠ 0 := by decide

/-! ### COUNT -/

/-- One byte past BUF; a sum of 2^32; a range that ends where BUF ends and a sum of 2^32 − 1. -/
theorem witness_CountFollowsItsRule :
    plain.cfg.bufSize
        < ({ plain with srcAddr := 0xFFFF, srcLen := 2 } : State).srcAddr.toNat
          + ({ plain with srcAddr := 0xFFFF, srcLen := 2 } : State).srcLen.toNat ∧
      (let s : State := { plain with total := 0xFFFF0000, srcAddr := 0, srcLen := 0x10000 }
       s.srcAddr.toNat + s.srcLen.toNat ≤ s.cfg.bufSize ∧
         2 ^ 32 - 1 < (if true then s.total.toNat else 0) + s.srcLen.toNat) ∧
      (let s : State := { plain with total := 0xFFFF0000, srcAddr := 1, srcLen := 0xFFFF }
       s.srcAddr.toNat + s.srcLen.toNat ≤ s.cfg.bufSize ∧
         (if true then s.total.toNat else 0) + s.srcLen.toNat ≤ 2 ^ 32 - 1) := by decide

theorem witness_CountGivesTheFrequencyMap :
    let s : State := { plain with srcAddr := 0x10000, srcLen := 0 }
    s.srcAddr.toNat + s.srcLen.toNat ≤ s.cfg.bufSize := by decide

theorem witness_CountsAccumulate : ∃ s t u v w z : State,
    exec (.count false) s = .next t ∧ t.done = true ∧ u.freq = t.freq ∧ u.total = t.total ∧
      exec (.count true) u = .next v ∧ v.done = true ∧
      (w.source = s.source ++ u.source ∨ w.source = u.source ++ s.source) ∧
      exec (.count false) w = .next z ∧ z.done = true := by
  refine ⟨{ plain with srcLen := 3 }, after (.count false) { plain with srcLen := 3 },
    { after (.count false) { plain with srcLen := 3 } with srcAddr := 3, srcLen := 4 },
    after (.count true) { after (.count false) { plain with srcLen := 3 } with srcAddr := 3, srcLen := 4 },
    plain, after (.count false) plain, eq_next (by decide +kernel), by decide +kernel, rfl, rfl,
    eq_next (by decide +kernel), by decide +kernel, .inl (by decide +kernel), eq_next (by decide +kernel),
    by decide +kernel⟩

/-! ### BUILD -/

theorem present_freqState : presentCount freqState.freq = 3 := by decide +kernel

theorem present_one : presentCount (three 5 0 0 : Vector Word 256) = 1 := by decide +kernel

theorem witness_BuildPlacesLeavesInSymbolOrder :
    exec .build freqState = .next (after .build freqState) ∧
      [0x61, 0x62, 0x63].Pairwise (fun a b : Symbol => a.toNat < b.toNat) ∧
      ∀ x, x ∈ ([0x61, 0x62, 0x63] : List Symbol) ↔ 0 < (atSymbol freqState.freq x).toNat :=
  ⟨rfl, by decide, by decide +kernel⟩

theorem witness_BuildKeepsTheRestOfNode :
    exec .build freqState = .next (after .build freqState) ∧
      (2 * presentCount freqState.freq ≤ 5 + 1 ∨ presentCount freqState.freq = 0) ∧
      presentCount freqState.freq ≠ 0 ∧
      holds (after .build freqState).node (after .build freqState).root textTree = true := by
  rw [present_freqState]
  exact ⟨rfl, by decide, by decide, by decide +kernel⟩

/-- The first and the last merge of three leaves. -/
theorem witness_BuildMergesTheTwoLeast :
    exec .build freqState = .next (after .build freqState) ∧ 0 + 1 < presentCount freqState.freq ∧
      1 + 1 < presentCount freqState.freq := by
  rw [present_freqState]
  exact ⟨rfl, by decide, by decide⟩

theorem witness_BuildFrequenciesAddUp :
    exec .build freqState = .next (after .build freqState) ∧
      freqState.total.toNat = (freqState.freq.toList.map BitVec.toNat).sum ∧ 2 ≤ presentCount freqState.freq ∧
      presentCount freqState.freq ≤ 4 ∧ 4 + 1 < 2 * presentCount freqState.freq ∧
      2 < presentCount freqState.freq ∧
      (let s : State := { State.reset with freq := three 5 0 0, total := 5 }
       s.total.toNat = (s.freq.toList.map BitVec.toNat).sum ∧ presentCount s.freq = 1) := by
  rw [present_freqState]
  exact ⟨rfl, by decide +kernel, by decide, by decide, by decide, by decide, by decide +kernel, present_one⟩

theorem witness_BuildDependsOnFreqAlone :
    freqState.freq = ({ treeState with srcAddr := 9 } : State).freq ∧
      exec .build freqState = .next (after .build freqState) ∧
      exec .build { treeState with srcAddr := 9 } = .next (after .build { treeState with srcAddr := 9 }) ∧
      4 + 1 < 2 * presentCount freqState.freq := by
  rw [present_freqState]
  exact ⟨rfl, rfl, rfl, by decide⟩

theorem witness_BuildMakesATree :
    exec .build freqState = .next (after .build freqState) ∧ 2 ≤ presentCount freqState.freq := by
  rw [present_freqState]
  exact ⟨rfl, by decide⟩

/-! ### GENCODE -/

theorem witness_SequenceErrors : State.reset.treeValid = false ∧ State.reset.codesValid = false := ⟨rfl, rfl⟩

theorem witness_GencodeStoresEachPath :
    (emptyState.treeValid = true ∧ emptyState.treeKind = .empty) ∧
      (treeState.treeValid = true ∧ treeState.treeKind = textTree.kind ∧ TreeAt treeState textTree) ∧
      (singleState.treeValid = true ∧ singleState.treeKind = (CodeTree.leaf 0x61).kind ∧
        TreeAt singleState (.leaf 0x61)) :=
  ⟨⟨rfl, rfl⟩, ⟨rfl, rfl, treeAt_treeState⟩, rfl, rfl, treeAt_singleState⟩

theorem witness_CodesArePrefixFree :
    Invariants treeState ∧ exec .gencode treeState = .next (after .gencode treeState) ∧
      (after .gencode treeState).done = true ∧ (0x61 : Symbol) ≠ 0x63 ∧
      0 < (atSymbol (after .gencode treeState).codeLen 0x61).toNat ∧
      0 < (atSymbol (after .gencode treeState).codeLen 0x63).toNat :=
  ⟨invariants_treeState, eq_next (by decide +kernel), by decide +kernel, by decide, by decide +kernel,
    by decide +kernel⟩

theorem witness_CodeLengthsFillTheTree :
    (Invariants treeState ∧ exec .gencode treeState = .next (after .gencode treeState) ∧
      (after .gencode treeState).done = true ∧ treeState.treeKind = .multi ∧ TreeAt treeState textTree ∧
      0x62 ∈ textTree.symbols) ∧
    (Invariants singleState ∧ exec .gencode singleState = .next (after .gencode singleState) ∧
      (after .gencode singleState).done = true ∧ singleState.treeKind = .single) :=
  ⟨⟨invariants_treeState, eq_next (by decide +kernel), by decide +kernel, rfl, treeAt_treeState, by decide⟩,
    invariants_singleState, eq_next (by decide +kernel), by decide +kernel, rfl⟩

/-! ### ENCODE -/

theorem codes_codedState : ∀ x ∈ codedState.source, atSymbol codedState.codeLen x ≠ 0 := by decide +kernel

/-- A payload that fits exactly, and the payload of no symbol. -/
theorem witness_EncodeWritesThePayload :
    (let s : State := { codedState with dstCap := 10 }
     s.codesValid = true ∧ RangesLegal s ∧ TreeAt s textTree ∧ (∀ x ∈ s.source, atSymbol s.codeLen x ≠ 0) ∧
       (payloadOf s.srcLen.toNat textTree (s.source.flatMap (code s))).length ≤ s.dstCap.toNat) ∧
    (let s : State := { emptyState with dstCap := 4 }
     s.codesValid = true ∧ RangesLegal s ∧ s.srcLen.toNat = 0 ∧ s.source = [] ∧
       (payloadOf s.srcLen.toNat textTree (s.source.flatMap (code s))).length ≤ s.dstCap.toNat) :=
  ⟨⟨rfl, ⟨by decide, by decide, by decide⟩,
      ⟨treeAt_treeState.inNode, treeAt_treeState.onePath, treeAt_treeState.distinct, treeAt_treeState.count⟩,
      codes_codedState, by decide +kernel⟩,
    rfl, ⟨by decide, by decide, by decide⟩, rfl, rfl, by decide +kernel⟩

/-- Past BUF by one byte; the window past BUF by one byte; one shared byte. -/
theorem witness_RangeErrorsInOrder :
    codedState.codesValid = true ∧
      (let s : State := { codedState with srcAddr := 0xFFFF, srcLen := 2 }
       s.cfg.bufSize < s.srcAddr.toNat + s.srcLen.toNat) ∧
      (let s : State := { codedState with dstAddr := 0xFFFF, dstCap := 2 }
       s.srcAddr.toNat + s.srcLen.toNat ≤ s.cfg.bufSize ∧ s.cfg.bufSize < s.dstAddr.toNat + s.dstCap.toNat) ∧
      (let s : State := { codedState with dstAddr := 6, dstCap := 16 }
       s.srcAddr.toNat + s.srcLen.toNat ≤ s.cfg.bufSize ∧ s.dstAddr.toNat + s.dstCap.toNat ≤ s.cfg.bufSize ∧
         0 < s.srcLen.toNat ∧ 0 < s.dstCap.toNat ∧ s.srcAddr.toNat < s.dstAddr.toNat + s.dstCap.toNat ∧
         s.dstAddr.toNat < s.srcAddr.toNat + s.srcLen.toNat) := by decide

/-- The last byte has no code; a window one byte short. -/
theorem witness_EncodeErrors :
    (let s : State := { codedState with buf := cellsAt 0 [0x61, 0x62, 0x64], srcLen := 3 }
     s.codesValid = true ∧ RangesLegal s ∧ 2 < s.srcLen.toNat ∧
       atSymbol s.codeLen (s.readByte (s.srcAddr.toNat + 2)) = 0 ∧
       ∀ j, j < 2 → atSymbol s.codeLen (s.readByte (s.srcAddr.toNat + j)) ≠ 0) ∧
    (let s : State := { codedState with dstCap := 9 }
     s.codesValid = true ∧ RangesLegal s ∧ TreeAt s textTree ∧ (∀ x ∈ s.source, atSymbol s.codeLen x ≠ 0) ∧
       s.dstCap.toNat < (payloadOf s.srcLen.toNat textTree (s.source.flatMap (code s))).length) :=
  ⟨⟨rfl, ⟨by decide, by decide, by decide⟩, by decide, by decide +kernel, by decide +kernel⟩,
    rfl, ⟨by decide, by decide, by decide⟩,
    ⟨treeAt_treeState.inNode, treeAt_treeState.onePath, treeAt_treeState.distinct, treeAt_treeState.count⟩,
    codes_codedState, by decide +kernel⟩

/-- A tree with `n + 1` leaves. -/
def comb : Nat → CodeTree
  | 0 => .leaf 0
  | n + 1 => .node (.leaf 0) (comb n)

theorem witness_SerializedTreeLength :
    (comb 0).symbols.length = 1 ∧ (comb 255).symbols.length = 256 := by decide +kernel

theorem witness_EncodedPayloadLength :
    (codedState.cfg.wf = true ∧ exec .encode codedState = .next (after .encode codedState) ∧
      (after .encode codedState).done = true ∧ TreeAt codedState textTree ∧ codedState.srcLen.toNat ≠ 0) ∧
    (let s : State := { emptyState with dstCap := 4 }
     s.cfg.wf = true ∧ exec .encode s = .next (after .encode s) ∧ (after .encode s).done = true ∧
       s.srcLen.toNat = 0) :=
  ⟨⟨by decide, encoded_codedState.1, encoded_codedState.2.1, treeAt_codedState, by decide⟩,
    by decide, eq_next (by decide +kernel), by decide +kernel, rfl⟩

theorem witness_EncodedBitCount :
    codedState.cfg.wf = true ∧
      (∀ x, (atSymbol codedState.freq x).toNat = codedState.source.count x) ∧
      exec .encode codedState = .next (after .encode codedState) ∧ (after .encode codedState).done = true :=
  ⟨by decide, by decide +kernel, encoded_codedState.1, encoded_codedState.2.1⟩

/-! ### DECODE -/

theorem witness_DecodeOfAnEmptyPayload :
    let s := payloadState [0, 0, 0, 0] 0
    RangesLegal s ∧ 4 ≤ s.srcLen.toNat ∧ BytesAt s s.srcAddr.toNat [0, 0, 0, 0] :=
  ⟨⟨by decide, by decide, by decide⟩, by decide, (bytesAt_iff _ _ _).mpr (by decide +kernel)⟩

/-- Three bytes; a count one above the window. -/
theorem witness_DecodeHeaderErrors :
    (let s := payloadState [7, 0, 0] 64
     RangesLegal s ∧ s.srcLen.toNat < 4) ∧
    (let s := payloadState textPayload 6
     RangesLegal s ∧ 7 < 2 ^ 32 ∧ 4 ≤ s.srcLen.toNat ∧ BytesAt s s.srcAddr.toNat (le32 7) ∧ s.dstCap.toNat < 7) :=
  ⟨⟨⟨by decide, by decide, by decide⟩, by decide⟩,
    ⟨by decide, by decide, by decide⟩, by decide, by decide, (bytesAt_iff _ _ _).mpr (by decide +kernel), by decide⟩

/-- The codes of "aabbbcc". -/
def textCodes : List (Symbol × Bits) :=
  [(0x61, [true, false]), (0x61, [true, false]), (0x62, [false]), (0x62, [false]), (0x62, [false]),
    (0x63, [true, true]), (0x63, [true, true])]

theorem bitsAt_of_decide {s : State} {base : Nat} {b : Bits}
    (h : (List.range b.length).map (s.bitAt base) = b) : BitsAt s base b := by
  intro k hk
  have : ((List.range b.length).map (s.bitAt base))[k]'(by simpa using hk) = b[k] := by simp only [h]
  simpa using this

/-- A window with room for exactly the symbols, and a source range that ends with the payload. -/
theorem witness_DecodeReadsAPayload :
    let s := payloadState textPayload 7
    RangesLegal s ∧ textTree.symbols.Nodup ∧ (∀ c ∈ textCodes, c ∈ textTree.codes) ∧ 0 < textCodes.length ∧
      textCodes.length ≤ s.dstCap.toNat ∧ BytesAt s s.srcAddr.toNat (le32 textCodes.length) ∧
      BitsAt s (s.srcAddr.toNat + 4) textTree.bits ∧
      BitsAt s (s.srcAddr.toNat + 4 + (textTree.bits.length + 7) / 8) (codeBits textCodes) ∧
      4 + (textTree.bits.length + 7) / 8 + ((codeBits textCodes).length + 7) / 8 ≤ s.srcLen.toNat :=
  ⟨⟨by decide, by decide, by decide⟩, by decide, by decide, by decide, by decide,
    (bytesAt_iff _ _ _).mpr (by decide +kernel), bitsAt_of_decide (by decide +kernel),
    bitsAt_of_decide (by decide +kernel), by decide +kernel⟩

theorem unfinished_replicate (n : Nat) : Unfinished (List.replicate n none) := by
  induction n with
  | zero => exact .start
  | succ n ih => exact .inLeft _ ih

/-- An internal node and a leaf, in order so far. -/
theorem inOrder_one : WellFormedSoFar [none, some 0x61] :=
  ⟨.inRight (.leaf 0x61) [] .start, by decide, by decide⟩

theorem inOrder_255 : WellFormedSoFar (List.replicate 255 none) :=
  ⟨unfinished_replicate 255, by decide +kernel, by decide +kernel⟩

/-- 2.6: a count of 1 and 32 zero bytes. -/
def zerosState : State := payloadState ([0x01, 0, 0, 0] ++ List.replicate 32 0) 64

/-- Clause by clause: a repeated symbol; 2.6's 256th internal node in the section's last bit; a section that ends
after its nodes (one bit short of the 256th is none, so 32 zero bits end it), and inside a leaf. -/
theorem witness_DecodeTreeSectionErrors :
    (let s := payloadState [0x02, 0, 0, 0, 0x58, 0x6C, 0x20] 64
     let tree := CodeTree.node (.leaf 0x61) (.leaf 0x61)
     RangesLegal s ∧ 2 < 2 ^ 32 ∧ 0 < 2 ∧ 2 ≤ s.dstCap.toNat ∧ 4 ≤ s.srcLen.toNat ∧
       BytesAt s s.srcAddr.toNat (le32 2) ∧ WellFormedSoFar [none, some 0x61] ∧
       Malformed [none, some 0x61] (some 0x61) ∧
       BitsAt s (s.srcAddr.toNat + 4) (sectionBits ([none, some 0x61] ++ [some 0x61])) ∧
       (sectionBits ([none, some 0x61] ++ [some 0x61])).length ≤ 8 * (s.srcLen.toNat - 4) ∧
       ¬tree.symbols.Nodup ∧ BitsAt s (s.srcAddr.toNat + 4) tree.bits ∧
       4 + (tree.bits.length + 7) / 8 ≤ s.srcLen.toNat ∧
       exec .decode s = .next (after .decode s) ∧ (after .decode s).err = true ∧
       (after .decode s).errCode = .decTree) ∧
    (let s := zerosState
     RangesLegal s ∧ 1 ≤ s.dstCap.toNat ∧ 4 ≤ s.srcLen.toNat ∧ BytesAt s s.srcAddr.toNat (le32 1) ∧
       WellFormedSoFar (List.replicate 255 none) ∧ Malformed (List.replicate 255 none) none ∧
       BitsAt s (s.srcAddr.toNat + 4) (sectionBits (List.replicate 255 none ++ [none])) ∧
       (sectionBits (List.replicate 255 none ++ [none])).length = 8 * (s.srcLen.toNat - 4)) ∧
    (let s := payloadState [0x01, 0, 0, 0, 0, 0, 0, 0] 64
     RangesLegal s ∧ 1 ≤ s.dstCap.toNat ∧ 4 ≤ s.srcLen.toNat ∧ BytesAt s s.srcAddr.toNat (le32 1) ∧
       WellFormedSoFar (List.replicate 32 none) ∧
       BitsAt s (s.srcAddr.toNat + 4) (sectionBits (List.replicate 32 none)) ∧
       8 * (s.srcLen.toNat - 4) = (sectionBits (List.replicate 32 none)).length) ∧
    (let s := payloadState [0x01, 0, 0, 0, 0x58, 0x6C] 64
     RangesLegal s ∧ 1 ≤ s.dstCap.toNat ∧ 4 ≤ s.srcLen.toNat ∧ BytesAt s s.srcAddr.toNat (le32 1) ∧
       BitsAt s (s.srcAddr.toNat + 4) (sectionBits [none, some 0x61]) ∧
       s.bitAt (s.srcAddr.toNat + 4) (sectionBits [none, some 0x61]).length = true ∧
       (sectionBits [none, some 0x61]).length ≤ 8 * (s.srcLen.toNat - 4) ∧
       8 * (s.srcLen.toNat - 4) < (sectionBits [none, some 0x61]).length + 9) :=
  ⟨⟨⟨by decide, by decide, by decide⟩, by decide, by decide, by decide, by decide,
      (bytesAt_iff _ _ _).mpr (by decide +kernel), inOrder_one,
      (by decide : (0x61 : Symbol) ∈ sectionSymbols [none, some 0x61]),
      bitsAt_of_decide (by decide +kernel), by decide +kernel, by decide, bitsAt_of_decide (by decide +kernel),
      by decide +kernel, eq_next (by decide +kernel), by decide +kernel, by decide +kernel⟩,
    ⟨⟨by decide +kernel, by decide +kernel, by decide +kernel⟩, by decide, by decide +kernel,
      (bytesAt_iff _ _ _).mpr (by decide +kernel), inOrder_255,
      (by decide +kernel : (List.replicate 255 (none : SectionNode)).count none = 255),
      bitsAt_of_decide (by decide +kernel), by decide +kernel⟩,
    ⟨⟨by decide, by decide, by decide⟩, by decide, by decide, (bytesAt_iff _ _ _).mpr (by decide +kernel),
      ⟨unfinished_replicate 32, by decide +kernel, by decide +kernel⟩, bitsAt_of_decide (by decide +kernel),
      by decide +kernel⟩,
    ⟨by decide, by decide, by decide⟩, by decide, by decide, (bytesAt_iff _ _ _).mpr (by decide +kernel),
    bitsAt_of_decide (by decide +kernel), by decide +kernel, by decide +kernel, by decide +kernel⟩

/-- 2.6: 256 zero bits are DEC_TREE at 0x123. -/
theorem test_decode_256_internal_nodes :
    (after .decode zerosState).errCode = .decTree ∧ (after .decode zerosState).errAddr = 0x123 := by decide +kernel

/-- The last of four data bits is 1; and "aabbbcc" without its last byte, and with no data byte at all. -/
theorem witness_DecodeDataSectionErrors :
    (let s := payloadState [0x04, 0, 0, 0, 0xB0, 0x80, 0x10] 4
     RangesLegal s ∧ 4 < 2 ^ 32 ∧ 3 < 4 ∧ 4 ≤ s.dstCap.toNat ∧ BytesAt s s.srcAddr.toNat (le32 4) ∧
       BitsAt s (s.srcAddr.toNat + 4) (leafBits 0x61) ∧
       BitsAt s (s.srcAddr.toNat + 6) (List.replicate 3 false ++ [true]) ∧ 6 + (3 + 8) / 8 ≤ s.srcLen.toNat) ∧
    ∀ m ∈ [0, 1],
      let s := payloadState (textPayload.take (8 + m)) 64
      RangesLegal s ∧ textTree.symbols.Nodup ∧ (∀ c ∈ textCodes, c ∈ textTree.codes) ∧ 0 < textCodes.length ∧
        textCodes.length ≤ s.dstCap.toNat ∧ BytesAt s s.srcAddr.toNat (le32 textCodes.length) ∧
        BitsAt s (s.srcAddr.toNat + 4) textTree.bits ∧
        s.srcLen.toNat = 4 + (textTree.bits.length + 7) / 8 + m ∧ 8 * m < (codeBits textCodes).length ∧
        BitsAt s (s.srcAddr.toNat + 4 + (textTree.bits.length + 7) / 8) ((codeBits textCodes).take (8 * m)) := by
  refine ⟨⟨⟨by decide, by decide, by decide⟩, by decide, by decide, by decide,
    (bytesAt_iff _ _ _).mpr (by decide +kernel), bitsAt_of_decide (by decide +kernel),
    bitsAt_of_decide (by decide +kernel), by decide +kernel⟩, fun m hm => ?_⟩
  simp only [List.mem_cons, List.not_mem_nil, or_false] at hm
  rcases hm with rfl | rfl <;>
    exact ⟨⟨by decide +kernel, by decide +kernel, by decide +kernel⟩, by decide, by decide, by decide,
      by decide +kernel, (bytesAt_iff _ _ _).mpr (by decide +kernel), bitsAt_of_decide (by decide +kernel),
      by decide +kernel, by decide +kernel, bitsAt_of_decide (by decide +kernel)⟩

theorem witness_DecodeErrorsKeepTheRest :
    (let s := payloadState [7, 0, 0] 64
     exec .decode s = .next (after .decode s) ∧ (after .decode s).err = true) ∧
    (let s : State := { payloadState textPayload 64 with srcAddr := 0xFFFF }
     exec .decode s = .next (after .decode s) ∧ (after .decode s).err = true) :=
  ⟨⟨eq_next (by decide +kernel), by decide +kernel⟩, eq_next (by decide +kernel), by decide +kernel⟩

/-! ### The codec laws -/

theorem witness_DecodeUndoesEncode :
    Invariants codedState ∧ exec .encode codedState = .next (after .encode codedState) ∧
      (after .encode codedState).done = true ∧ RangesLegal (payloadState textPayload 7) ∧
      (payloadState textPayload 7).source = (after .encode codedState).readBytes codedState.dstAddr.toNat
        (after .encode codedState).outLen.toNat ∧
      codedState.srcLen.toNat ≤ (payloadState textPayload 7).dstCap.toNat := by
  obtain ⟨h1, h2, h3⟩ := encoded_codedState
  rw [h3]
  exact ⟨invariants_codedState, h1, h2, ⟨by decide, by decide, by decide⟩, by decide +kernel, by decide⟩

/-- The state after COUNT, BUILD and GENCODE of "aabbbcc". -/
@[irreducible] def ready : State := after .gencode (after .build (after (.count false) plain))

theorem exec_ready : exec .gencode (after .build (after (.count false) plain)) = .next ready := by
  unfold ready
  exact eq_next (by decide +kernel)

/-- The bytes of a part that is one. -/
def bytesOf : Answer (List Byte) → List Byte
  | .ok p => p
  | .raise _ => []
  | .fault _ => []

/-- The payload of "aabbbcc" after COUNT, BUILD and GENCODE, into a window of ten bytes. -/
theorem payload_ready :
    bytesOf (payload { ready with dstAddr := 0x100, dstCap := 10 } plain.source) = textPayload := by
  decide +kernel

theorem encoded_ready :
    goesOn (exec .encode { ready with dstAddr := 0x100, dstCap := 10 }) = true ∧
      (after .encode { ready with dstAddr := 0x100, dstCap := 10 }).readBytes (0x100 : Word).toNat
        (after .encode { ready with dstAddr := 0x100, dstCap := 10 }).outLen.toNat = textPayload := by
  decide +kernel

theorem ranges_ready : RangesLegal { ready with dstAddr := 0x100, dstCap := 10 } :=
  ⟨by decide +kernel, by decide +kernel, by decide +kernel⟩

theorem count_plain : exec (.count false) plain = .next (after (.count false) plain) :=
  eq_next (by decide +kernel)

theorem exec_encode_ready :
    exec .encode { ready with dstAddr := 0x100, dstCap := 10 }
      = .next (after .encode { ready with dstAddr := 0x100, dstCap := 10 }) := eq_next encoded_ready.1

theorem fits_ready : ∀ p, payload { ready with dstAddr := 0x100, dstCap := 10 } plain.source = .ok p →
    p.length ≤ (10 : Word).toNat := by
  intro p hp
  have e : p = textPayload := (congrArg bytesOf hp).symm.trans payload_ready
  rw [e]
  decide

theorem source_ready :
    (payloadState textPayload 7).source = (after .encode { ready with dstAddr := 0x100, dstCap := 10 }).readBytes
      (0x100 : Word).toNat (after .encode { ready with dstAddr := 0x100, dstCap := 10 }).outLen.toNat :=
  Eq.trans (b := textPayload) (by decide +kernel) encoded_ready.2.symm

theorem witness_RoundTrip :
    Invariants plain ∧ plain.srcAddr.toNat + plain.srcLen.toNat ≤ plain.cfg.bufSize ∧
      exec (.count false) plain = .next (after (.count false) plain) ∧
      exec .gencode (after .build (after (.count false) plain)) = .next ready ∧
      RangesLegal { ready with dstAddr := 0x100, dstCap := 10 } ∧
      (∀ p, payload { ready with dstAddr := 0x100, dstCap := 10 } plain.source = .ok p →
        p.length ≤ (10 : Word).toNat) ∧
      exec .encode { ready with dstAddr := 0x100, dstCap := 10 }
        = .next (after .encode { ready with dstAddr := 0x100, dstCap := 10 }) ∧
      RangesLegal (payloadState textPayload 7) ∧
      (payloadState textPayload 7).source = (after .encode { ready with dstAddr := 0x100, dstCap := 10 }).readBytes
        (0x100 : Word).toNat (after .encode { ready with dstAddr := 0x100, dstCap := 10 }).outLen.toNat ∧
      plain.srcLen.toNat ≤ (payloadState textPayload 7).dstCap.toNat := by
  refine ⟨invariants_plain, ?_, count_plain, exec_ready, ranges_ready, fits_ready, exec_encode_ready, ?_,
    source_ready, ?_⟩
  · decide
  · exact ⟨by decide, by decide, by decide⟩
  · decide

/-- Cut by its last byte, and cut to nothing. -/
theorem witness_TruncatedPayloadsRaiseDecTrunc :
    Invariants codedState ∧ exec .encode codedState = .next (after .encode codedState) ∧
      (after .encode codedState).done = true ∧ 9 < (after .encode codedState).outLen.toNat ∧
      0 < (after .encode codedState).outLen.toNat ∧
      (let u := payloadState (textPayload.take 9) 7
       RangesLegal u ∧ u.srcLen.toNat = 9 ∧
         u.source = ((after .encode codedState).readBytes codedState.dstAddr.toNat
           (after .encode codedState).outLen.toNat).take 9 ∧ codedState.srcLen.toNat ≤ u.dstCap.toNat) ∧
      (let u := payloadState [] 7
       RangesLegal u ∧ u.srcLen.toNat = 0 ∧
         u.source = ((after .encode codedState).readBytes codedState.dstAddr.toNat
           (after .encode codedState).outLen.toNat).take 0 ∧ codedState.srcLen.toNat ≤ u.dstCap.toNat) := by
  obtain ⟨h1, h2, h3⟩ := encoded_codedState
  rw [h3]
  exact ⟨invariants_codedState, h1, h2, by decide +kernel, by decide +kernel,
    ⟨⟨by decide, by decide, by decide⟩, by decide, by decide +kernel, by decide⟩,
    ⟨by decide, by decide, by decide⟩, by decide, rfl, by decide⟩

theorem witness_ReencodingGivesThePayloadAgain :
    let u := payloadState textPayload 7
    let w := after .gencode (after .decode u)
    let y : State := { w with srcAddr := 0x200, srcLen := 7, dstAddr := 0x300, dstCap := 10 }
    Invariants codedState ∧ exec .encode codedState = .next (after .encode codedState) ∧
      (after .encode codedState).done = true ∧
      u.source = (after .encode codedState).readBytes codedState.dstAddr.toNat
        (after .encode codedState).outLen.toNat ∧
      exec .decode u = .next (after .decode u) ∧ (after .decode u).done = true ∧
      exec .gencode (after .decode u) = .next w ∧
      y = { w with
        srcAddr := y.srcAddr, srcLen := y.srcLen, dstAddr := y.dstAddr, dstCap := y.dstCap, buf := y.buf } ∧
      RangesLegal y ∧ y.source = codedState.source ∧
      (after .encode codedState).outLen.toNat ≤ y.dstCap.toNat := by
  obtain ⟨h1, h2, h3⟩ := encoded_codedState
  intro u w y
  rw [h3]
  exact ⟨invariants_codedState, h1, h2, by decide +kernel, eq_next (by decide +kernel), by decide +kernel,
    eq_next (by decide +kernel), rfl, ⟨by decide +kernel, by decide +kernel, by decide +kernel⟩,
    by decide +kernel, by decide +kernel⟩

/-! ### The bus -/

/-- A transaction at an offset. -/
def at4 (op : BusOp) (addr : BusAddr) (size : Size) : Txn := { op := op, addr := addr, size := size, wdata := 0 }

/-- Each alternative at the edge of its range. -/
theorem witness_MisalignedNarrowAndReservedAccessesAreRefused :
    ((at4 .read 0x10001 .two).size = .two ∧ (at4 .read 0x10001 .two).addr.toNat % 2 ≠ 0) ∧
      ((at4 .read 0x10002 .four).size = .four ∧ (at4 .read 0x10002 .four).addr.toNat % 4 ≠ 0) ∧
      ((at4 .read 0x0FFFF .one).addr.toNat < 0x10000 ∧ (at4 .read 0x0FFFF .one).size ≠ .four) ∧
      (0x048 ≤ (0x00048 : BusAddr).toNat ∧ (0x003FC : BusAddr).toNat ≤ 0x3FF) ∧
      (0xC00 ≤ (0x00C00 : BusAddr).toNat ∧ (0x00FFC : BusAddr).toNat ≤ 0xFFF) ∧
      (0x1FF8 ≤ (0x01FF8 : BusAddr).toNat ∧ (0x01FFC : BusAddr).toNat ≤ 0x1FFF) ∧
      (0x4000 ≤ (0x04000 : BusAddr).toNat ∧ (0x0FFFC : BusAddr).toNat ≤ 0xFFFF) ∧
      0x10000 + ({ bufSize := 16 } : Config).bufSize ≤ (0x10010 : BusAddr).toNat := by decide

theorem witness_IdleRegisterReads : State.reset.busy = false := rfl

theorem witness_TableWindowReads :
    treeState.busy = false ∧ 7 < 8 ∧ treeState.node[510]? = some Node.zero := by decide +kernel

theorem witness_BusyAdmitsOnlyControlAndStatus :
    let s := acceptCommand 2 State.reset
    let admitted := fun t : Txn => t.size = .four ∧ (t.op = .read ∧ t.addr.toNat % 4 = 0 ∧ t.addr.toNat < 0x048 ∨
      t.op = .write ∧ (t.addr = 0x008 ∨ t.addr = 0x00C))
    s.busy = true ∧ admitted (at4 .read 0x00044 .four) ∧ admitted (at4 .write 0x00008 .four) ∧
      admitted (at4 .write 0x0000C .four) ∧ ¬admitted (at4 .write 0x00010 .four) ∧
      ¬admitted (at4 .read 0x00048 .four) := by decide

theorem witness_BusyRegisterReads :
    Invariants (acceptCommand 2 State.reset) ∧ (acceptCommand 2 State.reset).busy = true :=
  ⟨invariants_reset.acceptCommand 2, rfl⟩

/-- The last word of BUF, and the one after the last of a smaller BUF. -/
theorem witness_BufAccesses :
    0xFFFC < 0x10000 ∧ (Size.four, 4) ∈ [(Size.one, 1), (.two, 2), (.four, 4)] ∧
      (0xFFFC % 4 = 0 ∧ 0xFFFC + 4 ≤ State.reset.cfg.bufSize ∧ State.reset.busy = false) ∧
      ¬(0xFFFE % 4 = 0 ∧ 0xFFFE + 4 ≤ State.reset.cfg.bufSize ∧ State.reset.busy = false) ∧
      ¬(0xFFFC % 4 = 0 ∧ 0xFFFC + 4 ≤ 16 ∧ State.reset.busy = false) := by decide

theorem witness_ReadsChangeNothing : (readReg .status).op = .read := rfl

theorem witness_ReadOnlyWritesAreIgnored :
    State.reset.busy = false ∧
      ([0x000, 0x004, 0x024, 0x044, 0x0400, 0x0BFC, 0x1000, 0x1FF4, 0x2000, 0x3FFC] : List BusAddr).all (fun off =>
        decide ((at4 .write off .four).op = .write ∧ (at4 .write off .four).size = .four ∧
          (at4 .write off .four).addr.toNat % 4 = 0 ∧
          (off.toNat = 0x000 ∨ off.toNat = 0x004 ∨ 0x024 ≤ off.toNat ∧ off.toNat ≤ 0x044 ∨
            0x0400 ≤ off.toNat ∧ off.toNat < 0x0C00 ∨ 0x1000 ≤ off.toNat ∧ off.toNat < 0x1FF8 ∨
            0x2000 ≤ off.toNat ∧ off.toNat < 0x4000))) = true := by decide +kernel

theorem witness_CtrlWrites :
    (0x00000002 : Word).getLsbD 0 = false ∧ (0xFFFFFFFF : Word).getLsbD 0 = true := by decide

theorem witness_OperandRegisterWrites : State.reset.busy = false := rfl

/-! ### Resets, the interrupt, every command -/

theorem witness_ResetValues : softReset treeState = softReset treeState := rfl

/-- Idle; a BUILD running; an ENCODE whose window passes the end of BUF by one byte. -/
theorem witness_SoftResetKeepsBuf :
    State.reset.busy = false ∧
      (decode (acceptCommand 2 State.reset).cmd ≠ some .encode ∧
        decode (acceptCommand 2 State.reset).cmd ≠ some .decode) ∧
      (let s : State := { acceptCommand 4 State.reset with dstAddr := 0xFFFF, dstCap := 2 }
       s.cfg.bufSize < s.dstAddr.toNat + s.dstCap.toNat) := by decide

theorem witness_InterruptFollowsCompletion :
    exec .nop State.reset = .next (succeeded State.reset) ∧ (succeeded State.reset).done = true ∧
      (failedWith .range 0 State.reset).err = true := ⟨rfl, rfl, rfl⟩

theorem witness_EveryCommandCompletes : Invariants State.reset ∧ Invariants codedState :=
  ⟨invariants_reset, invariants_codedState⟩

/-- An error of each command that has one. -/
theorem witness_ErrorsByCommand :
    (∀ i ∈ [Instr.count false, .count true, .encode, .decode],
      goesOn (exec i { codedState with srcAddr := 0x10001 }) = true ∧
        (after i { codedState with srcAddr := 0x10001 }).err = true) ∧
      exec .gencode State.reset = .next (after .gencode State.reset) ∧
      (after .gencode State.reset).err = true :=
  ⟨by decide +kernel, eq_next (by decide +kernel), by decide +kernel⟩

theorem witness_CommandsKeepOperandsAndControl :
    exec .encode codedState = .next (after .encode codedState) := encoded_codedState.1

theorem witness_CommandsWriteOnlyTheirOwn :
    exec .decode (payloadState textPayload 7) = .next (after .decode (payloadState textPayload 7)) :=
  eq_next (by decide +kernel)

theorem witness_StepKeepsTheInvariants :
    Invariants (acceptCommand 2 treeState) ∧
      step (acceptCommand 2 treeState) = .next (nextOf (step (acceptCommand 2 treeState))) :=
  ⟨invariants_treeState.acceptCommand 2, eq_next (by decide +kernel)⟩

theorem witness_TheBlockNeverStops : Invariants (acceptCommand 4 codedState) :=
  invariants_codedState.acceptCommand 4

end Sys2Proof.Tests
end

/-! Settling the family of spec/00_scope.md: the invariants of R49 along a run, and that no step of a state
that has them stops (R13). -/

namespace Sys2Proof.Machine

/-! ## The errors of a command -/

/-- The range checks raise RANGE or OVERLAP (R90), hence a named error. -/
theorem rangeChecks_code_ne_none {s : State} {e : CmdError} (h : firstError (rangeChecks s) = some e) :
    e.code ≠ .none := by
  rcases rangeChecks_cases s with ⟨_, h'⟩ | ⟨_, h'⟩ | ⟨_, _, h'⟩ | ⟨_, _, _, _, _, _, h'⟩
  · simp [h] at h'
  all_goals
    obtain rfl := Option.some.inj (h.symm.trans h')
    simp

/-- The scan for codes raises NO_CODE (R127), hence a named error. -/
theorem checkCodes_code_ne_none {s : State} {a : Nat} {xs : List Symbol} {e : CmdError}
    (h : checkCodes s a xs = some e) : e.code ≠ .none := by
  rcases checkCodes_cases s a xs with ⟨h', _⟩ | ⟨_, _, h', _⟩
  · simp [h] at h'
  · obtain rfl := Option.some.inj (h.symm.trans h')
    simp

theorem Invariants.raiseError {s : State} (hi : Invariants s) {e : CmdError} (he : e.code ≠ .none) :
    Invariants (raiseError e s) :=
  hi.failedWith he e.addr

/-! ## Commands keep the invariants -/

theorem exec_count_keeps_invariants {s t : State} {acc : Bool} (hi : Invariants s)
    (h : exec (.count acc) s = .next t) : Invariants t := by
  rcases exec_count_cases acc s with ⟨_, h'⟩ | ⟨_, _, h'⟩ | ⟨_, hlt, h'⟩ <;> rw [h'] at h <;> cases h
  · exact hi.failedWith (by decide) _
  · exact hi.failedWith (by decide) _
  · exact (hi.counted acc hlt).succeeded

theorem exec_gencode_keeps_invariants {s t : State} (hi : Invariants s) (h : exec .gencode s = .next t) :
    Invariants t := by
  rcases exec_gencode_cases h with ⟨_, rfl⟩ | ⟨hv, tab, hc, rfl⟩
  · exact hi.failedWith (by decide) _
  · exact (hi.coded hv hc).succeeded

theorem exec_encode_keeps_invariants {s t : State} (hi : Invariants s) (h : exec .encode s = .next t) :
    Invariants t := by
  rcases exec_encode_cases h with ⟨_, rfl⟩ | ⟨_, e, he, rfl⟩ | ⟨_, hr, e, he, rfl⟩ |
    ⟨_, hr, _, p, _, ⟨_, rfl⟩ | ⟨hp, rfl⟩⟩
  · exact hi.failedWith (by decide) _
  · exact hi.raiseError (rangeChecks_code_ne_none he)
  · exact (hi.encodeFailed hr).raiseError (checkCodes_code_ne_none he)
  · exact (hi.encodeFailed hr).failedWith (by decide) _
  · exact (hi.encoded p (by have := hr.dst; omega)).succeeded

theorem exec_decode_keeps_invariants {s t : State} (hi : Invariants s) (h : exec .decode s = .next t) :
    Invariants t := by
  rcases exec_decode_cases s with ⟨e, he, h'⟩ | ⟨hr, c, a, hc, h'⟩ | ⟨_, _, _, h'⟩ |
    ⟨hr, _, _, hn, tree, cs, hs, hl, _, h'⟩ <;> rw [h'] at h <;> cases h
  · exact hi.raiseError (rangeChecks_code_ne_none he)
  · exact (hi.decodeFailed hr).failedWith (by rcases hc with rfl | rfl | rfl | rfl <;> decide) a
  · exact hi.decodedEmpty.succeeded
  · exact (hi.decoded hr _ hn tree hs _ (by rw [List.length_map, hl]) _).succeeded

/-- Whatever a command completes with, it keeps the invariants of R49. -/
theorem exec_keeps_invariants {s t : State} (i : Instr) (hi : Invariants s) (h : exec i s = .next t) :
    Invariants t := by
  cases i with
  | nop => cases h; exact hi.succeeded
  | count acc => exact exec_count_keeps_invariants hi h
  | build => cases h; exact hi.built.succeeded
  | gencode => exact exec_gencode_keeps_invariants hi h
  | encode => exact exec_encode_keeps_invariants hi h
  | decode => exact exec_decode_keeps_invariants hi h

/-! ## Commands complete -/

theorem exec_gencode_total {s : State} (hi : Invariants s) : ∃ t, exec .gencode s = .next t := by
  cases hv : s.treeValid with
  | false => exact ⟨failedWith .sequence 0 s, by simp [exec, execGencode, checkValid, hv, raiseError_eq]⟩
  | true =>
    obtain ⟨tab, hc⟩ := codesOf_total hi hv
    exact ⟨_, exec_gencode_ok hv hc⟩

theorem payload_total {s : State} (hi : Invariants s) (hv : s.codesValid = true) (xs : List Symbol)
    (hx : ∀ x ∈ xs, atSymbol s.codeLen x ≠ 0) : ∃ p, payload s xs = .ok p := by
  rcases payload_cases hi hv xs hx with ⟨_, h⟩ | ⟨t, cs, _, _, _, _, _, _, _, _, _, _, h⟩
  · exact ⟨_, h⟩
  · exact ⟨_, h⟩

/-- ENCODE reaches no fault: past its checks the tree is one that NODE holds, so the payload is there
(R125, R127). -/
theorem exec_encode_total {s : State} (hi : Invariants s) : ∃ t, exec .encode s = .next t := by
  simp only [exec, execEncode]
  cases hc : firstError (encodeChecks s) with
  | some e => exact ⟨_, rfl⟩
  | none =>
    have hv : s.codesValid = true := by
      by_contra hv
      simp [encodeChecks, checkValid, hv] at hc
    rcases checkCodes_cases s s.srcStart s.source with ⟨h, hall⟩ | ⟨_, _, h, _⟩
    · obtain ⟨p, hp⟩ := payload_total hi hv s.source hall
      simp only [h, hp]
      split <;> exact ⟨_, rfl⟩
    · simp only [h]
      exact ⟨_, rfl⟩

/-- Every command answers a next state in a state with the invariants (R96). -/
theorem exec_total {s : State} (i : Instr) (hi : Invariants s) : ∃ t, exec i s = .next t := by
  cases i with
  | nop => exact ⟨_, exec_nop s⟩
  | count acc =>
    rcases exec_count_cases acc s with ⟨_, h⟩ | ⟨_, _, h⟩ | ⟨_, _, h⟩ <;> exact ⟨_, h⟩
  | build => exact ⟨_, exec_build s⟩
  | gencode => exact exec_gencode_total hi
  | encode => exact exec_encode_total hi
  | decode =>
    rcases exec_decode_cases s with ⟨_, _, h⟩ | ⟨_, _, _, _, h⟩ | ⟨_, _, _, h⟩ |
      ⟨_, _, _, _, _, _, _, _, _, h⟩ <;> exact ⟨_, h⟩

/-! ## Host transactions keep the invariants -/

/-- The invariants do not speak of the operand registers, IRQ_EN and OVERRUN. -/
theorem Invariants.hostFields {s : State} (hi : Invariants s) (a n d cap : Word) (irqEn overrun : Bool) :
    Invariants { s with
      srcAddr := a, srcLen := n, dstAddr := d, dstCap := cap, irqEn := irqEn, overrun := overrun } :=
  hi.congr rfl rfl rfl rfl rfl rfl rfl rfl rfl rfl rfl rfl rfl rfl rfl id id hi.busyClear

theorem Invariants.writeIdle {s t : State} (hs : Invariants s) (ht : Invariants t) :
    Invariants (writeIdle s t) := by
  unfold Machine.writeIdle
  split
  · exact hs.respond _
  · exact ht.respond _

theorem Invariants.writeCtrl {s : State} (hi : Invariants s) (w : Word) : Invariants (writeCtrl w s) := by
  unfold Machine.writeCtrl
  split
  · exact hi.softReset
  · exact hi.hostFields s.srcAddr s.srcLen s.dstAddr s.dstCap (w.getLsbD 1) s.overrun

theorem Invariants.writeCmd {s : State} (hi : Invariants s) (w : Word) : Invariants (writeCmd w s) := by
  unfold Machine.writeCmd
  split
  · exact (hi.hostFields s.srcAddr s.srcLen s.dstAddr s.dstCap s.irqEn true).respond _
  · exact (hi.acceptCommand w).respond _

theorem Invariants.writeReg {s : State} (hi : Invariants s) (r : Reg) (w : Word) : Invariants (writeReg r w s) := by
  cases r with
  | ctrl => exact (hi.writeCtrl w).respond _
  | status => exact (hi.writeStatus w).respond _
  | cmd => exact hi.writeCmd w
  | srcAddr => exact hi.writeIdle (hi.hostFields w s.srcLen s.dstAddr s.dstCap s.irqEn s.overrun)
  | srcLen => exact hi.writeIdle (hi.hostFields s.srcAddr w s.dstAddr s.dstCap s.irqEn s.overrun)
  | dstAddr => exact hi.writeIdle (hi.hostFields s.srcAddr s.srcLen w s.dstCap s.irqEn s.overrun)
  | dstCap => exact hi.writeIdle (hi.hostFields s.srcAddr s.srcLen s.dstAddr w s.irqEn s.overrun)
  | _ => exact hi.writeIdle hi

theorem Invariants.writeTarget {s : State} (hi : Invariants s) (t : Target) (w : Word) :
    Invariants (writeTarget t w s) := by
  cases t with
  | reg r => exact hi.writeReg r w
  | reserved => exact hi.respond _
  | _ => exact hi.writeIdle hi

theorem Invariants.readTarget {s : State} (hi : Invariants s) (t : Target) : Invariants (readTarget t s) := by
  rw [readTarget_frame]
  exact hi.own s.bufDraw _ s.pending _

/-- A host step keeps the invariants of R49, whatever the transaction (R53). -/
theorem Invariants.busStep {s : State} (hi : Invariants s) (t : Txn) : Invariants (busStep t s) := by
  rcases busStep_cases t s with ⟨_, h⟩ | ⟨_, _, _, _, h⟩ | ⟨_, _, _, _, h⟩ | ⟨_, _, hin, h⟩ <;> rw [h]
  · exact hi.respond _
  · exact hi.readTarget _
  · exact hi.writeTarget _ _
  · cases t.op with
    | read => exact hi.respond _
    | write =>
      have hle := of_decide_eq_true hin
      exact (hi.writeBytes _ _ (by rw [length_leBytes]; exact hle)).respond _

/-! ## Steps -/

theorem step_of_host {s : State} {t : Txn} {rest : List Event} (h : s.pending = .host t :: rest) :
    step s = .next (busStep t { s with pending := rest }) := by
  simp [step, nextEvent, h, runEvent]

theorem step_of_hardwareReset {s : State} {rest : List Event} (h : s.pending = .hardwareReset :: rest) :
    step s = .next (hardwareReset { s with pending := rest }) := by
  simp [step, nextEvent, h, runEvent]

theorem step_of_engine {s : State} {rest : List Event} (h : s.pending = .engine :: rest) :
    step s = engineTurn { s with pending := rest } := by
  simp [step, nextEvent, h, runEvent]

theorem step_of_nil {s : State} (h : s.pending = []) : step s = engineTurn s := by
  simp [step, nextEvent, h]

theorem engineTurn_of_idle {s : State} (h : s.busy = false) : engineTurn s = .next s := by
  simp [engineTurn, h]

/-- The ways an Engine's turn can go (R75, R92): idle, a word that is no command, a command. -/
theorem engineTurn_cases (s : State) :
    (s.busy = false ∧ engineTurn s = .next s) ∨
    (s.busy = true ∧ decode s.cmd = none ∧ engineTurn s = .next (failedWith .illegalCmd 0 s)) ∨
    (s.busy = true ∧ ∃ i, decode s.cmd = some i ∧ engineTurn s = exec i s) := by
  cases hb : s.busy with
  | false => exact .inl ⟨rfl, engineTurn_of_idle hb⟩
  | true =>
    right
    cases hd : decode s.cmd with
    | none => exact .inl ⟨rfl, rfl, by simp [engineTurn, hb, engineStep, hd, raiseError_eq]⟩
    | some i => exact .inr ⟨rfl, i, rfl, by simp [engineTurn, hb, engineStep, hd]⟩

/-- An Engine's turn in a state with the invariants answers a next state that has them. -/
theorem engineTurn_total {s : State} (hi : Invariants s) : ∃ t, engineTurn s = .next t ∧ Invariants t := by
  rcases engineTurn_cases s with ⟨_, h⟩ | ⟨_, _, h⟩ | ⟨_, i, _, h⟩
  · exact ⟨s, h, hi⟩
  · exact ⟨_, h, hi.failedWith (by decide) 0⟩
  · obtain ⟨t, ht⟩ := exec_total i hi
    exact ⟨t, h.trans ht, exec_keeps_invariants i hi ht⟩

/-- A step from a state with the invariants answers a next state that has them (R13). -/
theorem step_total {s : State} (hi : Invariants s) : ∃ t, step s = .next t ∧ Invariants t := by
  have hrest (rest : List Event) : Invariants { s with pending := rest } :=
    hi.own s.bufDraw s.draws rest s.response
  cases hp : s.pending with
  | nil => rw [step_of_nil hp]; exact engineTurn_total hi
  | cons e rest =>
    cases e with
    | host t => exact ⟨_, step_of_host hp, (hrest rest).busStep t⟩
    | engine => rw [step_of_engine hp]; exact engineTurn_total (hrest rest)
    | hardwareReset => exact ⟨_, step_of_hardwareReset hp, (hrest rest).hardwareReset⟩

theorem run_succ {s t : State} (h : step s = .next t) (n : Nat) :
    Host.Core.run core (n + 1) s = Host.Core.run core n t := by
  have h' : core.step s = .next t := h
  simp only [Host.Core.run, h']

/-- Any number of steps from a state with the invariants leads to a state that has them. -/
theorem run_total (n : Nat) {s : State} (hi : Invariants s) :
    ∃ t, Host.Core.run core n s = .next t ∧ Invariants t := by
  induction n generalizing s with
  | zero => exact ⟨s, rfl, hi⟩
  | succ n ih =>
    obtain ⟨u, hu, hiu⟩ := step_total hi
    rw [run_succ hu]
    exact ih hiu

/-! ## The obligations -/

/-- Settles O60: a step from a state with the invariants of R49 neither faults nor loses them, so a run
never stops. -/
theorem theBlockNeverStops : Obligations.TheBlockNeverStops := by
  intro s hi n
  obtain ⟨t, ht, _⟩ := run_total n hi
  exact ⟨t, ht⟩

/-- Settles O4, by the event at the head of the list. -/
theorem stepTakesTheNextEvent : Obligations.StepTakesTheNextEvent := fun _ _ =>
  ⟨fun _ h => step_of_host h,
    step_of_hardwareReset,
    fun h hb => (step_of_engine h).trans (engineTurn_of_idle hb),
    fun h hb => (step_of_nil h).trans (engineTurn_of_idle hb)⟩

end Sys2Proof.Machine

/-! Settling the family of spec/10_state.md: what the registers and the table windows read and take, what
resets and commands leave of them, and the invariants of R49. -/

namespace Sys2Proof.Machine

/-! ## Words as numbers -/

/-- A concatenation as a number: the left part above the `m` bits of the right one. -/
theorem toNat_append_eq_add {n m : Nat} (x : BitVec n) (y : BitVec m) :
    (x ++ y).toNat = 2 ^ m * x.toNat + y.toNat := by
  rw [BitVec.toNat_append, Nat.shiftLeft_eq, Nat.mul_comm, Nat.two_pow_add_eq_or_of_lt y.isLt]

/-- STATUS's fields at their places (the layout above R22). -/
theorem statusLayout_toNat (b d e o t c : Bool) (k : TreeKind) :
    (statusLayout b d e o t c k).toNat
      = b.toNat + 2 * d.toNat + 4 * e.toNat + 8 * o.toNat + 16 * t.toNat + 32 * c.toNat
        + 64 * (kindBits k).toNat := by
  simp only [statusLayout, toNat_append_eq_add, BitVec.toNat_ofBool, BitVec.toNat_ofNat]
  omega

/-- STATUS's reserved bits 31:8 read 0 (R18). -/
theorem statusLayout_lt (b d e o t c : Bool) (k : TreeKind) : (statusLayout b d e o t c k).toNat < 256 := by
  rw [statusLayout_toNat]
  have hk := (kindBits k).isLt
  have := b.toNat_le
  have := d.toNat_le
  have := e.toNat_le
  have := o.toNat_le
  have := t.toNat_le
  have := c.toNat_le
  omega

theorem statusLayout_done (b d e o t c : Bool) (k : TreeKind) : (statusLayout b d e o t c k).getLsbD 1 = d := by
  simp only [statusLayout, BitVec.getLsbD_append]
  simp

theorem statusLayout_err (b d e o t c : Bool) (k : TreeKind) : (statusLayout b d e o t c k).getLsbD 2 = e := by
  simp only [statusLayout, BitVec.getLsbD_append]
  simp

theorem statusLayout_overrun (b d e o t c : Bool) (k : TreeKind) :
    (statusLayout b d e o t c k).getLsbD 3 = o := by
  simp only [statusLayout, BitVec.getLsbD_append]
  simp

/-- CTRL reads IRQ_EN in bit 1 and 0 elsewhere (R21). -/
theorem ctrlWord_eq (s : State) : ctrlWord s = BitVec.ofNat 32 (2 * s.irqEn.toNat) := by
  unfold ctrlWord
  cases s.irqEn <;> rfl

/-- The second word of a NODE entry as a number (R40). -/
theorem nodeLinksWord_eq (n : Node) :
    nodeLinksWord n = BitVec.ofNat 32
      (2 ^ 31 * n.isLeaf.toNat + 2 ^ 18 * n.sym.toNat + 2 ^ 9 * n.right.toNat + n.left.toNat) := by
  have h : (nodeLinksWord n).toNat
      = 2 ^ 31 * n.isLeaf.toNat + 2 ^ 18 * n.sym.toNat + 2 ^ 9 * n.right.toNat + n.left.toNat := by
    simp only [nodeLinksWord, toNat_append_eq_add, BitVec.toNat_ofBool, BitVec.toNat_ofNat]
    omega
  rw [← h, BitVec.ofNat_toNat, BitVec.setWidth_eq]

/-- Word `j` of a CODE_VAL entry as a number (R43). -/
theorem extractLsb'_word (v : BitVec 256) (j : Nat) :
    v.extractLsb' (32 * j) 32 = BitVec.ofNat 32 (v.toNat / 2 ^ (32 * j)) := by
  rw [BitVec.extractLsb', Nat.shiftRight_eq_div_pow]

/-! ## Register reads -/

/-- A READ of a register while idle answers its word and changes nothing (R50, R56). -/
theorem busStep_read_reg_idle {s : State} (hb : s.busy = false) (r : Reg) (addr : BusAddr)
    (ha : addr.toNat = regOffset r) {v : Word} (hv : regWord s r = v) :
    busStep { op := .read, addr := addr, size := .four, wdata := 0 } s = { s with response := .okayData v } := by
  rw [busStep_read_reg r addr 0 s ha]
  simp [readTarget, hb, busData, hv]

/-- A READ of a register while a command runs answers the word of R50. -/
theorem busStep_read_reg_busy {s : State} (hb : s.busy = true) (r : Reg) (addr : BusAddr)
    (ha : addr.toNat = regOffset r) {v : Word} (hv : regWordBusy s.draws s r = v) :
    (busStep { op := .read, addr := addr, size := .four, wdata := 0 } s).response = .okayData v := by
  rw [busStep_read_reg r addr 0 s ha]
  simp [readTarget, hb, hv]

/-- Settles O41: an idle READ answers `regWord`, register by register. -/
theorem idleRegisterReads : Obligations.IdleRegisterReads := by
  intro s hb
  have read := busStep_read_reg_idle hb
  refine ⟨read .id _ rfl rfl, read .version _ rfl rfl, read .ctrl _ rfl (ctrlWord_eq s),
    read .status _ rfl rfl, read .cmd _ rfl rfl, read .srcAddr _ rfl rfl, read .srcLen _ rfl rfl,
    read .dstAddr _ rfl rfl, read .dstCap _ rfl rfl, read .outLen _ rfl rfl, read .dataBits _ rfl rfl,
    read .symCount _ rfl rfl, read .total _ rfl rfl, read .leaves _ rfl (BitVec.ofNat_toNat _ _).symm,
    read .root _ rfl (BitVec.ofNat_toNat _ _).symm, read .maxLen _ rfl (BitVec.ofNat_toNat _ _).symm,
    read .errCode _ rfl ?_, read .errAddr _ rfl rfl, ?_⟩
  · unfold regWord
    cases s.errCode <;> rfl
  · rw [statusWord, statusLayout_toNat]
    cases s.treeKind <;> rfl

/-- Settles O44: a READ while busy answers `regWordBusy`, and an accepted command has neither flag up. -/
theorem busyRegisterReads : Obligations.BusyRegisterReads := by
  intro s hi hb
  obtain ⟨hdone, herr⟩ := hi.busyClear hb
  have read := busStep_read_reg_busy hb
  refine ⟨read .id _ rfl rfl, read .version _ rfl rfl, read .ctrl _ rfl (ctrlWord_eq s),
    read .cmd _ rfl rfl, read .srcAddr _ rfl rfl, read .srcLen _ rfl rfl, read .dstAddr _ rfl rfl,
    read .dstCap _ rfl rfl, regWordBusy s.draws s .status, read .status _ rfl rfl, ?_⟩
  exact ⟨(statusLayout_busy ..).trans hb, (statusLayout_done ..).trans hdone,
    (statusLayout_err ..).trans herr, statusLayout_overrun .., statusLayout_lt ..⟩

/-! ## Table window reads -/

/-- A READ of a table window's word while idle answers it and changes nothing (R56). -/
theorem busStep_read_window_idle {s : State} (hb : s.busy = false) {off : Nat} (h : off < 0x10000)
    (h4 : off % 4 = 0) {t : Target} (ht : target off = t) (hreg : ∀ r, t ≠ .reg r) (hres : t ≠ .reserved)
    {v : Word} (hv : targetWord s t = v) :
    busStep { op := .read, addr := BitVec.ofNat 17 off, size := .four, wdata := 0 } s
      = { s with response := .okayData v } := by
  have ha : (BitVec.ofNat 17 off).toNat = off := by
    rw [BitVec.toNat_ofNat]
    exact Nat.mod_eq_of_lt (by omega)
  rw [busStep_low _ _ _ _ (by omega) (by omega), ha, ht]
  cases t with
  | reg r => exact absurd rfl (hreg r)
  | reserved => exact absurd rfl hres
  | _ => simp [readTarget, hb, busData, hv]

/-- The symbol whose entry byte `b` of it stands in, in a window of `k`-byte entries (R39, R42, R43). -/
theorem ofNat_entry_div {k b : Nat} (x : Symbol) (hb : b < k) :
    BitVec.ofNat 8 ((k * x.toNat + b) / k) = x := by
  rw [Nat.mul_add_div (by omega), Nat.div_eq_of_lt hb, Nat.add_zero, BitVec.ofNat_toNat, BitVec.setWidth_eq]

theorem target_freq_entry (x : Symbol) : target (0x0400 + 4 * x.toNat) = .freq x := by
  have hx := x.isLt
  rw [target_freq _ (by omega) (by omega), Nat.add_sub_cancel_left]
  exact congrArg Target.freq (ofNat_entry_div x (by decide : 0 < 4))

theorem target_codeLen_entry (x : Symbol) : target (0x0800 + 4 * x.toNat) = .codeLen x := by
  have hx := x.isLt
  rw [target_codeLen _ (by omega) (by omega), Nat.add_sub_cancel_left]
  exact congrArg Target.codeLen (ofNat_entry_div x (by decide : 0 < 4))

theorem target_codeVal_entry (x : Symbol) {j : Nat} (hj : j < 8) :
    target (0x2000 + 32 * x.toNat + 4 * j) = .codeVal x j := by
  have hx := x.isLt
  rw [target_codeVal _ (by omega) (by omega), Nat.add_assoc, Nat.add_sub_cancel_left,
    ofNat_entry_div x (by omega : 4 * j < 32)]
  exact congrArg (Target.codeVal x) (by omega)

theorem target_nodeFreq_entry {i : Nat} (hi : i < 511) : target (0x1000 + 8 * i) = .nodeFreq i := by
  rw [target_node _ (by omega) (by omega), if_pos (by omega)]
  exact congrArg Target.nodeFreq (by omega)

theorem target_nodeLinks_entry {i : Nat} (hi : i < 511) : target (0x1000 + 8 * i + 4) = .nodeLinks i := by
  rw [target_node _ (by omega) (by omega), if_neg (by omega)]
  exact congrArg Target.nodeLinks (by omega)

/-- Settles O42: each offset's target is the entry, and an idle READ answers its word. -/
theorem tableWindowReads : Obligations.TableWindowReads := by
  intro s x hb
  have hx := x.isLt
  refine ⟨?_, ?_, fun j hj => ?_, fun i n hn => ?_⟩
  · exact busStep_read_window_idle hb (by omega) (by omega) (target_freq_entry x) (by simp) (by simp) rfl
  · exact busStep_read_window_idle hb (by omega) (by omega) (target_codeLen_entry x) (by simp) (by simp)
      (BitVec.ofNat_toNat _ _).symm
  · exact busStep_read_window_idle hb (by omega) (by omega) (target_codeVal_entry x hj) (by simp) (by simp)
      (extractLsb'_word _ j)
  · obtain ⟨hi, _⟩ := Vector.getElem?_eq_some_iff.mp hn
    have hnode : nodeOr0 s.node i = n := by rw [nodeOr0, hn, Option.getD_some]
    refine ⟨?_, ?_⟩
    · exact busStep_read_window_idle hb (by omega) (by omega) (target_nodeFreq_entry hi) (by simp) (by simp)
        (congrArg Node.nfreq hnode)
    · exact busStep_read_window_idle hb (by omega) (by omega) (target_nodeLinks_entry hi) (by simp) (by simp)
        ((congrArg nodeLinksWord hnode).trans (nodeLinksWord_eq n))

/-! ## Register writes -/

theorem writeIdle_of_idle {s : State} (hb : s.busy = false) (t : State) : writeIdle s t = busOkay t := by
  simp [writeIdle, hb]

/-- Settles O50: while idle, `writeIdle` stores the operand register it is given and answers OKAY. -/
theorem operandRegisterWrites : Obligations.OperandRegisterWrites := fun s w hb =>
  ⟨(busStep_write_reg .srcAddr _ w s rfl).trans (writeIdle_of_idle hb _),
    (busStep_write_reg .srcLen _ w s rfl).trans (writeIdle_of_idle hb _),
    (busStep_write_reg .dstAddr _ w s rfl).trans (writeIdle_of_idle hb _),
    (busStep_write_reg .dstCap _ w s rfl).trans (writeIdle_of_idle hb _)⟩

theorem and_not_eq_ite (a b : Bool) : (a && !b) = if b then false else a := by cases b <;> simp

/-- Settles O48: a flag survives exactly where its data bit is 0. -/
theorem statusWriteClearsByOnes : Obligations.StatusWriteClearsByOnes := by
  intro s w
  rw [busStep_write_reg .status _ w s rfl]
  simp only [writeReg, writeStatus, busOkay, and_not_eq_ite]

/-! ## Resets -/

theorem softReset_eq_resetRegisters (s : State) : ∃ u, softReset s = resetRegisters u := by
  unfold softReset
  split
  · exact ⟨_, rfl⟩
  · exact ⟨s, rfl⟩

/-- The reset state and what either reset leaves are R51's registers around some BUF and draws. -/
theorem reset_eq_resetRegisters {s t : State} (h : t = State.reset ∨ t = hardwareReset s ∨ t = softReset s) :
    ∃ u, t = resetRegisters u := by
  rcases h with rfl | rfl | rfl
  · exact ⟨State.reset, rfl⟩
  · exact ⟨{ s with buf := [], bufDraw := s.draws, draws := s.draws + 1, response := .none }, rfl⟩
  · exact softReset_eq_resetRegisters s

theorem softReset_irqEn (s : State) : (softReset s).irqEn = false := by
  obtain ⟨u, hu⟩ := softReset_eq_resetRegisters s
  rw [hu]
  rfl

theorem resetRegisters_node_zero {s : State} {i : Nat} {n : Node} (h : (resetRegisters s).node[i]? = some n) :
    n = Node.zero := by
  obtain ⟨hi, h⟩ := Vector.getElem?_eq_some_iff.mp h
  rw [← h]
  exact Vector.getElem_replicate hi

theorem statusWord_resetRegisters (s : State) : statusWord (resetRegisters s) = 0 := by
  show statusLayout false false false false false false .empty = 0
  decide

/-- Settles O51: all three states have the registers and tables `resetRegisters` writes. -/
theorem resetValues : Obligations.ResetValues := by
  intro s t h
  obtain ⟨u, rfl⟩ := reset_eq_resetRegisters h
  exact ⟨rfl, statusWord_resetRegisters u, rfl, rfl, rfl, rfl, rfl, rfl, rfl, rfl, rfl, rfl, rfl, rfl, rfl,
    rfl, rfl, rfl,
    fun x => ⟨atSymbol_replicate 0 x, atSymbol_replicate 0 x, atSymbol_replicate 0 x⟩,
    fun _ _ => resetRegisters_node_zero, rfl⟩

theorem writeCtrl_of_softReset {w : Word} (h : w.getLsbD 0 = true) (s : State) : writeCtrl w s = softReset s :=
  if_pos h

theorem writeCtrl_of_not_softReset {w : Word} (h : w.getLsbD 0 = false) (s : State) :
    writeCtrl w s = { s with irqEn := w.getLsbD 1 } :=
  if_neg (by rw [h]; exact Bool.false_ne_true)

/-- Settles O49, by SOFT_RESET's bit. -/
theorem ctrlWrites : Obligations.CtrlWrites := by
  intro s w
  have hw := busStep_write_reg .ctrl 0x00008 w s rfl
  refine ⟨fun h0 => ?_, fun h0 => ⟨?_, softReset_irqEn s⟩, ?_⟩
  · rw [hw, writeReg, writeCtrl_of_not_softReset h0]
    rfl
  · rw [hw, writeReg, writeCtrl_of_softReset h0]
    rfl
  · rw [ctrlWord_eq]
    cases s.irqEn <;> rfl

/-! ## What no command writes -/

/-- The fields no command writes: BUF_SIZE, the operand registers, CMD, IRQ_EN, OVERRUN and three of the model's
own. -/
def control (s : State) :
    Config × (Word × Word × Word × Word) × (Word × Bool × Bool) × (Nat × List Event × Response) :=
  (s.cfg, (s.srcAddr, s.srcLen, s.dstAddr, s.dstCap), (s.cmd, s.irqEn, s.overrun),
    (s.bufDraw, s.pending, s.response))

@[simp] theorem control_succeeded (s : State) : control (succeeded s) = control s := rfl

@[simp] theorem control_raiseError (e : CmdError) (s : State) : control (raiseError e s) = control s := rfl

@[simp] theorem control_failedWith (c : ErrCode) (a : Nat) (s : State) :
    control (failedWith c a s) = control s := rfl

@[simp] theorem control_counted (acc : Bool) (s : State) : control (counted acc s) = control s := rfl

@[simp] theorem control_built (s : State) : control (built s) = control s := rfl

@[simp] theorem control_coded (t : CodeTable) (s : State) : control (coded t s) = control s := rfl

@[simp] theorem control_encoded (p : List Byte) (s : State) : control (encoded p s) = control s := rfl

@[simp] theorem control_encodeFailed (s : State) : control (encodeFailed s) = control s := rfl

@[simp] theorem control_decodedEmpty (s : State) : control (decodedEmpty s) = control s := rfl

@[simp] theorem control_decoded (n : Nat) (r : Decoded) (s : State) : control (decoded n r s) = control s := rfl

@[simp] theorem control_decodeFailed (s : State) : control (decodeFailed s) = control s := rfl

/-- No command writes a field of `control` (R15, R93, R94), on any way it can end. -/
theorem exec_control {s t : State} {i : Instr} (h : exec i s = .next t) : control t = control s := by
  cases i with
  | nop => cases h; exact control_succeeded s
  | count acc =>
    rcases exec_count_cases acc s with ⟨_, h'⟩ | ⟨_, _, h'⟩ | ⟨_, _, h'⟩ <;>
      rw [h'] at h <;> cases h <;> simp
  | build => cases h; exact (control_succeeded _).trans (control_built s)
  | gencode => rcases exec_gencode_cases h with ⟨_, rfl⟩ | ⟨_, _, _, rfl⟩ <;> simp
  | encode =>
    rcases exec_encode_cases h with ⟨_, rfl⟩ | ⟨_, _, _, rfl⟩ | ⟨_, _, _, _, rfl⟩ |
      ⟨_, _, _, _, _, ⟨_, rfl⟩ | ⟨_, rfl⟩⟩ <;> simp
  | decode =>
    rcases exec_decode_cases s with ⟨_, _, h'⟩ | ⟨_, _, _, _, h'⟩ | ⟨_, _, _, h'⟩ |
      ⟨_, _, _, _, _, _, _, _, _, h'⟩ <;> rw [h'] at h <;> cases h <;> simp

/-- Settles O56, from the fields `control` collects. -/
theorem commandsKeepOperandsAndControl : Obligations.CommandsKeepOperandsAndControl := by
  intro s t i h
  have hc := exec_control h
  simp only [control, Prod.mk.injEq] at hc
  obtain ⟨hcfg, ⟨hsrc, hlen, hdst, hcap⟩, ⟨hcmd, hirq, hover⟩, hdraw, hpend, hresp⟩ := hc
  exact ⟨hsrc, hlen, hdst, hcap, hcmd, hirq, hover, hcfg, hdraw, hpend, hresp⟩

/-! ## The invariants -/

/-- Settles O58: the reset state is its own registers reset, and its BUF lists no byte. -/
theorem resetHasTheInvariants : Obligations.ResetHasTheInvariants :=
  resetRegisters_inv (s := State.reset) (by decide) (by decide) (by simp [State.reset])

/-- Settles O59: a step from a state with the invariants has one next state, and that one has them. -/
theorem stepKeepsTheInvariants : Obligations.StepKeepsTheInvariants := by
  intro s t hi h
  obtain ⟨u, hu, hiu⟩ := step_total hi
  cases hu.symm.trans h
  exact hiu

end Sys2Proof.Machine

/-! Settling the family of spec/20_memory.md: which transactions the bus refuses, what a READ and a WRITE of
BUF do, and that READs and writes to what is read-only change nothing. -/

namespace Sys2Proof.Machine

/-! ## Refused transactions -/

theorem busStep_misaligned {t : Txn} (h : t.addr.toNat % sizeBytes t.size ≠ 0) (s : State) :
    busStep t s = busError s :=
  if_pos h

theorem busStep_narrow {t : Txn} (hlt : t.addr.toNat < 0x10000) (hs : t.size ≠ .four) (s : State) :
    busStep t s = busError s := by
  rcases busStep_cases t s with ⟨_, e⟩ | ⟨_, _, h4, _⟩ | ⟨_, _, h4, _⟩ | ⟨_, hge, _⟩
  · exact e
  · exact absurd h4 hs
  · exact absurd h4 hs
  · omega

/-- Offsets between the registers and the table windows are reserved (R18), whatever the size. -/
theorem busStep_reserved {t : Txn} (hlt : t.addr.toNat < 0x10000)
    (hgap : 0x048 ≤ t.addr.toNat ∧ t.addr.toNat < 0x0400 ∨ 0x0C00 ≤ t.addr.toNat ∧ t.addr.toNat < 0x1000 ∨
      0x1FF8 ≤ t.addr.toNat ∧ t.addr.toNat < 0x2000 ∨ 0x4000 ≤ t.addr.toNat) (s : State) :
    busStep t s = busError s := by
  have ht := target_reserved _ hgap
  rcases busStep_cases t s with ⟨_, e⟩ | ⟨_, _, _, _, e⟩ | ⟨_, _, _, _, e⟩ | ⟨_, hge, _⟩
  · exact e
  · rw [e, ht]; rfl
  · rw [e, ht]; rfl
  · omega

theorem sizeBytes_pos (size : Size) : 0 < sizeBytes size := by cases size <;> decide

/-- Offsets past BUF are reserved (R18), whatever the size. -/
theorem busStep_past_buf {t : Txn} {s : State} (h : 0x10000 + s.cfg.bufSize ≤ t.addr.toNat) :
    busStep t s = busError s := by
  rcases busStep_cases t s with ⟨_, e⟩ | ⟨hlt, _⟩ | ⟨hlt, _⟩ | ⟨_, _, hin, _⟩
  · exact e
  · omega
  · omega
  · have hle := of_decide_eq_true hin
    have hpos := sizeBytes_pos t.size
    omega

/-- Settles O40, by the reason for which the transaction is refused. -/
theorem misalignedNarrowAndReservedAccessesAreRefused :
    Obligations.MisalignedNarrowAndReservedAccessesAreRefused := by
  intro s t h
  change busStep t s = busError s
  rcases h with ⟨hs, ha⟩ | ⟨hs, ha⟩ | ⟨hlt, hs⟩ | h | h | h | h | h
  · exact busStep_misaligned (by rwa [hs]) s
  · exact busStep_misaligned (by rwa [hs]) s
  · exact busStep_narrow hlt hs s
  · exact busStep_reserved (by omega) (by omega) s
  · exact busStep_reserved (by omega) (by omega) s
  · exact busStep_reserved (by omega) (by omega) s
  · exact busStep_reserved (by omega) (by omega) s
  · exact busStep_past_buf h

/-! ## Transactions while a command runs -/

theorem writeIdle_of_busy {s : State} (hb : s.busy = true) (t : State) : writeIdle s t = busError s := by
  simp [writeIdle, hb]

/-- A write to a table window is handled as one to a read-only register (R56, R58). -/
theorem writeTarget_window {t : Target} (hres : t ≠ .reserved) (hreg : ∀ r, t ≠ .reg r) (w : Word) (s : State) :
    writeTarget t w s = writeIdle s s := by
  cases t with
  | reg r => exact absurd rfl (hreg r)
  | reserved => exact absurd rfl hres
  | _ => rfl

/-- While a command runs, a register answers every READ (R50, R58). -/
theorem readTarget_reg_busy {s : State} (hb : s.busy = true) (r : Reg) :
    readTarget (.reg r) s = busData (regWordBusy s.draws s r) (drawn s) := by
  simp [readTarget, hb]

/-- While a command runs, nothing but a register answers a READ (R58). -/
theorem readTarget_busy_refused {s : State} (hb : s.busy = true) {t : Target} (hreg : ∀ r, t ≠ .reg r) :
    readTarget t s = busError s := by
  cases t with
  | reg r => exact absurd rfl (hreg r)
  | reserved => rfl
  | _ => simp [readTarget, hb]

/-- While a command runs, a register other than CTRL, STATUS and CMD refuses a WRITE (R58). -/
theorem writeReg_busy_refused {s : State} (hb : s.busy = true) {r : Reg}
    (hr : r ≠ .ctrl ∧ r ≠ .status ∧ r ≠ .cmd) (w : Word) : writeReg r w s = busError s := by
  obtain ⟨hctrl, hstatus, hcmd⟩ := hr
  cases r with
  | ctrl => exact absurd rfl hctrl
  | status => exact absurd rfl hstatus
  | cmd => exact absurd rfl hcmd
  | _ => exact writeIdle_of_busy hb _

/-- A CMD write while a command runs (R89). -/
theorem writeReg_cmd_busy {s : State} (hb : s.busy = true) (w : Word) :
    writeReg .cmd w s = busError { s with overrun := true } := by
  simp [writeReg, writeCmd, hb]

/-- The transactions R58 admits while a command runs: READs of the registers, WRITEs to CTRL and STATUS. -/
def AdmittedWhileBusy (t : Txn) : Prop :=
  t.size = .four ∧ (t.op = .read ∧ t.addr.toNat % 4 = 0 ∧ t.addr.toNat < 0x048 ∨
    t.op = .write ∧ (t.addr = 0x008 ∨ t.addr = 0x00C))

theorem busStep_admitted {s : State} (hb : s.busy = true) {t : Txn} (h : AdmittedWhileBusy t) :
    (busStep t s).response ≠ .error := by
  obtain ⟨op, addr, size, w⟩ := t
  obtain ⟨hs, ⟨hop, h4, hlt⟩ | ⟨hop, ha | ha⟩⟩ := h <;> cases hs <;> cases hop
  · obtain ⟨r, hr⟩ := exists_regOffset addr.toNat hlt h4
    rw [busStep_read_reg r addr w s hr.symm, readTarget_reg_busy hb]
    exact Response.noConfusion
  · rw [busStep_write_reg .ctrl addr w s (congrArg BitVec.toNat ha)]
    exact Response.noConfusion
  · rw [busStep_write_reg .status addr w s (congrArg BitVec.toNat ha)]
    exact Response.noConfusion

theorem busStep_cmd_busy {s : State} (hb : s.busy = true) {t : Txn} (h : issuesCommand t = true) :
    busStep t s = busError { s with overrun := true } := by
  obtain ⟨op, addr, size, w⟩ := t
  obtain ⟨hop, hs, ha⟩ := of_decide_eq_true h
  cases hop
  cases hs
  rw [busStep_write_reg .cmd addr w s (congrArg BitVec.toNat ha), writeReg_cmd_busy hb]

theorem busStep_busy_refused {s : State} (hb : s.busy = true) {t : Txn} (hadm : ¬AdmittedWhileBusy t)
    (hcmd : issuesCommand t = false) : busStep t s = busError s := by
  rcases busStep_cases t s with ⟨_, e⟩ | ⟨_, h4, hs, hop, e⟩ | ⟨_, h4, hs, hop, e⟩ | ⟨hidle, _⟩
  · exact e
  · rw [e]
    refine readTarget_busy_refused hb fun r hr => hadm ⟨hs, .inl ⟨hop, h4, ?_⟩⟩
    by_contra hge
    rcases target_cases t.addr.toNat h4 with ⟨q, hq, _⟩ | ⟨_, _, hnot⟩ | ⟨_, hres⟩
    · exact hge (hq ▸ regOffset_lt q)
    · exact hnot r hr
    · rw [hres] at hr
      cases hr
  · rw [e]
    rcases target_cases t.addr.toNat h4 with ⟨r, hr, ht⟩ | ⟨_, hres, hreg⟩ | ⟨_, ht⟩
    · rw [ht]
      refine writeReg_busy_refused hb ⟨?_, ?_, ?_⟩ t.wdata <;> rintro rfl
      · exact hadm ⟨hs, .inr ⟨hop, .inl (BitVec.eq_of_toNat_eq hr)⟩⟩
      · exact hadm ⟨hs, .inr ⟨hop, .inr (BitVec.eq_of_toNat_eq hr)⟩⟩
      · exact of_decide_eq_false hcmd ⟨hop, hs, BitVec.eq_of_toNat_eq hr⟩
    · exact (writeTarget_window hres hreg _ s).trans (writeIdle_of_busy hb s)
    · rw [ht]
      rfl
  · rw [hb] at hidle
    cases hidle

/-- Settles O43: what R58 does not admit is refused, and OVERRUN rises where the refused one is a CMD write. -/
theorem busyAdmitsOnlyControlAndStatus : Obligations.BusyAdmitsOnlyControlAndStatus := by
  intro s t hb
  refine ⟨busStep_admitted hb, fun hadm => ?_⟩
  change busStep t s = busError { s with overrun := s.overrun || issuesCommand t }
  cases hcmd : issuesCommand t with
  | true => rw [busStep_cmd_busy hb hcmd, Bool.or_true]
  | false => rw [busStep_busy_refused hb hadm hcmd, Bool.or_false]

/-! ## BUF -/

/-- `MemRead` as a sum over its bytes (R59). -/
theorem memRead_eq_sum (s : State) (a n : Nat) :
    s.memRead a n = ((List.range n).map fun k => (s.readByte (a + k)).toNat * 2 ^ (8 * k)).sum := by
  rw [State.memRead, leNumber_eq_sum, length_readBytes]
  congr 1
  refine List.map_congr_left fun k hk => ?_
  rw [List.getD_eq_getElem?_getD, getElem?_readBytes s a n k (List.mem_range.mp hk), Option.getD_some]

/-- The bytes `MemWrite` stores (R59). -/
theorem readByte_memWrite_inside (s : State) (a n v k : Nat) (h : k < n) :
    (s.memWrite a n v).readByte (a + k) = BitVec.ofNat 8 (v / 2 ^ (8 * k)) := by
  rw [State.memWrite, readByte_writeBytes_inside s a (leBytes n v) k (by rwa [length_leBytes]),
    getElem_leBytes n v k h]

theorem sameOutside_memWrite (s : State) (a n v : Nat) : SameOutside a n s (s.memWrite a n v) := fun b hb =>
  readByte_writeBytes_outside s a (leBytes n v) b (by rwa [length_leBytes])

/-- BUF starts at a multiple of every size, so the alignment of a transaction is that of its BUF offset. -/
theorem buf_offset_mod_sizeBytes (a : Nat) (size : Size) :
    (0x10000 + a) % sizeBytes size = a % sizeBytes size := by
  cases size <;> simp only [sizeBytes] <;> omega

theorem busStep_buf (op : BusOp) {a : Nat} (ha : a < 0x10000) (size : Size) (w : Word) (s : State) :
    busStep { op := op, addr := BitVec.ofNat 17 (0x10000 + a), size := size, wdata := w } s
      = if a % sizeBytes size ≠ 0 then busError s else bufTxn op a size w s := by
  have haddr : (BitVec.ofNat 17 (0x10000 + a)).toNat = 0x10000 + a := by
    rw [BitVec.toNat_ofNat]
    exact Nat.mod_eq_of_lt (by omega)
  simp only [busStep, haddr, buf_offset_mod_sizeBytes]
  rw [if_neg (by omega : ¬0x10000 + a < 0x10000), Nat.add_sub_cancel_left]

theorem bufTxn_of_okay {s : State} {a : Nat} {size : Size} (hb : s.busy = false)
    (hin : a + sizeBytes size ≤ s.cfg.bufSize) (op : BusOp) (w : Word) :
    bufTxn op a size w s = match op with
      | .read => busData (BitVec.ofNat 32 (s.memRead a (sizeBytes size))) s
      | .write => busOkay (s.memWrite a (sizeBytes size) w.toNat) := by
  have h : ¬(s.busy || !inBuf s a (sizeBytes size)) = true := by simp [hb, inBuf, hin]
  exact (if_neg h).trans (by cases op <;> rfl)

theorem bufTxn_refused {s : State} {a : Nat} {size : Size}
    (h : ¬(a + sizeBytes size ≤ s.cfg.bufSize ∧ s.busy = false)) (op : BusOp) (w : Word) :
    bufTxn op a size w s = busError s := by
  refine if_pos ?_
  by_cases hb : s.busy = true
  · simp [hb]
  · have hout : ¬a + sizeBytes size ≤ s.cfg.bufSize := fun hin => h ⟨hin, by simpa using hb⟩
    simp [inBuf, hout]

/-- Settles O45: past the alignment check the transaction is `MemRead` or `MemWrite` (R57, R59). -/
theorem bufAccesses : Obligations.BufAccesses := by
  intro s a n size w ha hmem
  obtain rfl : n = sizeBytes size := by
    simp only [List.mem_cons, Prod.mk.injEq, List.not_mem_nil, or_false] at hmem
    rcases hmem with ⟨rfl, rfl⟩ | ⟨rfl, rfl⟩ | ⟨rfl, rfl⟩ <;> rfl
  refine ⟨fun ⟨hal, hin, hb⟩ => ⟨?_, (s.memWrite a (sizeBytes size) w.toNat).buf, ?_, ?_, ?_⟩, fun h op => ?_⟩
  · rw [busStep_buf _ ha, if_neg (not_not.mpr hal), bufTxn_of_okay hb hin, ← memRead_eq_sum]
    rfl
  · rw [busStep_buf _ ha, if_neg (not_not.mpr hal), bufTxn_of_okay hb hin]
    rfl
  · exact fun k hk => readByte_memWrite_inside s a _ w.toNat k hk
  · exact sameOutside_memWrite s a _ w.toNat
  · rw [busStep_buf _ ha]
    by_cases hal : a % sizeBytes size = 0
    · rw [if_neg (not_not.mpr hal), bufTxn_refused fun hok => h ⟨hal, hok⟩]
      rfl
    · rw [if_pos hal]
      rfl

/-! ## Transactions without effect -/

/-- A write to a read-only register is ignored with OKAY (R56). -/
theorem writeReg_readOnly_idle {s : State} (hb : s.busy = false) {r : Reg}
    (h : regOffset r = 0x000 ∨ regOffset r = 0x004 ∨ 0x024 ≤ regOffset r) (w : Word) :
    writeReg r w s = busOkay s := by
  cases r with
  | ctrl | status | cmd | srcAddr | srcLen | dstAddr | dstCap => exact absurd h (by decide)
  | _ => exact writeIdle_of_idle hb s

/-- Settles O47: the offset is a read-only register's or a table window's. -/
theorem readOnlyWritesAreIgnored : Obligations.ReadOnlyWritesAreIgnored := by
  intro s ⟨op, addr, size, w⟩ hb hop hs h4 h
  dsimp only at hop hs h4 h
  cases hop
  cases hs
  rw [busStep_low _ _ _ _ (by omega) h4]
  change writeTarget (target addr.toNat) w s = busOkay s
  rcases target_cases addr.toNat h4 with ⟨r, hr, ht⟩ | ⟨_, hres, hreg⟩ | ⟨hgap, _⟩
  · have hlt := regOffset_lt r
    rw [ht]
    exact writeReg_readOnly_idle hb (by omega) w
  · exact (writeTarget_window hres hreg w s).trans (writeIdle_of_idle hb s)
  · omega

/-- Settles O46, by the ways a transaction can go: a refusal, a mapped word, BUF. -/
theorem readsChangeNothing : Obligations.ReadsChangeNothing := by
  intro s t hop
  rcases busStep_cases t s with ⟨_, e⟩ | ⟨_, _, _, _, e⟩ | ⟨_, _, _, hw, _⟩ | ⟨_, _, _, e⟩
  · rw [e]
    rfl
  · rw [e]
    exact readTarget_frame _ s
  · rw [hop] at hw
    cases hw
  · rw [e, hop]
    rfl

end Sys2Proof.Machine

/-! Settling the family of spec/30_encoding.md: the command word, words that are no
command, and what each command leaves unchanged. -/

namespace Sys2Proof.Machine

/-! ## The fields of a command word -/

/-- A word is its three fields (R71). -/
theorem word_eq_fields (w : Word) : (rsvdField w ++ BitVec.ofBool (accField w)) ++ opField w = w := by
  apply BitVec.eq_of_getLsbD_eq
  intro k hk
  simp only [rsvdField, accField, opField, BitVec.getLsbD_append, BitVec.getLsbD_extractLsb',
    BitVec.getLsbD_ofBool]
  rcases Nat.lt_trichotomy k 8 with h | rfl | h
  · simp [h]
  · simp
  · have hlo : ¬k < 8 := by omega
    have hacc : ¬k - 8 < 1 := by omega
    have hrsvd : k - 8 - 1 < 23 := by omega
    have hsum : 9 + (k - 8 - 1) = k := by omega
    simp [hlo, hacc, hrsvd, hsum]

/-- The fields of an encoded command (R72, R73, R80). -/
theorem encode_fields (i : Instr) :
    rsvdField (encode i) = 0 ∧ accField (encode i) = accBit i ∧ opField (encode i) = opcode i := by
  cases i with
  | count acc => cases acc <;> decide
  | _ => decide

theorem opField_toNat (w : Word) : (opField w).toNat = w.toNat % 256 := by
  simp [opField, BitVec.extractLsb'_toNat]

theorem opcode_lt (i : Instr) : (opcode i).toNat < 6 := by cases i <;> simp [opcode]

/-! ## Decode and encode -/

/-- A word decodes to a command exactly where its fields are the command's (R72, R73, R74). -/
theorem decode_eq_some_iff_fields (w : Word) (i : Instr) :
    decode w = some i ↔ rsvdField w = 0 ∧ accField w = accBit i ∧ opField w = opcode i := by
  constructor
  · intro h
    unfold decode at h
    split_ifs at h with hrsvd hcount hacc <;> cases h <;> simp_all [accBit, opcode]
  · rintro ⟨hrsvd, hacc, hop⟩
    cases i <;> simp [decode, hrsvd, hacc, hop, accBit, opcode]

/-- Decoding is the inverse of encoding (R74, R80). -/
theorem decode_eq_some_iff (w : Word) (i : Instr) : decode w = some i ↔ w = encode i := by
  rw [decode_eq_some_iff_fields]
  constructor
  · rintro ⟨hrsvd, hacc, hop⟩
    rw [← word_eq_fields w, hrsvd, hacc, hop]
    rfl
  · rintro rfl
    exact encode_fields i

theorem decode_encode (i : Instr) : decode (encode i) = some i := (decode_eq_some_iff _ i).mpr rfl

theorem decodeTableWord_toNat (w : Word) : decodeTableWord 32 w.toNat = decode w := by
  simp [decodeTableWord, Nat.mod_eq_of_lt w.isLt, w.isLt]

/-- An opcode that no row of the opcode map has is illegal, whatever the other fields are (R75). -/
theorem decode_eq_none_of_opcode {w : Word} (h : 6 ≤ w.toNat % 256) : decode w = none := by
  rw [Option.eq_none_iff_forall_not_mem]
  intro i hi
  obtain ⟨_, _, hop⟩ := (decode_eq_some_iff_fields w i).mp hi
  have hlt := opcode_lt i
  rw [← hop, opField_toNat] at hlt
  omega

/-! ## Words that are no command -/

/-- A CMD write while idle accepts the word (R88). -/
theorem busStep_cmd_idle {s : State} (hb : s.busy = false) (w : Word) :
    busStep { op := .write, addr := 0x00010, size := .four, wdata := w } s = busOkay (acceptCommand w s) := by
  rw [busStep_write_reg .cmd 0x00010 w s rfl]
  simp [writeReg, writeCmd, hb]

/-- The Engine's turn completes an accepted word that is no command with ILLEGAL_CMD (R75). -/
theorem engineTurn_of_illegal {s : State} (hb : s.busy = true) (hd : decode s.cmd = none) :
    engineTurn s = .next (failedWith .illegalCmd 0 s) := by
  simp [engineTurn, hb, engineStep, hd, raiseError_eq]

/-! ## What a command can have written when it completes -/

/-- The states a command can have reached when it completes, before the completion is written: nothing is
written yet, or its results are, or the free values an error leaves (R78, R93, R94, R149). -/
inductive Effect (s : State) : Instr → State → Prop
  | unchanged (i : Instr) : Effect s i s
  | counted (acc : Bool) : Effect s (.count acc) (counted acc s)
  | built : Effect s .build (built s)
  | coded (t : CodeTable) : Effect s .gencode (coded t s)
  | encoded (p : List Byte) (fits : p.length ≤ s.dstCap.toNat) : Effect s .encode (encoded p s)
  | encodeFailed : Effect s .encode (encodeFailed s)
  | decodedEmpty : Effect s .decode (decodedEmpty s)
  | decoded (n : Nat) (r : Decoded) (fits : r.symbols.length ≤ s.dstCap.toNat) :
      Effect s .decode (decoded n r s)
  | decodeFailed : Effect s .decode (decodeFailed s)

/-- A command's next state is the completion of one of its effects: `complete` or an error (R93, R94). -/
theorem exec_effect {s t : State} {i : Instr} (h : exec i s = .next t) :
    ∃ u, Effect s i u ∧ (t = succeeded u ∨ ∃ e, t = raiseError e u) := by
  cases i with
  | nop => cases h; exact ⟨_, .unchanged _, .inl rfl⟩
  | count acc =>
    rcases exec_count_cases acc s with ⟨_, h'⟩ | ⟨_, _, h'⟩ | ⟨_, _, h'⟩ <;> rw [h'] at h <;> cases h
    · exact ⟨_, .unchanged _, .inr ⟨_, (raiseError_eq _ _ _).symm⟩⟩
    · exact ⟨_, .unchanged _, .inr ⟨_, (raiseError_eq _ _ _).symm⟩⟩
    · exact ⟨_, .counted acc, .inl rfl⟩
  | build => cases h; exact ⟨_, .built, .inl rfl⟩
  | gencode =>
    rcases exec_gencode_cases h with ⟨_, rfl⟩ | ⟨_, tab, _, rfl⟩
    · exact ⟨_, .unchanged _, .inr ⟨_, (raiseError_eq _ _ _).symm⟩⟩
    · exact ⟨_, .coded tab, .inl rfl⟩
  | encode =>
    rcases exec_encode_cases h with ⟨_, rfl⟩ | ⟨_, e, _, rfl⟩ | ⟨_, _, e, _, rfl⟩ |
      ⟨_, _, _, p, _, ⟨_, rfl⟩ | ⟨hp, rfl⟩⟩
    · exact ⟨_, .unchanged _, .inr ⟨_, (raiseError_eq _ _ _).symm⟩⟩
    · exact ⟨_, .unchanged _, .inr ⟨e, rfl⟩⟩
    · exact ⟨_, .encodeFailed, .inr ⟨e, rfl⟩⟩
    · exact ⟨_, .encodeFailed, .inr ⟨_, (raiseError_eq _ _ _).symm⟩⟩
    · exact ⟨_, .encoded p hp, .inl rfl⟩
  | decode =>
    rcases exec_decode_cases s with ⟨e, _, h'⟩ | ⟨_, _, _, _, h'⟩ | ⟨_, _, _, h'⟩ |
      ⟨_, _, _, hn, _, cs, _, hl, _, h'⟩ <;> rw [h'] at h <;> cases h
    · exact ⟨_, .unchanged _, .inr ⟨e, rfl⟩⟩
    · exact ⟨_, .decodeFailed, .inr ⟨_, (raiseError_eq _ _ _).symm⟩⟩
    · exact ⟨_, .decodedEmpty, .inl rfl⟩
    · exact ⟨_, .decoded _ _ (by simpa [hl] using hn), .inl rfl⟩

namespace Effect

variable {s u : State} {i : Instr}

theorem counts (h : Effect s i u) (hi : ∀ acc, i ≠ .count acc) : u.freq = s.freq ∧ u.total = s.total := by
  cases h with
  | counted acc => exact absurd rfl (hi acc)
  | _ => exact ⟨rfl, rfl⟩

theorem tree (h : Effect s i u) (hb : i ≠ .build) (hd : i ≠ .decode) :
    u.node = s.node ∧ u.leaves = s.leaves ∧ u.root = s.root ∧ u.treeKind = s.treeKind := by
  cases h with
  | built => exact absurd rfl hb
  | decodedEmpty | decoded | decodeFailed => exact absurd rfl hd
  | _ => exact ⟨rfl, rfl, rfl, rfl⟩

theorem codes (h : Effect s i u) (hi : i ≠ .gencode) :
    u.codeLen = s.codeLen ∧ u.codeVal = s.codeVal ∧ u.maxLen = s.maxLen := by
  cases h with
  | coded => exact absurd rfl hi
  | _ => exact ⟨rfl, rfl, rfl⟩

theorem results (h : Effect s i u) (he : i ≠ .encode) (hd : i ≠ .decode) :
    u.outLen = s.outLen ∧ u.dataBits = s.dataBits ∧ u.symCount = s.symCount ∧ SameBuf s u := by
  cases h with
  | encoded | encodeFailed => exact absurd rfl he
  | decodedEmpty | decoded | decodeFailed => exact absurd rfl hd
  | _ => exact ⟨rfl, rfl, rfl, fun _ => rfl⟩

/-- A command writes BUF inside the destination window only (R60). -/
theorem sameOutside (h : Effect s i u) : SameOutside s.dstAddr.toNat s.dstCap.toNat s u := by
  intro b hb
  cases h with
  | encoded p fits => exact readByte_writeBytes_outside s s.dstAddr.toNat p b (by omega)
  | decoded n r fits => exact readByte_writeBytes_outside s s.dstAddr.toNat r.symbols b (by omega)
  | encodeFailed => exact readByte_anyWindow_outside s.draws s b hb
  | decodeFailed => exact readByte_anyWindow_outside s.draws s b hb
  | _ => rfl

theorem treeValid (h : Effect s i u) (hi : i = .nop ∨ i = .gencode ∨ i = .encode) :
    u.treeValid = s.treeValid := by
  cases h with
  | counted | built | decodedEmpty | decoded | decodeFailed => simp at hi
  | _ => rfl

theorem codesValid (h : Effect s i u) (hi : i = .nop ∨ i = .encode) : u.codesValid = s.codesValid := by
  cases h with
  | counted | built | coded | decodedEmpty | decoded | decodeFailed => simp at hi
  | _ => rfl

end Effect

/-! ## The obligations -/

/-- Settles O2, by `decode_eq_some_iff`. -/
theorem encodedCommandsDecode : Obligations.EncodedCommandsDecode :=
  ⟨fun i _ => ⟨decode_encode i, (decodeTableWord_toNat _).trans (decode_encode i)⟩,
    fun w i h => ((decode_eq_some_iff w i).mp h).symm⟩

/-- Settles O7: the write's step, then the Engine's turn. -/
theorem illegalWordsCompleteWithAnError : Obligations.IllegalWordsCompleteWithAnError := by
  refine ⟨fun s w rest hb hd hp => ?_, fun w h => decode_eq_none_of_opcode h⟩
  have hwrite := step_of_host hp
  rw [busStep_cmd_idle (s := { s with pending := .engine :: rest }) hb w] at hwrite
  have hturn : engineTurn (busOkay (acceptCommand w { s with pending := rest }))
      = .next (failedWith .illegalCmd 0 (busOkay (acceptCommand w { s with pending := rest }))) :=
    engineTurn_of_illegal rfl hd
  rw [run_succ hwrite, run_succ ((step_of_engine rfl).trans hturn)]
  rfl

/-- Settles O57: a completion writes only the flags and the error registers, and each effect keeps what its
command's row does not name. -/
theorem commandsWriteOnlyTheirOwn : Obligations.CommandsWriteOnlyTheirOwn := by
  intro s t i h
  obtain ⟨u, hu, ht⟩ := exec_effect h
  have hcounts : i ≠ .count true → i ≠ .count false → u.freq = s.freq ∧ u.total = s.total :=
    fun h1 h0 => hu.counts (Bool.rec h0 h1)
  rcases ht with rfl | ⟨e, rfl⟩ <;>
    exact ⟨hcounts, hu.tree, hu.codes, hu.results, hu.sameOutside, hu.treeValid, hu.codesValid⟩

/-- Settles O3: the words by evaluation, the transactions by definition. -/
theorem notationWordsAreCmdWrites : Obligations.NotationWordsAreCmdWrites :=
  ⟨by decide, by decide, by decide, by decide, by decide, by decide, by decide, fun _ => rfl, fun _ => rfl⟩

/-- Settles O1: the legal words are the encodings of the commands, which O3 lists. -/
theorem exactlySevenWordsDecode : Obligations.ExactlySevenWordsDecode := by
  obtain ⟨hnop, hcount, hacc, hbuild, hgencode, hencode, hdecode, _⟩ := notationWordsAreCmdWrites
  intro w i
  rw [decode_eq_some_iff]
  cases i with
  | nop => simp [hnop]
  | count acc => cases acc <;> simp [hcount, hacc]
  | build => simp [hbuild]
  | gencode => simp [hgencode]
  | encode => simp [hencode]
  | decode => simp [hdecode]

end Sys2Proof.Machine

/-! Settling the family of spec/40_command_common.md: how a command is accepted, run and completed, the
range checks, and NOP. -/

namespace Sys2Proof.Machine

/-! ## Range checks -/

theorem rangeChecks_of_src {s : State} (h : s.cfg.bufSize < s.srcAddr.toNat + s.srcLen.toNat) :
    firstError (rangeChecks s) = some ⟨.range, s.srcAddr.toNat⟩ := by
  rw [rangeChecks, checkSrc_eq, if_neg (Nat.not_le.mpr h), firstError_some]

theorem rangeChecks_of_dst {s : State} (hsrc : s.srcAddr.toNat + s.srcLen.toNat ≤ s.cfg.bufSize)
    (h : s.cfg.bufSize < s.dstAddr.toNat + s.dstCap.toNat) :
    firstError (rangeChecks s) = some ⟨.range, s.dstAddr.toNat⟩ := by
  rw [rangeChecks, checkSrc_eq, if_pos hsrc, firstError_none, checkDst_eq, if_neg (Nat.not_le.mpr h),
    firstError_some]

theorem rangeChecks_of_overlap {s : State} (hsrc : s.srcAddr.toNat + s.srcLen.toNat ≤ s.cfg.bufSize)
    (hdst : s.dstAddr.toNat + s.dstCap.toNat ≤ s.cfg.bufSize)
    (h : 0 < s.srcLen.toNat ∧ 0 < s.dstCap.toNat ∧ s.srcAddr.toNat < s.dstAddr.toNat + s.dstCap.toNat ∧
      s.dstAddr.toNat < s.srcAddr.toNat + s.srcLen.toNat) :
    firstError (rangeChecks s) = some ⟨.overlap, s.dstAddr.toNat⟩ := by
  rw [rangeChecks, checkSrc_eq, if_pos hsrc, firstError_none, checkDst_eq, if_pos hdst, firstError_none,
    checkApart_eq, if_pos h, firstError_some]

/-- ENCODE and DECODE end with the first range check that fails, before they write anything (R91, R150). -/
theorem exec_of_rangeChecks {s : State} {i : Instr} (hi : i = .encode ∧ s.codesValid = true ∨ i = .decode)
    {e : CmdError} (h : firstError (rangeChecks s) = some e) : exec i s = .next (raiseError e s) := by
  rcases hi with ⟨rfl, hv⟩ | rfl
  · simp only [exec, execEncode, encodeChecks, checkValid, hv, if_true, firstError_none, h]
  · simp only [exec, execDecode, h]

/-- Settles O25: each clause names the check that fails first. -/
theorem rangeErrorsInOrder : Obligations.RangeErrorsInOrder := fun _ _ hi =>
  ⟨fun h => exec_of_rangeChecks hi (rangeChecks_of_src h),
    fun hsrc h => exec_of_rangeChecks hi (rangeChecks_of_dst hsrc h),
    fun hsrc hdst hlen hcap hlow hhigh =>
      exec_of_rangeChecks hi (rangeChecks_of_overlap hsrc hdst ⟨hlen, hcap, hlow, hhigh⟩)⟩

/-! ## Completion -/

/-- Settles O54: a command's next state is a completion (R93, R94), and the invariants name its error. -/
theorem everyCommandCompletes : Obligations.EveryCommandCompletes := by
  intro s i hi
  obtain ⟨t, ht⟩ := exec_total i hi
  have hit := exec_keeps_invariants i hi ht
  refine ⟨t, ht, ?_⟩
  obtain ⟨u, _, rfl | ⟨e, rfl⟩⟩ := exec_effect ht
  · exact ⟨rfl, .inl ⟨rfl, rfl, rfl, rfl⟩⟩
  · exact ⟨rfl, .inr ⟨rfl, rfl, hit.errNamed rfl⟩⟩

/-! ## Acceptance and execution -/

/-- The Engine's turn runs an accepted command (R86, R92). -/
theorem engineTurn_of_decoded {s : State} {i : Instr} (hb : s.busy = true) (hd : decode s.cmd = some i) :
    engineTurn s = exec i s := by
  simp [engineTurn, hb, engineStep, hd]

/-- Settles O5: the step is the Engine's turn, at the head of the list or with nothing pending. -/
theorem stepRunsTheDecodedCommand : Obligations.StepRunsTheDecodedCommand := fun _ _ hb hd =>
  ⟨fun _ hp => (step_of_engine hp).trans (engineTurn_of_decoded hb hd),
    fun hp => (step_of_nil hp).trans (engineTurn_of_decoded hb hd)⟩

/-- Placing a word is its acceptance, with the Engine's turn next (R88). -/
theorem withFetchWord_toNat (s : State) (w : Word) :
    s.withFetchWord 32 w.toNat = { acceptCommand w s with pending := .engine :: s.pending } := by
  rw [State.withFetchWord, Nat.mod_eq_of_lt w.isLt, BitVec.ofNat_toNat, BitVec.setWidth_eq]

/-- Settles O6: the placed word is a command's encoding, and the Engine's turn runs what it decodes to. -/
theorem placedWordRunsNext : Obligations.PlacedWordRunsNext := by
  intro s i
  rw [withFetchWord_toNat, step_of_engine rfl]
  exact engineTurn_of_decoded rfl (decode_encode i)

/-- Accepting a word deasserts the interrupt (R88, R153). -/
theorem irq_acceptCommand (w : Word) (s : State) : irq (acceptCommand w s) = false :=
  Bool.and_false s.irqEn

/-- Settles O8, by whether a command runs. -/
theorem cmdWritesAcceptOrOverrun : Obligations.CmdWritesAcceptOrOverrun := fun s w =>
  ⟨fun hb => ⟨busStep_cmd_idle hb w, irq_acceptCommand w s⟩, fun hb => busStep_cmd_busy hb rfl⟩

/-! ## NOP -/

/-- Opcode 0x00 is NOP's alone (R72). -/
theorem eq_nop_of_opcode {i : Instr} (h : (opcode i).toNat = 0) : i = .nop := by
  cases i with
  | nop => rfl
  | _ => exact absurd h (by simp [opcode])

/-- The one legal word with OP = 0x00 is NOP's, the word 0 (R95). -/
theorem decode_eq_none_of_opcode_zero {w : Word} (hop : w.toNat % 256 = 0) (hw : w ≠ 0) : decode w = none := by
  rw [Option.eq_none_iff_forall_not_mem]
  intro i hi
  obtain ⟨_, _, hi'⟩ := (decode_eq_some_iff_fields w i).mp hi
  obtain rfl : i = .nop := eq_nop_of_opcode (by rw [← hi', opField_toNat, hop])
  exact hw ((decode_eq_some_iff w .nop).mp hi)

/-- Settles O9: `complete` by definition, the other words by their opcode, STATUS by evaluation. -/
theorem nopCompletes : Obligations.NopCompletes :=
  ⟨exec_nop, fun _ => decode_eq_none_of_opcode_zero, by decide⟩

end Sys2Proof.Machine

/-! Settling the family of spec/41_freq_counter.md: what COUNT and COUNT.ACC check and count, the Frequency
Map, and the accumulation law. -/

namespace Sys2Proof.Machine

/-! ## How a count ends -/

/-- A count whose pre-checks pass completes (R97). -/
theorem exec_count_of_fits {acc : Bool} {s : State}
    (hsrc : s.srcAddr.toNat + s.srcLen.toNat ≤ s.cfg.bufSize)
    (hfit : countBase acc s + s.srcLen.toNat ≤ 2 ^ 32 - 1) :
    exec (.count acc) s = .next (succeeded (counted acc s)) := by
  rcases exec_count_cases acc s with ⟨hout, _⟩ | ⟨_, hover, _⟩ | ⟨_, _, h⟩
  · exact absurd hsrc (Nat.not_le.mpr hout)
  · exact absurd hfit (Nat.not_le.mpr hover)
  · exact h

/-- A count that ends with DONE = 1 passed both pre-checks: an error leaves DONE = 0 (R94). -/
theorem eq_counted_of_done {acc : Bool} {s t : State} (h : exec (.count acc) s = .next t)
    (hdone : t.done = true) :
    t = succeeded (counted acc s) := by
  rcases exec_count_cases acc s with ⟨_, h'⟩ | ⟨_, _, h'⟩ | ⟨_, _, h'⟩ <;>
    obtain rfl := Host.Outcome.next.inj (h.symm.trans h')
  · exact absurd hdone Bool.false_ne_true
  · exact absurd hdone Bool.false_ne_true
  · rfl

/-! ## What a count leaves -/

theorem atSymbol_countStart (acc : Bool) (s : State) (x : Symbol) :
    atSymbol (countStart acc s) x = if acc then atSymbol s.freq x else 0 := by
  cases acc with
  | false => exact atSymbol_replicate 0 x
  | true => rfl

theorem atSymbol_freq_counted (acc : Bool) (s : State) (x : Symbol) :
    atSymbol (counted acc s).freq x
      = (if acc then atSymbol s.freq x else 0) + BitVec.ofNat 32 (s.source.count x) := by
  rw [counted_freq, atSymbol_countBytes, atSymbol_countStart]

theorem countBase_false (s : State) : countBase false s = 0 := rfl

/-- COUNT with ACC = 0 sets TOTAL to the number of source bytes. -/
theorem total_counted_false (s : State) : (counted false s).total = s.srcLen := by
  simp [countBase_false, State.srcCount]

/-- COUNT with ACC = 0 leaves the Frequency Map, whose sum is the number of source bytes: the table starts at
zero, so no entry can overflow (R98). -/
theorem freq_counted_false (s : State) :
    (∀ x, (atSymbol (counted false s).freq x).toNat = s.source.count x) ∧
      freqSum (counted false s).freq = s.srcLen.toNat := by
  have hzero : freqSum (countStart false s) = 0 := freqSum_zero
  obtain ⟨hcount, hsum⟩ := countBytes_sum (countStart false s) s.source
    (by rw [hzero, length_source]; omega)
  refine ⟨fun x => ?_, ?_⟩
  · rw [counted_freq, hcount, atSymbol_countStart]
    exact Nat.zero_add _
  · rw [counted_freq, hsum, hzero, length_source, Nat.zero_add]

/-! ## Accumulation -/

section
variable {s u w : State}

/-- A count that starts from another's FREQ counts on: one count over both inputs, in any order (R100,
R101). -/
theorem freq_counted_true (hfreq : u.freq = (counted false s).freq)
    (hw : w.source.Perm (s.source ++ u.source)) : (counted true u).freq = (counted false w).freq :=
  calc countBytes u.freq u.source
      = countBytes (countBytes (Vector.replicate 256 0) s.source) u.source := by rw [hfreq]; rfl
    _ = countBytes (Vector.replicate 256 0) (s.source ++ u.source) := (countBytes_append _ _ _).symm
    _ = countBytes (Vector.replicate 256 0) w.source := countBytes_perm _ hw.symm

/-- TOTAL counts on too: the inputs' lengths add up (R101). -/
theorem total_counted_true (htotal : u.total = (counted false s).total)
    (hw : w.source.Perm (s.source ++ u.source)) : (counted true u).total = (counted false w).total := by
  have hlen : w.srcLen.toNat = s.srcLen.toNat + u.srcLen.toNat := by simpa using hw.length_eq
  rw [total_counted_false] at htotal ⊢
  calc BitVec.ofNat 32 (u.total.toNat + u.srcLen.toNat)
      = BitVec.ofNat 32 w.srcLen.toNat := by rw [htotal, hlen]
    _ = w.srcLen := by simp

end

/-! ## The obligations -/

/-- Settles O10, by the three ways a count can end. -/
theorem countFollowsItsRule : Obligations.CountFollowsItsRule := by
  intro s acc
  rcases exec_count_cases acc s with ⟨hout, h⟩ | ⟨hin, hover, h⟩ | ⟨hin, hfit, h⟩
  · exact ⟨fun _ => h, fun hin => absurd hin (Nat.not_le.mpr hout),
      fun hin => absurd hin (Nat.not_le.mpr hout)⟩
  · exact ⟨fun hout => absurd hin (Nat.not_le.mpr hout), fun _ _ => h,
      fun _ hfit => absurd hfit (Nat.not_le.mpr hover)⟩
  · exact ⟨fun hout => absurd hin (Nat.not_le.mpr hout), fun _ hover => absurd hfit (Nat.not_le.mpr hover),
      fun _ _ => ⟨(counted acc s).freq, h, atSymbol_freq_counted acc s⟩⟩

/-- Settles O11: SRC_LEN alone cannot overflow TOTAL, so the count completes, and it counts from zero. -/
theorem countGivesTheFrequencyMap : Obligations.CountGivesTheFrequencyMap := by
  intro s hsrc
  have hfit : countBase false s + s.srcLen.toNat ≤ 2 ^ 32 - 1 := by rw [countBase_false]; omega
  obtain ⟨hcount, hsum⟩ := freq_counted_false s
  have htotal : (counted false s).total.toNat = s.srcLen.toNat := by rw [total_counted_false]
  refine ⟨_, exec_count_of_fits hsrc hfit, rfl, hcount, hsum.trans htotal.symm, htotal, fun x => ?_⟩
  rw [succeeded_freq, hcount, List.count_pos_iff]

/-- Settles O12: the two counts and the one count are the same fold over the same bytes, up to their order. -/
theorem countsAccumulate : Obligations.CountsAccumulate := by
  intro s t u v w z ht htd hfreq htotal hv hvd hw hz hzd
  obtain rfl := eq_counted_of_done ht htd
  obtain rfl := eq_counted_of_done hv hvd
  obtain rfl := eq_counted_of_done hz hzd
  have hperm : w.source.Perm (s.source ++ u.source) := by
    rcases hw with h | h <;> rw [h]
    exact List.perm_append_comm
  exact ⟨freq_counted_true hfreq hperm, total_counted_true htotal hperm⟩

end Sys2Proof.Machine

/-! Settling the family of spec/42_tree_builder.md: what BUILD leaves in NODE and the tree's registers, by the
lemmas about `builtNodes`. -/

namespace Sys2Proof.Machine

/-! ## The state BUILD leaves -/

theorem eq_built_of_exec {s t : State} (h : exec .build s = .next t) : t = succeeded (built s) :=
  (Host.Outcome.next.inj h).symm

/-- L fits LEAVES' nine bits. -/
theorem toNat_leaves_built (s : State) : (built s).leaves.toNat = leafCount s.freq := by
  have hl := leafCount_le s.freq
  rw [built_leaves, BitVec.toNat_ofNat, Nat.mod_eq_of_lt (by omega)]

theorem builtRoot_of_two_le {l : Nat} (h : 2 ≤ l) : builtRoot l = 2 * l - 2 := if_neg (by omega)

theorem builtRoot_le (l : Nat) : builtRoot l ≤ 2 * l - 2 := by
  rw [builtRoot]
  split <;> omega

/-- ROOT's value fits its nine bits. -/
theorem toNat_root_built (s : State) : (built s).root.toNat = builtRoot (leafCount s.freq) := by
  have hl := leafCount_le s.freq
  have hr := builtRoot_le (leafCount s.freq)
  rw [built_root, BitVec.toNat_ofNat, Nat.mod_eq_of_lt (by omega)]

/-! ## The present symbols -/

/-- The present symbols in ascending order are one list only. -/
theorem eq_presentSymbols {f : Vector Word 256} {xs : List Symbol}
    (hsorted : xs.Pairwise fun a b => a.toNat < b.toNat)
    (hmem : ∀ x, x ∈ xs ↔ 0 < (atSymbol f x).toNat) : xs = presentSymbols f :=
  List.Pairwise.eq_of_mem_iff (r := (· < ·)) hsorted (sorted_presentSymbols f) fun x =>
    (hmem x).trans (mem_presentSymbols f x).symm

/-! ## The tree at ROOT -/

/-- Of one or more present symbols BUILD makes a tree (R110). -/
theorem exists_treeAt_succeeded_built (s : State) (h : leafCount s.freq ≠ 0) :
    ∃ tree, TreeAt (succeeded (built s)) tree ∧ tree.symbols.Perm (presentSymbols s.freq) := by
  obtain ⟨tree, hholds, hperm, _, _⟩ := builtNodes_tree s.freq s.node h
  have hnodup : tree.symbols.Nodup := hperm.nodup_iff.mpr (nodup_presentSymbols s.freq)
  exact ⟨tree, ⟨hholds, reached_nodup _ _ _ hholds hnodup, hnodup,
    (toNat_leaves_built s).trans hperm.length_eq.symm⟩, hperm⟩

/-- Whatever tree NODE holds at ROOT, its nodes lie in NODE[0 .. 2L − 2] (R107). -/
theorem lt_of_reached_built {s : State} {tree : CodeTree} (h : leafCount s.freq ≠ 0)
    (ht : holds (built s).node (built s).root tree = true) {j : NodeIdx}
    (hj : j ∈ reached (built s).node (built s).root tree) : j.toNat + 1 < 2 * leafCount s.freq := by
  obtain ⟨tree', ht', _, _, hin⟩ := builtNodes_tree s.freq s.node h
  obtain rfl := holds_unique _ _ _ _ ht ht'
  exact hin j hj

/-! ## The frequencies -/

/-- The priority order on the NFREQ fields themselves (R103). -/
theorem precedes_iff_lt_or_eq (nodes : Nodes) (i j : Nat) :
    precedes nodes i j = true ↔ (nfreqAt nodes i).toNat < (nfreqAt nodes j).toNat ∨
      (nfreqAt nodes i = nfreqAt nodes j ∧ i < j) := by
  rw [precedes_iff, BitVec.toNat_inj]

/-- No sum of NFREQ fields overflows where TOTAL = Σ FREQ (R109). -/
theorem freqSum_lt_of_total {s : State} (htotal : s.total.toNat = freqSum s.freq) : freqSum s.freq < 2 ^ 32 :=
  htotal ▸ s.total.isLt

/-- NODE[ROOT].NFREQ = TOTAL, where TOTAL = Σ FREQ (R109). -/
theorem nfreqAt_root_built {s : State} (h : leafCount s.freq ≠ 0) (htotal : s.total.toNat = freqSum s.freq) :
    nfreqAt (built s).node (builtRoot (leafCount s.freq)) = s.total := by
  obtain ⟨_, hroot⟩ := builtNodes_freq s.freq s.node h (freqSum_lt_of_total htotal)
  exact BitVec.eq_of_toNat_eq (hroot.trans htotal.symm)

/-! ## The obligations -/

/-- Settles O13: BUILD has no other outcome, and L is the number of present symbols. -/
theorem buildSignalsTheTreeKind : Obligations.BuildSignalsTheTreeKind := by
  intro s
  rw [presentCount_eq]
  exact ⟨builtNodes s.freq s.node, exec_build s⟩

/-- Settles O14: the sorted present symbols are BUILD's own list, and no merge writes a leaf's entry. -/
theorem buildPlacesLeavesInSymbolOrder : Obligations.BuildPlacesLeavesInSymbolOrder := by
  intro s t xs h hsorted hmem
  obtain rfl := eq_built_of_exec h
  obtain rfl := eq_presentSymbols hsorted hmem
  exact ⟨(presentCount_eq s.freq).symm, builtNodes_leaf s.freq s.node⟩

/-- Settles O15: the merges end below NODE[2L − 1], and NODE holds one tree only at ROOT. -/
theorem buildKeepsTheRestOfNode : Obligations.BuildKeepsTheRestOfNode := by
  intro s t h
  obtain rfl := eq_built_of_exec h
  rw [presentCount_eq]
  exact ⟨rfl, builtNodes_outside s.freq s.node, fun _ hl ht _ hj => lt_of_reached_built hl ht hj⟩

/-- Settles O16: merge `m` pops the two least of its queue. -/
theorem buildMergesTheTwoLeast : Obligations.BuildMergesTheTwoLeast := by
  intro s t m h hm
  obtain rfl := eq_built_of_exec h
  rw [presentCount_eq] at hm ⊢
  obtain ⟨a, b, hnode, ha, hb, hab, hleast⟩ := builtNodes_merge s.freq s.node m hm
  exact ⟨a, b, _, hnode, rfl, rfl, rfl, rfl, rfl, ha, hb, (precedes_iff_lt_or_eq _ a b).mp hab,
    fun j hj hja hjb => (precedes_iff_lt_or_eq _ b j).mp (hleast j hj hja hjb)⟩

/-- Settles O17: no sum of two children overflows, since the queue's whole frequency is TOTAL at every merge. -/
theorem buildFrequenciesAddUp : Obligations.BuildFrequenciesAddUp := by
  intro s t h htotal
  obtain rfl := eq_built_of_exec h
  rw [presentCount_eq, succeeded_node, succeeded_root, toNat_root_built]
  have hroot := fun hl : leafCount s.freq ≠ 0 => nfreqAt_root_built hl htotal
  refine ⟨fun hl => ?_, fun hl => ?_⟩
  · obtain ⟨hinner, _⟩ := builtNodes_freq s.freq s.node (by omega) (freqSum_lt_of_total htotal)
    have htop := hroot (by omega)
    exact ⟨hinner, fun k hk => ⟨_, builtNodes_leaf s.freq s.node k hk, rfl, rfl⟩,
      (congrArg BitVec.toNat htop).trans htotal, htop⟩
  · rw [hl] at hroot
    exact hroot Nat.one_ne_zero

/-- Settles O18: the registers are functions of L, and the merges read only what BUILD wrote. -/
theorem buildDependsOnFreqAlone : Obligations.BuildDependsOnFreqAlone := by
  intro s t s' t' hfreq h h'
  obtain rfl := eq_built_of_exec h
  obtain rfl := eq_built_of_exec h'
  simp only [succeeded_leaves, succeeded_root, succeeded_treeKind, succeeded_node, built_leaves, built_root,
    built_treeKind, built_node, ← hfreq, presentCount_eq, true_and]
  exact fun i hi => builtNodes_congr s.freq s'.node s.node i hi

/-- Settles O19: the merges join all leaves into one tree, whose size and depth follow from its leaves. -/
theorem buildMakesATree : Obligations.BuildMakesATree := by
  intro s t h hl
  obtain rfl := eq_built_of_exec h
  rw [presentCount_eq] at hl ⊢
  obtain ⟨tree, htree, hperm⟩ := exists_treeAt_succeeded_built s (by omega)
  have hlen : tree.symbols.length = leafCount s.freq := hperm.length_eq
  have hdepth := tree.depth_lt_symbols
  have hsize := tree.size_eq
  have hroot : (built s).root.toNat = 2 * leafCount s.freq - 2 :=
    (toNat_root_built s).trans (builtRoot_of_two_le hl)
  have hreached := length_reached _ _ _ htree.inNode
  exact ⟨tree, htree, hlen, fun x => hperm.mem_iff.trans (mem_presentSymbols s.freq x), by omega,
    by omega, hroot, by omega⟩

end Sys2Proof.Machine

/-! Settling the family of spec/43_code_table.md: what GENCODE stores for a tree, that none of
its codes begins another, and that their lengths fill the tree. -/

namespace Sys2Proof.Machine

/-! ## SEQUENCE -/

theorem exec_gencode_of_no_tree {s : State} (h : s.treeValid = false) :
    exec .gencode s = .next (failedWith .sequence 0 s) := by
  simp only [exec, execGencode, checkValid, h, Bool.false_eq_true, if_false, firstError_some, raiseError_eq]

theorem exec_encode_of_no_codes {s : State} (h : s.codesValid = false) :
    exec .encode s = .next (failedWith .sequence 0 s) := by
  simp only [exec, execEncode, encodeChecks, checkValid, h, Bool.false_eq_true, if_false, firstError_some,
    raiseError_eq]

/-- Settles O20: the check for a valid tree or valid codes comes first (R150). -/
theorem sequenceErrors : Obligations.SequenceErrors := fun _ =>
  ⟨exec_gencode_of_no_tree, exec_encode_of_no_codes⟩

/-! ## The stored table -/

/-- Of an EMPTY tree GENCODE stores the zero table (R114). -/
theorem exec_gencode_of_empty {s : State} (hv : s.treeValid = true) (hk : s.treeKind = .empty) :
    exec .gencode s = .next (succeeded (coded CodeTable.zero s)) :=
  exec_gencode_ok hv (by rw [hk, codesOf])

/-- Of a tree that NODE holds GENCODE stores the tree's table (R112, R113). -/
theorem exec_gencode_of_treeAt {s : State} {tree : CodeTree} (hv : s.treeValid = true)
    (hk : s.treeKind = tree.kind) (ht : TreeAt s tree) :
    exec .gencode s = .next (succeeded (coded (treeTable tree) s)) :=
  exec_gencode_ok hv (by rw [hk, codesOf_holds _ _ _ ht.inNode ht.distinct, treeTable])

/-- Settles O21: the stored table is `CodeTable.zero` or the tree's `treeTable`. -/
theorem gencodeStoresEachPath : Obligations.GencodeStoresEachPath := by
  refine ⟨fun s hv hk => ?_, fun s tree hv hk ht => ?_⟩
  · rw [exec_gencode_of_empty hv hk, coded, maxCodeLen_zero, CodeTable.zero]
  · refine ⟨_, _, _, exec_gencode_of_treeAt hv hk ht, fun c hc => ?_, treeTable_absent tree,
      maxCodeLen_spec (treeTable tree)⟩
    obtain ⟨hlen, hpos, _⟩ := treeTable_len tree ht.distinct c hc
    exact ⟨hlen, hpos, treeTable_val tree ht.distinct c hc⟩

/-! ## No code begins another -/

/-- Where some symbol has a code after GENCODE, the stored table is that of a tree (R112, R115). -/
theorem exists_tree_of_codeLen_pos {s t : State} (hi : Invariants s) (h : exec .gencode s = .next t)
    (hd : t.done = true) {x : Symbol} (hx : 0 < (atSymbol t.codeLen x).toNat) :
    ∃ tree : CodeTree, tree.symbols.Nodup ∧ t.codeLen = (treeTable tree).len ∧
      t.codeVal = (treeTable tree).val := by
  obtain ⟨_, ⟨_, rfl⟩ | ⟨tree, _, hnodup, _, _, rfl⟩⟩ := exec_gencode_done hi h hd
  · have hzero : atSymbol CodeTable.zero.len x = 0 := atSymbol_replicate 0 x
    simp [hzero] at hx
  · exact ⟨tree, hnodup, rfl, rfl⟩

/-- Settles O22: the codes are a tree's, and no code of a tree begins another one of it. -/
theorem codesArePrefixFree : Obligations.CodesArePrefixFree := by
  intro s t hi h hdone x y hne hx hy hprefix
  obtain ⟨tree, hnodup, hlen, hval⟩ := exists_tree_of_codeLen_pos hi h hdone hx
  have exists_code : ∀ z, 0 < (atSymbol t.codeLen z).toNat → ∃ c ∈ tree.codes, c.1 = z := fun z hz =>
    tree.exists_code z ((treeTable_pos_iff tree hnodup z).mp (hlen ▸ hz))
  obtain ⟨c, hc, rfl⟩ := exists_code x hx
  obtain ⟨d, hd, rfl⟩ := exists_code y hy
  rw [code_of_treeTable hnodup hlen hval c hc, code_of_treeTable hnodup hlen hval d hd] at hprefix
  exact hne (congrArg Prod.fst (tree.codes_prefix_free c d hc hd hprefix))

/-! ## Code lengths -/

/-- The codes of a tree of two or more leaves fill it, for none is longer than 255 (R117). -/
theorem CodeTree.kraft_codes_of_multi {tree : CodeTree} (hk : tree.kind = .multi)
    (hnodup : tree.symbols.Nodup) : (tree.codes.map fun c => 2 ^ (255 - c.2.length)).sum = 2 ^ 255 := by
  cases tree with
  | leaf x => cases hk
  | node l r =>
    have hdepth := CodeTree.depth_lt_maxPath _ hnodup
    rw [maxPath] at hdepth
    exact CodeTree.kraft _ 255 (by omega)

/-- The one code of a tree of one leaf fills half of it (R113, R117). -/
theorem CodeTree.kraft_codes_of_single {tree : CodeTree} (hk : tree.kind = .single) :
    (tree.codes.map fun c => 2 ^ (255 - c.2.length)).sum = 2 ^ 254 := by
  cases tree with
  | leaf x => simp [CodeTree.codes]
  | node l r => cases hk

/-- Settles O23: the lengths are a tree's code lengths, whose sum the tree's kind gives. -/
theorem codeLengthsFillTheTree : Obligations.CodeLengthsFillTheTree := by
  intro s t hi h hd
  obtain ⟨_, ⟨hempty, _⟩ | ⟨tree, hholds, hnodup, hkind, _, rfl⟩⟩ := exec_gencode_done hi h hd
  · simp [hempty]
  · rw [succeeded_codeLen, coded_codeLen, sum_treeTable tree hnodup fun n => 2 ^ (255 - n), hkind]
    refine ⟨fun hmulti => ⟨fun tree' ht x hx => ?_, CodeTree.kraft_codes_of_multi hmulti hnodup⟩,
      CodeTree.kraft_codes_of_single⟩
    obtain rfl := holds_unique _ _ _ _ hholds ht.inNode
    obtain ⟨c, hc, rfl⟩ := tree.exists_code x hx
    obtain ⟨hlen, hpos, hle⟩ := treeTable_len tree hnodup c hc
    exact hlen ▸ ⟨hpos, hle⟩

end Sys2Proof.Machine

/-! Settling the family of spec/44_encoder.md: the payload ENCODE writes, its two errors past the
pre-checks, and the lengths it reports. -/

namespace Sys2Proof.Machine

/-! ## The payload of the source range -/

theorem payload_of_treeAt {s : State} {tree : CodeTree} (ht : s.srcLen.toNat ≠ 0 → TreeAt s tree) :
    payload s s.source = .ok (payloadOf s.srcLen.toNat tree (s.source.flatMap (code s))) := by
  have hp := payload_holds s s.source tree fun hn =>
    have hat := ht (by rwa [length_source] at hn)
    ⟨hat.inNode, hat.distinct⟩
  rwa [length_source] at hp

/-- With no symbol there is no data, so DATA_BITS is |Data(x)| in both cases of R127. -/
theorem dataBits_encoded (s : State) (p : List Byte) :
    (encoded p s).dataBits = BitVec.ofNat 32 (s.source.flatMap (code s)).length := by
  rw [encoded_dataBits]
  split
  · next hn =>
    have hnil : s.source = [] := List.eq_nil_of_length_eq_zero ((length_source s).trans hn)
    simp [hnil]
  · rfl

/-- Settles O24: what is written is the payload of the tree in NODE, read back as it was stored. -/
theorem encodeWritesThePayload : Obligations.EncodeWritesThePayload := by
  intro s tree p hv hr ht hc hp hfits
  refine ⟨(encoded p s).buf, ?_, readByte_writeBytes_inside s s.dstAddr.toNat p,
    readByte_writeBytes_outside s s.dstAddr.toNat p⟩
  rw [exec_encode_ok hv hr hc (hp ▸ payload_of_treeAt ht), if_neg (Nat.not_lt.mpr hfits), ← dataBits_encoded s p]
  rfl

/-! ## Errors -/

/-- The scan for codes stops at the first byte that has none (R127, R128). -/
theorem checkCodes_of_first {s : State} {xs : List Symbol} {i : Nat} (a : Nat) (hi : i < xs.length)
    (h0 : atSymbol s.codeLen xs[i] = 0) (hlt : ∀ j, (hj : j < i) → atSymbol s.codeLen xs[j] ≠ 0) :
    checkCodes s a xs = some ⟨.noCode, a + i⟩ := by
  rcases checkCodes_cases s a xs with ⟨_, hall⟩ | ⟨k, hk, hcheck, hk0, hklt⟩
  · exact absurd h0 (hall _ (List.getElem_mem hi))
  · obtain h | rfl | h := Nat.lt_trichotomy k i
    · exact absurd hk0 (hlt k h)
    · exact hcheck
    · exact absurd h0 (hklt i h)

theorem exec_encode_of_checkCodes {s : State} (hv : s.codesValid = true) (hr : RangesLegal s) {e : CmdError}
    (he : checkCodes s s.srcStart s.source = some e) :
    exec .encode s = .next (raiseError e (encodeFailed s)) := by
  simp only [exec, execEncode, encodeChecks, checkValid, hv, if_true, firstError_none, rangeChecks_legal hr, he]

theorem getElem_source (s : State) (i : Nat) (h : i < s.source.length) :
    s.source[i] = s.readByte (s.srcAddr.toNat + i) :=
  getElem_readBytes s s.srcAddr.toNat s.srcCount i ((length_source s).subst h)

/-- Settles O26: the scan ends at the first byte with no code, before the payload is made; both errors leave
`encodeFailed`. -/
theorem encodeErrors : Obligations.EncodeErrors := by
  refine ⟨fun s i hv hr hi h0 hlt =>
      ⟨raiseError ⟨.noCode, s.srcAddr.toNat + i⟩ (encodeFailed s), ?_, rfl, Effect.encodeFailed.sameOutside⟩,
    fun s tree hv hr ht hc hlong =>
      ⟨failedWith .dstFull (s.dstAddr.toNat + s.dstCap.toNat) (encodeFailed s), ?_, rfl,
        Effect.encodeFailed.sameOutside⟩⟩
  · have hi' : i < s.source.length := (length_source s).symm ▸ hi
    exact exec_encode_of_checkCodes hv hr (checkCodes_of_first s.srcAddr.toNat hi'
      (by rwa [getElem_source]) fun j hj => by rw [getElem_source]; exact hlt j hj)
  · rw [exec_encode_ok hv hr hc (payload_of_treeAt ht), if_pos hlong]

/-! ## Lengths -/

/-- Settles O27, from the length of the serialization. -/
theorem serializedTreeLength : Obligations.SerializedTreeLength := by
  intro tree
  have hbits := tree.length_bits
  rw [length_pack]
  omega

/-- Settles O28: OUT_LEN is the payload's length, which the window bounds, and LEAVES gives the tree's. -/
theorem encodedPayloadLength : Obligations.EncodedPayloadLength := by
  intro s t tree _ h hd ht
  obtain ⟨_, _, _, p, hp, hfits, rfl⟩ := exec_encode_done h hd
  obtain rfl := Answer.ok.inj ((payload_of_treeAt ht).symm.trans hp)
  rw [succeeded_outLen, encoded_outLen, BitVec.toNat_ofNat,
    Nat.mod_eq_of_lt (hfits.trans_lt s.dstCap.isLt), length_payloadOf]
  refine ⟨fun hn => if_pos hn, fun hn => ?_⟩
  rw [if_neg hn, (ht hn).count, ← tree.length_bits, Nat.add_sub_cancel]

theorem length_flatMap_code (s : State) (xs : List Symbol) :
    (xs.flatMap (code s)).length = (xs.map fun x => (atSymbol s.codeLen x).toNat).sum := by
  simp [List.length_flatMap, code]

/-- No code is longer than 255 bits (R42). -/
theorem length_flatMap_code_le (s : State) (xs : List Symbol) :
    (xs.flatMap (code s)).length ≤ xs.length * 255 := by
  rw [length_flatMap_code, ← List.length_map (fun x => (atSymbol s.codeLen x).toNat)]
  refine List.sum_le_card_nsmul _ 255 fun n hn => ?_
  obtain ⟨x, _, rfl⟩ := List.mem_map.mp hn
  exact Nat.le_of_lt_succ (atSymbol s.codeLen x).isLt

theorem bufSize_le_of_wf {c : Config} (h : c.wf = true) : c.bufSize ≤ 65536 := by
  simp only [Config.wf, Bool.and_eq_true, decide_eq_true_eq] at h
  exact h.2

/-- Settles O29: the sum over the symbols is the sum over the bytes, and a source range in BUF has too few
bytes for it to pass 32 bits. -/
theorem encodedBitCount : Obligations.EncodedBitCount := by
  intro s t hwf hfreq h hd
  obtain ⟨_, hr, _, p, _, _, rfl⟩ := exec_encode_done h hd
  have hsize := bufSize_le_of_wf hwf
  have hsrc := hr.src
  have hle := length_flatMap_code_le s s.source
  rw [length_source] at hle
  simp only [hfreq]
  rw [succeeded_dataBits, dataBits_encoded, BitVec.toNat_ofNat, Nat.mod_eq_of_lt (by omega),
    length_flatMap_code, sum_count_mul]

end Sys2Proof.Machine

/-! Settling the family of spec/45_decoder.md: how DECODE ends on each kind of payload, and the laws of
ENCODE and DECODE together. -/

namespace Sys2Proof.Machine

/-! ## DECODE past its pre-checks -/

/-- A header that is not there in full is DEC_TRUNC at the end of the source (R134). -/
theorem exec_decode_of_short_header {s : State} (hr : RangesLegal s) (h : s.srcLen.toNat < 4) :
    exec .decode s = .next (failedWith .decTrunc (s.srcAddr.toNat + s.srcLen.toNat) (decodeFailed s)) := by
  simp only [exec, execDecode, rangeChecks_legal hr]
  exact if_pos h

/-- A zero count ends DECODE at the header (R133). -/
theorem exec_decode_of_zero_count {s : State} (hr : RangesLegal s) (h4 : 4 ≤ s.srcLen.toNat)
    (h0 : headerCount s = 0) : exec .decode s = .next (succeeded (decodedEmpty s)) := by
  simp only [exec, execDecode, rangeChecks_legal hr]
  exact (if_neg (Nat.not_lt.mpr h4)).trans (if_pos h0)

/-- A count above DST_CAP is DST_FULL before the tree section is read (R135). -/
theorem exec_decode_of_no_room {s : State} (hr : RangesLegal s) (h4 : 4 ≤ s.srcLen.toNat)
    (hroom : s.dstCap.toNat < headerCount s) :
    exec .decode s = .next (failedWith .dstFull (s.dstAddr.toNat + s.dstCap.toNat) (decodeFailed s)) := by
  simp only [exec, execDecode, rangeChecks_legal hr]
  exact (if_neg (Nat.not_lt.mpr h4)).trans ((if_neg (Nat.ne_zero_of_lt hroom)).trans (if_pos hroom))

/-- The header of a count that fits it (R124, R134). -/
theorem headerCount_of_le32 {s : State} {n : Nat} (hn : n < 2 ^ 32) (h : BytesAt s s.srcAddr.toNat (le32 n)) :
    headerCount s = n := (headerCount_of_bytes h).trans (Nat.mod_eq_of_lt hn)

/-- DECODE gets as far as its tree section with a count of `n`: legal ranges, a whole header, and room for
at least one symbol (R133 to R135). -/
structure ReadsBody (s : State) (n : Nat) : Prop where
  legal : RangesLegal s
  whole : 4 ≤ s.srcLen.toNat
  header : headerCount s = n
  pos : 0 < n
  room : n ≤ s.dstCap.toNat

theorem ReadsBody.of_le32 {s : State} {n : Nat} (hr : RangesLegal s) (h4 : 4 ≤ s.srcLen.toNat)
    (hb : BytesAt s s.srcAddr.toNat (le32 n)) (h0 : 0 < n) (hroom : n ≤ s.dstCap.toNat) : ReadsBody s n :=
  ⟨hr, h4, headerCount_of_le32 (hroom.trans_lt s.dstCap.isLt) hb, h0, hroom⟩

/-- An error of DECODE's body is DECODE's error. -/
theorem ReadsBody.exec_of_raise {s : State} {n : Nat} (h : ReadsBody s n) {c : ErrCode} {a : Nat}
    (hb : decodeBody s n = .raise ⟨c, a⟩) : exec .decode s = .next (failedWith c a (decodeFailed s)) := by
  rw [exec_decode_body h.legal h.whole h.header h.pos h.room, hb]
  rfl

/-- A whole payload is decoded (R133). -/
theorem ReadsBody.exec_of_ok {s : State} {n : Nat} (h : ReadsBody s n) {r : Decoded}
    (hb : decodeBody s n = .ok r) : exec .decode s = .next (succeeded (decoded n r s)) := by
  rw [exec_decode_body h.legal h.whole h.header h.pos h.room, hb]

/-- The range checks raise RANGE or OVERLAP (R90). -/
theorem rangeChecks_code {s : State} {e : CmdError} (h : firstError (rangeChecks s) = some e) :
    e.code = .range ∨ e.code = .overlap := by
  rcases rangeChecks_cases s with ⟨_, h'⟩ | ⟨_, h'⟩ | ⟨_, _, h'⟩ | ⟨_, _, _, _, _, _, h'⟩ <;> rw [h] at h'
  · cases h'
  · obtain rfl := Option.some.inj h'; exact .inl rfl
  · obtain rfl := Option.some.inj h'; exact .inl rfl
  · obtain rfl := Option.some.inj h'; exact .inr rfl

/-- A DECODE that raises DEC_TREE raises it in its body (R133, R138). -/
theorem decodeBody_of_decTree {s t : State} (h : exec .decode s = .next t) (he : t.errCode = .decTree) :
    ∃ n a, decodeBody s n = .raise ⟨.decTree, a⟩ ∧ t.errAddr = BitVec.ofNat 32 a := by
  have ends_so {u : State} (hu : exec .decode s = .next u) : u.errCode = .decTree :=
    Host.Outcome.next.inj (h.symm.trans hu) ▸ he
  rcases exec_decode_cases s with ⟨e, hc, hu⟩ | ⟨hr, _⟩ | ⟨_, _, _, hu⟩ | ⟨_, _, _, _, _, _, _, _, _, hu⟩
  · have hcode := ends_so hu
    rcases rangeChecks_code hc with hrange | hrange <;> simp [hrange] at hcode
  · by_cases h4 : 4 ≤ s.srcLen.toNat
    · by_cases h0 : headerCount s = 0
      · exact absurd (ends_so (exec_decode_of_zero_count hr h4 h0)) (by simp)
      by_cases hroom : headerCount s ≤ s.dstCap.toNat
      · have hbody : ReadsBody s (headerCount s) := ⟨hr, h4, rfl, Nat.pos_of_ne_zero h0, hroom⟩
        rcases decodeBody_total s (headerCount s) with ⟨_, _, _, _, _, hb⟩ | hb | ⟨a, hb⟩ | ⟨a, hb⟩
        · exact absurd (ends_so (hbody.exec_of_ok hb)) (by simp)
        · exact absurd (ends_so (hbody.exec_of_raise hb)) (by simp)
        · obtain rfl := Host.Outcome.next.inj (h.symm.trans (hbody.exec_of_raise hb))
          exact ⟨_, a, hb, rfl⟩
        · exact absurd (ends_so (hbody.exec_of_raise hb)) (by simp)
      · exact absurd (ends_so (exec_decode_of_no_room hr h4 (Nat.not_le.mp hroom))) (by simp)
    · exact absurd (ends_so (exec_decode_of_short_header hr (Nat.not_le.mp h4))) (by simp)
  · exact absurd (ends_so hu) (by simp)
  · exact absurd (ends_so hu) (by simp)

/-- A DECODE that succeeds had legal ranges, a whole header and room for its symbols (R133). -/
theorem exec_decode_done {s t : State} (h : exec .decode s = .next t) (hd : t.done = true) :
    RangesLegal s ∧ 4 ≤ s.srcLen.toNat ∧ headerCount s ≤ s.dstCap.toNat := by
  rcases exec_decode_cases s with ⟨e, _, hu⟩ | ⟨_, _, _, _, hu⟩ | ⟨hr, h4, h0, _⟩ | ⟨hr, h4, _, hroom, _⟩
  · obtain rfl := Host.Outcome.next.inj (h.symm.trans hu)
    exact absurd hd Bool.false_ne_true
  · obtain rfl := Host.Outcome.next.inj (h.symm.trans hu)
    exact absurd hd Bool.false_ne_true
  · exact ⟨hr, h4, h0 ▸ Nat.zero_le _⟩
  · exact ⟨hr, h4, hroom⟩

/-! ## The data section -/

/-- WalkData under a SINGLE tree raises DEC_CODE at the first data bit 1, if it comes among the first `n`
(R139). -/
theorem walkData_single_one (rd : Nat → Bool) (db limit stop : Nat) (nodes : Nodes) {j n q : Nat} (hj : j < n)
    (ha : agrees rd q limit (List.replicate j false ++ [true])) (hl : q + j < limit) :
    walkData rd db limit stop .single nodes n q = .raise ⟨.decCode, db + (q + j) / 8⟩ := by
  obtain ⟨n, rfl⟩ : ∃ m, n = m + 1 := ⟨n - 1, by omega⟩
  have hq : ¬limit ≤ q := by omega
  induction j generalizing n q with
  | zero =>
    have hb : rd q = true := agrees_head ha (by omega)
    simp [walkData, nextSymbol, singleSymbol, hq, hb]
  | succ j ih =>
    obtain ⟨n, rfl⟩ : ∃ m, n = m + 1 := ⟨n - 1, by omega⟩
    rw [List.replicate_succ, List.cons_append] at ha
    have hb : rd q = false := agrees_head ha (by omega)
    have hrest := ih (q := q + 1) (agrees_tail ha) (by omega) n (by omega) (by omega)
    rw [walkData]
    simp only [nextSymbol, singleSymbol, hq, hb, Bool.false_eq_true, if_false, hrest]
    congr 3; omega

/-- DECODE's body over a SINGLE tree and a data section that has a 1 among its first `n` bits (R139). -/
theorem decodeBody_single_one {s : State} {x : Symbol} {n j : Nat} (hj : j < n)
    (hb : BitsAt s (s.srcAddr.toNat + 4) (leafBits x))
    (hd : BitsAt s (s.srcAddr.toNat + 6) (List.replicate j false ++ [true]))
    (hl : 6 + (j + 8) / 8 ≤ s.srcLen.toNat) :
    decodeBody s n = .raise ⟨.decCode, s.srcAddr.toNat + 6 + j / 8⟩ := by
  have h9 : (CodeTree.leaf x).bits.length = 9 := by simp [CodeTree.bits, leafBits]
  have hnodup : (CodeTree.leaf x).symbols.Nodup := List.nodup_singleton x
  have hpos : (loaded (loaderStart s.node) (.leaf x)).pos = 9 := by simp [loaded, loaderStart, h9]
  simp only [decodeBody, State.srcStart, State.srcCount]
  rw [loadTree_bits _ _ _ _ _ (.leaf x) hnodup (by omega) (agrees_of_bitsAt hb)]
  simp only [loadedKind_holds _ _ (loaded_holds s.node _ hnodup), hpos, CodeTree.kind]
  rw [walkData_single_one _ _ _ _ _ hj (agrees_of_bitsAt hd) (by omega), Nat.zero_add]

/-- The bits up to where a section ends. -/
theorem agrees_of_bitsAt_take {s : State} {base limit : Nat} {b : Bits} (h : BitsAt s base (b.take limit)) :
    agrees (s.bitAt base) 0 limit b := by
  intro k hk hl
  rw [h (0 + k) (by rw [List.length_take]; omega)]
  simp

/-! ## The obligations on one DECODE -/

/-- Settles O30: a header of four zero bytes counts no symbol. -/
theorem decodeOfAnEmptyPayload : Obligations.DecodeOfAnEmptyPayload := fun _ hr h4 hb =>
  exec_decode_of_zero_count hr h4 (headerCount_of_le32 (by decide) hb)

/-- Settles O31: both errors are raised before the tree section is read. -/
theorem decodeHeaderErrors : Obligations.DecodeHeaderErrors := fun _ hr =>
  ⟨fun h => ⟨_, exec_decode_of_short_header hr h, rfl, rfl, BitVec.toNat_ofNat _ _⟩,
    fun _ hn h4 hb hroom =>
      ⟨_, exec_decode_of_no_room hr h4 (headerCount_of_le32 hn hb ▸ hroom), rfl, rfl, BitVec.toNat_ofNat _ _⟩⟩

/-- Settles O33: a parse reads the nodes that are in order and errs at their end, and DEC_TREE arises nowhere
else. A tree that repeats a symbol has a first malformed node, whose bits are the tree's first. -/
theorem decodeTreeSectionErrors : Obligations.DecodeTreeSectionErrors := by
  refine ⟨fun s n l hr _ h0 hroom h4 hh ho hb => ?_, fun s tree n hr _ h0 hroom hrep hh hb hl => ?_,
    fun s t h _ hc => ?_⟩
  · have hbody : ReadsBody s n := .of_le32 hr h4 hh h0 hroom
    refine ⟨fun x hx hbx hlx => ⟨_, hbody.exec_of_raise (decodeBody_malformed ho hx hbx hlx), rfl, rfl, rfl⟩,
      fun hcut => ?_⟩
    have hle : (sectionBits l).length ≤ 8 * (s.srcLen.toNat - 4) := by
      rcases hcut with h | ⟨_, h, _⟩
      · exact h.ge
      · exact h
    exact ⟨_, hbody.exec_of_raise (decodeBody_cut ho hb hle (hcut.imp_right fun h => ⟨h.1, h.2.2⟩)), rfl, rfl, rfl⟩
  · obtain ⟨l, x, rest, hnodes, ho, hx⟩ := tree.malformed_of_repeated hrep
    have hprefix : tree.bits = sectionBits (l ++ [x]) ++ sectionBits rest := by
      rw [← tree.sectionBits_nodes, hnodes, ← sectionBits_append, List.append_assoc, List.singleton_append]
    have hlen := congrArg List.length hprefix
    rw [List.length_append] at hlen
    have hbx : BitsAt s (s.srcAddr.toNat + 4) (sectionBits (l ++ [x])) := by
      intro k hk
      rw [hb k (by omega), List.getElem_of_eq hprefix, List.getElem_append_left hk]
    have hbody : ReadsBody s n := .of_le32 hr (by omega) hh h0 hroom
    exact ⟨_, l, x, rest, hbody.exec_of_raise (decodeBody_malformed ho hx hbx (by omega)), rfl, rfl, hnodes, ho, hx,
      rfl⟩
  · obtain ⟨n, a, hbody, haddr⟩ := decodeBody_of_decTree h hc
    obtain ⟨l, x, ho, hx, hb, hl, rfl⟩ := decodeBody_decTree hbody
    exact ⟨l, x, ho, hx, hb, hl, haddr⟩

/-- Settles O34: the tree section is loaded whole, and the walk over the data section errs. -/
theorem decodeDataSectionErrors : Obligations.DecodeDataSectionErrors := by
  refine ⟨fun s x n j hr _ hj hroom hh hb hd hl => ?_, fun s tree cs m hr ht hcs h0 hroom hh hb hn hm hd => ?_⟩
  · have hbody : ReadsBody s n := .of_le32 hr (by omega) hh (Nat.zero_lt_of_lt hj) hroom
    exact ⟨_, hbody.exec_of_raise (decodeBody_single_one hj hb hd hl), rfl, rfl, rfl⟩
  · have hbody : ReadsBody s cs.length := .of_le32 hr (by omega) hh h0 hroom
    have hleft : s.srcLen.toNat - 4 - (tree.bits.length + 7) / 8 = m := by omega
    have hshort := decodeBody_short_data ht hcs (agrees_of_bitsAt hb) (by omega)
      (hleft.symm ▸ agrees_of_bitsAt_take hd) (hleft.symm ▸ hm)
    exact ⟨_, hbody.exec_of_raise hshort, rfl, rfl, rfl⟩

/-- Settles O32: the body reads the tree and the codes as they stand in the source range, and what it loads is
the tree in preorder. -/
theorem decodeReadsAPayload : Obligations.DecodeReadsAPayload := by
  intro s tree cs hr ht hcs h0 hroom hh hb hd hl
  have hbody : ReadsBody s cs.length := .of_le32 hr (by omega) hh h0 hroom
  have hheld := loaded_holds s.node tree ht
  refine ⟨(s.writeBytes s.dstAddr.toNat (cs.map Prod.fst)).buf, ?_,
    readByte_writeBytes_inside s s.dstAddr.toNat (cs.map Prod.fst), ?_, hheld⟩
  · rw [hbody.exec_of_ok (decodeBody_ok ht hcs hb hd hl), decoded, loadedKind_holds _ _ hheld]
    simp only [loaded, loaderStart, Nat.zero_add]
    rfl
  · intro b hout
    exact readByte_writeBytes_outside s s.dstAddr.toNat (cs.map Prod.fst) b (by rwa [List.length_map])

/-- ERR_ADDR keeps 32 bits of an address, so its own value names the same completion (R46, R94). -/
theorem failedWith_toNat (c : ErrCode) (a : Nat) (s : State) :
    failedWith c a s = failedWith c (BitVec.ofNat 32 a).toNat s := by
  simp only [failedWith, BitVec.ofNat_toNat, BitVec.setWidth_eq]

/-- Settles O35: a pre-check leaves the state as it is, any later error leaves `decodeFailed`. -/
theorem decodeErrorsKeepTheRest : Obligations.DecodeErrorsKeepTheRest := by
  intro s t h herr
  rcases exec_decode_cases s with ⟨⟨c, a⟩, hc, hu⟩ | ⟨_, c, a, hc, hu⟩ | ⟨_, _, _, hu⟩ |
    ⟨_, _, _, _, _, _, _, _, _, hu⟩ <;>
    obtain rfl := Host.Outcome.next.inj (h.symm.trans hu)
  · exact .inl ⟨rangeChecks_code hc, failedWith_toNat c a s⟩
  · exact .inr ⟨hc, failedWith_toNat c a (decodeFailed s), Effect.decodeFailed.sameOutside⟩
  · exact absurd herr Bool.false_ne_true
  · exact absurd herr Bool.false_ne_true

/-! ## What ENCODE wrote -/

/-- The source bytes of a state are the symbols of the codes `cs` of a tree whose code table it holds. -/
structure SourceCoded (s : State) (tree : CodeTree) (cs : List (Symbol × Bits)) : Prop where
  distinct : tree.symbols.Nodup
  codes : ∀ c ∈ cs, c ∈ tree.codes
  source : cs.map Prod.fst = s.source
  pos : 0 < cs.length
  len : s.codeLen = (treeTable tree).len
  val : s.codeVal = (treeTable tree).val

theorem SourceCoded.length {s : State} {tree : CodeTree} {cs : List (Symbol × Bits)} (h : SourceCoded s tree cs) :
    cs.length = s.srcLen.toNat := by
  rw [← length_source, ← h.source, List.length_map]

/-- What a successful ENCODE leaves in its window: an empty payload of no symbol, or the payload of a tree
and the codes of its symbols (R125, R127). -/
theorem exec_encode_payload {s t : State} (hi : Invariants s) (h : exec .encode s = .next t) (hd : t.done = true) :
    (s.srcLen = 0 ∧ t.readBytes s.dstAddr.toNat t.outLen.toNat = le32 0) ∨
      ∃ tree cs, SourceCoded s tree cs ∧
        t.readBytes s.dstAddr.toNat t.outLen.toNat = payloadOf cs.length tree (codeBits cs) := by
  obtain ⟨hv, hr, hx, p, hp, hfits, rfl⟩ := exec_encode_done h hd
  have hread := readBytes_encoded s p (hfits.trans_lt s.dstCap.isLt)
  rcases payload_cases hi hv s.source hx with ⟨hnil, hp'⟩ | ⟨tree, cs, hne, _, ht, _, _, hlen, hval, hcs, hsrc, _, hp'⟩ <;>
    obtain rfl := Answer.ok.inj (hp.symm.trans hp')
  · have h0 : s.srcLen.toNat = 0 := by rw [← length_source, hnil, List.length_nil]
    exact .inl ⟨BitVec.eq_of_toNat_eq h0, hread⟩
  · have hcount : cs.length = s.source.length := by rw [← hsrc, List.length_map]
    refine .inr ⟨tree, cs, ⟨ht, hcs, hsrc, ?_, hlen, hval⟩, hcount ▸ hread⟩
    rw [hcount]
    exact List.length_pos_iff.mpr hne

/-! ## Payloads in a source range -/

/-- A source range that holds an empty payload is a header of zero (R124). -/
theorem headerCount_of_empty {s : State} (h : s.source = le32 0) : 4 ≤ s.srcLen.toNat ∧ headerCount s = 0 := by
  have hlen := congrArg List.length h
  rw [length_source] at hlen
  exact ⟨hlen.ge, headerCount_of_le32 (by decide) (bytesAt_of_source h)⟩

section
variable {s : State} {tree : CodeTree} {cs : List (Symbol × Bits)}

/-- A source range that holds a payload has its three sections in place (R125). -/
theorem sections_of_source (h0 : 0 < cs.length) (h : s.source = payloadOf cs.length tree (codeBits cs)) :
    BytesAt s s.srcAddr.toNat (le32 cs.length) ∧ BitsAt s (s.srcAddr.toNat + 4) tree.bits ∧
      BitsAt s (s.srcAddr.toNat + 4 + (tree.bits.length + 7) / 8) (codeBits cs) ∧
      4 + (tree.bits.length + 7) / 8 + ((codeBits cs).length + 7) / 8 = s.srcLen.toNat := by
  have hlen := congrArg List.length h
  rw [length_source, length_payloadOf, if_neg (Nat.ne_zero_of_lt h0)] at hlen
  have hb := bytesAt_of_source h
  rw [payloadOf, if_neg (Nat.ne_zero_of_lt h0), bytesAt_append, bytesAt_append, List.length_append, length_pack,
    ← Nat.add_assoc] at hb
  obtain ⟨⟨hhead, htree⟩, hdata⟩ := hb
  exact ⟨hhead, bitsAt_of_pack htree, bitsAt_of_pack hdata, hlen.symm⟩

/-- What DECODE of a payload leaves (R133). -/
def decodedPayload (s : State) (tree : CodeTree) (cs : List (Symbol × Bits)) : State :=
  decoded cs.length
    { symbols := cs.map Prod.fst, bits := (codeBits cs).length, tree := loaded (loaderStart s.node) tree } s

/-- DECODE of a payload in a legal source range, with room for its symbols (R133). -/
theorem exec_decode_payload (hr : RangesLegal s) (ht : tree.symbols.Nodup) (hcs : ∀ c ∈ cs, c ∈ tree.codes)
    (h0 : 0 < cs.length) (h : s.source = payloadOf cs.length tree (codeBits cs)) (hroom : cs.length ≤ s.dstCap.toNat) :
    exec .decode s = .next (succeeded (decodedPayload s tree cs)) := by
  obtain ⟨hhead, hb, hd, hl⟩ := sections_of_source h0 h
  have hbody : ReadsBody s cs.length := .of_le32 hr (by omega) hhead h0 hroom
  exact hbody.exec_of_ok (decodeBody_ok ht hcs hb hd hl.le)

end

/-- Settles O36: DECODE reads the tree and the codes that ENCODE wrote, and their symbols are the input. -/
theorem decodeUndoesEncode : Obligations.DecodeUndoesEncode := by
  intro s t u hi h hd hr hsrc hroom
  rcases exec_encode_payload hi h hd with ⟨hn, hp⟩ | ⟨tree, cs, hc, hp⟩ <;> rw [hp] at hsrc
  · obtain ⟨h4, h0⟩ := headerCount_of_empty hsrc
    have hnil : s.source = [] := List.eq_nil_of_length_eq_zero (by rw [length_source, hn]; rfl)
    refine ⟨_, exec_decode_of_zero_count hr h4 h0, rfl, ?_, hn.symm, hn.symm, fun _ _ => rfl⟩
    simp [hnil, BytesAt]
  · have hcount : BitVec.ofNat 32 cs.length = s.srcLen := by simp [hc.length]
    refine ⟨_, exec_decode_payload hr hc.distinct hc.codes hc.pos hsrc (hc.length ▸ hroom), rfl, ?_, hcount, hcount, ?_⟩
    · rw [← hc.source]
      exact readByte_writeBytes_inside u u.dstAddr.toNat (cs.map Prod.fst)
    · intro b hb
      exact readByte_writeBytes_outside u u.dstAddr.toNat (cs.map Prod.fst) b (by rwa [List.length_map, hc.length])

/-! ## A payload cut short -/

/-- A sequence cut off past its first part. -/
theorem bytesAt_of_take_append {s : State} {a n : Nat} {p q : List Byte} (h : BytesAt s a ((p ++ q).take n))
    (hn : p.length ≤ n) : BytesAt s a p ∧ BytesAt s (a + p.length) (q.take (n - p.length)) := by
  rwa [List.take_append, List.take_of_length_le hn, bytesAt_append] at h

/-- DECODE's body over a payload cut off after its header is DEC_TRUNC: the missing bytes held bits of the tree
or bits of the codes (R144). -/
theorem decodeBody_truncated {s : State} {tree : CodeTree} {cs : List (Symbol × Bits)} (ht : tree.symbols.Nodup)
    (hcs : ∀ c ∈ cs, c ∈ tree.codes)
    (h : BytesAt s (s.srcAddr.toNat + 4) ((pack tree.bits ++ pack (codeBits cs)).take (s.srcLen.toNat - 4)))
    (hl : s.srcLen.toNat - 4 < (tree.bits.length + 7) / 8 + ((codeBits cs).length + 7) / 8) :
    decodeBody s cs.length = .raise ⟨.decTrunc, s.srcAddr.toNat + s.srcLen.toNat⟩ := by
  by_cases hcut : s.srcLen.toNat - 4 < (tree.bits.length + 7) / 8
  · rw [List.take_append_of_le_length (by rw [length_pack]; omega)] at h
    exact decodeBody_short_tree ht (agrees_of_take h) (by omega)
  · obtain ⟨htree, hdata⟩ := bytesAt_of_take_append h (by rw [length_pack]; omega)
    rw [length_pack] at hdata
    exact decodeBody_short_data ht hcs (agrees_of_bitsAt (bitsAt_of_pack htree)) (by omega) (agrees_of_take hdata)
      (by omega)

/-- Settles O38: the header is cut, or DECODE's body meets the end of the source. -/
theorem truncatedPayloadsRaiseDecTrunc : Obligations.TruncatedPayloadsRaiseDecTrunc := by
  intro s t u n hi h hd hlt hr hn hsrc hroom
  subst hn
  by_cases h4 : u.srcLen.toNat < 4
  · exact ⟨_, exec_decode_of_short_header hr h4, rfl, rfl, rfl, rfl⟩
  rw [← length_readBytes t s.dstAddr.toNat t.outLen.toNat] at hlt
  rcases exec_encode_payload hi h hd with ⟨_, hp⟩ | ⟨tree, cs, hc, hp⟩ <;> rw [hp] at hsrc hlt
  · exact absurd hlt h4
  · have h0 := Nat.ne_zero_of_lt hc.pos
    have hb := bytesAt_of_source hsrc
    rw [length_payloadOf, if_neg h0] at hlt
    rw [payloadOf, if_neg h0, List.append_assoc] at hb
    obtain ⟨hhead, hrest⟩ := bytesAt_of_take_append hb (Nat.not_lt.mp h4)
    have hbody : ReadsBody u cs.length := .of_le32 hr (Nat.not_lt.mp h4) hhead hc.pos (hc.length ▸ hroom)
    exact ⟨_, hbody.exec_of_raise (decodeBody_truncated hc.distinct hc.codes hrest (by omega)), rfl, rfl, rfl, rfl⟩

/-! ## Encoding again -/

namespace SourceCoded

variable {s : State} {tree : CodeTree} {cs : List (Symbol × Bits)}

theorem codes_ne_zero (h : SourceCoded s tree cs) : ∀ x ∈ s.source, atSymbol s.codeLen x ≠ 0 := by
  intro x hx
  rw [mem_symbols_of_code h.distinct h.len, ← tree.map_fst_codes]
  rw [← h.source] at hx
  exact List.map_subset Prod.fst h.codes hx

/-- Data(x) is the codes' bits (R122, R123). -/
theorem data (h : SourceCoded s tree cs) : s.source.flatMap (code s) = codeBits cs := by
  rw [← h.source, List.flatMap_map, codeBits]
  exact List.flatMap_congr fun c hc => code_of_treeTable h.distinct h.len h.val c (h.codes c hc)

/-- ENCODE in a state that holds the tree writes the payload of the tree and the codes (R125). -/
theorem exec_encode (h : SourceCoded s tree cs) (hheld : holds s.node s.root tree = true)
    (hv : s.codesValid = true) (hr : RangesLegal s)
    (hroom : (payloadOf cs.length tree (codeBits cs)).length ≤ s.dstCap.toNat) :
    exec .encode s = .next (succeeded (encoded (payloadOf cs.length tree (codeBits cs)) s)) := by
  have hp := payload_holds s s.source tree fun _ => ⟨hheld, h.distinct⟩
  rw [h.data, length_source, ← h.length] at hp
  rw [exec_encode_ok hv hr h.codes_ne_zero hp, if_neg (Nat.not_lt.mpr hroom)]

end SourceCoded

/-- ENCODE of no symbol writes the empty payload, whatever the code table (R125). -/
theorem exec_encode_empty {s : State} (hn : s.source = []) (hv : s.codesValid = true) (hr : RangesLegal s)
    (hroom : (le32 0).length ≤ s.dstCap.toNat) :
    exec .encode s = .next (succeeded (encoded (le32 0) s)) := by
  rw [exec_encode_ok hv hr (by simp [hn]) (p := le32 0) (by rw [hn]; rfl), if_neg (Nat.not_lt.mpr hroom)]

/-- Two ENCODEs that write the same payload report the same OUT_LEN. -/
theorem outLen_encoded {t : State} {a : Nat} {p : List Byte} (y : State) (h : t.readBytes a t.outLen.toNat = p) :
    (succeeded (encoded p y)).outLen = t.outLen := by
  rw [succeeded_outLen, encoded_outLen, ← h, length_readBytes, BitVec.ofNat_toNat, BitVec.setWidth_eq]

/-- GENCODE after DECODE of an empty payload has an empty tree (R133, R114). -/
theorem exec_gencode_decodedEmpty (s : State) :
    exec .gencode (succeeded (decodedEmpty s)) = .next (succeeded (coded CodeTable.zero (succeeded (decodedEmpty s)))) :=
  exec_gencode_of_empty rfl rfl

/-- GENCODE after DECODE of a payload has the payload's tree (R137, R114). -/
theorem exec_gencode_decodedPayload (s : State) {tree : CodeTree} (ht : tree.symbols.Nodup)
    (cs : List (Symbol × Bits)) :
    exec .gencode (succeeded (decodedPayload s tree cs)) =
      .next (succeeded (coded (treeTable tree) (succeeded (decodedPayload s tree cs)))) := by
  have hheld := loaded_holds s.node tree ht
  refine exec_gencode_ok rfl ?_
  rw [treeTable, ← codesOf_holds _ _ tree hheld ht, ← loadedKind_holds _ _ hheld]
  rfl

/-- Settles O39: GENCODE makes the table of the tree DECODE loaded, which is the one ENCODE serialized. -/
theorem reencodingGivesThePayloadAgain : Obligations.ReencodingGivesThePayloadAgain := by
  intro s t u v w y hi h hd hsrc hv hvd hw hy hr hys hroom
  obtain ⟨hur, _, huroom⟩ := exec_decode_done hv hvd
  have hlen := length_readBytes t s.dstAddr.toNat t.outLen.toNat
  suffices hex : exec .encode y = .next (succeeded (encoded (t.readBytes s.dstAddr.toNat t.outLen.toNat) y)) from
    ⟨_, hex, rfl, outLen_encoded y rfl, readBytes_encoded y _ (hlen.trans_lt t.outLen.isLt)⟩
  rw [← hlen] at hroom
  rcases exec_encode_payload hi h hd with ⟨hn, hp⟩ | ⟨tree, cs, hc, hp⟩ <;> rw [hp] at hsrc hroom ⊢
  · obtain ⟨h4, h0⟩ := headerCount_of_empty hsrc
    obtain rfl := Host.Outcome.next.inj (hv.symm.trans (exec_decode_of_zero_count hur h4 h0))
    obtain rfl := Host.Outcome.next.inj (hw.symm.trans (exec_gencode_decodedEmpty u))
    have hnil : s.source = [] := List.eq_nil_of_length_eq_zero (by rw [length_source, hn]; rfl)
    exact exec_encode_empty (hys.trans hnil) (congrArg State.codesValid hy) hr hroom
  · have hhead := (sections_of_source hc.pos hsrc).1
    have hcount : cs.length < 2 ^ 32 := hc.length ▸ s.srcLen.isLt
    rw [headerCount_of_le32 hcount hhead] at huroom
    obtain rfl := Host.Outcome.next.inj
      (hv.symm.trans (exec_decode_payload hur hc.distinct hc.codes hc.pos hsrc huroom))
    obtain rfl := Host.Outcome.next.inj (hw.symm.trans (exec_gencode_decodedPayload u hc.distinct cs))
    have hyc : SourceCoded y tree cs :=
      ⟨hc.distinct, hc.codes, hc.source.trans hys.symm, hc.pos, congrArg State.codeLen hy, congrArg State.codeVal hy⟩
    refine hyc.exec_encode ?_ (congrArg State.codesValid hy) hr hroom
    rw [congrArg State.node hy, congrArg State.root hy]
    exact loaded_holds u.node tree hc.distinct

/-! ## The round trip -/

/-- Every byte that COUNT counted has a code after BUILD and GENCODE (R98, R110, R115). -/
theorem code_of_counted {s : State} {tab : CodeTable}
    (htab : codesOf (built (counted false s)).treeKind (built (counted false s)).node (built (counted false s)).root
      = .ok tab) : ∀ x ∈ s.source, atSymbol tab.len x ≠ 0 := by
  intro x hx
  have hpresent : x ∈ presentSymbols (counted false s).freq := by
    rw [mem_presentSymbols, (freq_counted_false s).1]
    exact List.count_pos_iff.mpr hx
  obtain ⟨tree, hheld, hperm, hkind, _⟩ :=
    builtNodes_tree (counted false s).freq (counted false s).node (List.length_pos_of_mem hpresent).ne'
  have ht : tree.symbols.Nodup := hperm.nodup_iff.mpr (nodup_presentSymbols _)
  have htree : codesOf tree.kind _ _ = .ok (treeTable tree) := codesOf_holds _ _ tree hheld ht
  rw [hkind] at htree
  obtain rfl : tab = treeTable tree := Answer.ok.inj (htab.symm.trans htree)
  have hpos := (treeTable_pos_iff tree ht x).mpr (hperm.mem_iff.mpr hpresent)
  intro hzero
  simp [hzero] at hpos

/-- ENCODE of bytes that all have a code, into a window with room for the payload, succeeds (R127). -/
theorem exec_encode_fits {s : State} (hi : Invariants s) (hv : s.codesValid = true) (hr : RangesLegal s)
    (hx : ∀ x ∈ s.source, atSymbol s.codeLen x ≠ 0)
    (hroom : ∀ p, payload s s.source = .ok p → p.length ≤ s.dstCap.toNat) :
    ∃ t, exec .encode s = .next t ∧ t.done = true := by
  obtain ⟨p, hp⟩ := payload_total hi hv s.source hx
  exact ⟨_, by rw [exec_encode_ok hv hr hx hp, if_neg (Nat.not_lt.mpr (hroom p hp))], rfl⟩

/-- A state after COUNT, BUILD and GENCODE, the DST registers written by the Host. -/
def readyToEncode (s : State) (tab : CodeTable) (d cap : Word) : State :=
  { succeeded (coded tab (succeeded (built (succeeded (counted false s))))) with dstAddr := d, dstCap := cap }

/-- COUNT, BUILD and GENCODE leave the source bytes as they are. -/
theorem source_readyToEncode (s : State) (tab : CodeTable) (d cap : Word) :
    (readyToEncode s tab d cap).source = s.source := readBytes_congr _ _ _ _ fun _ _ => rfl

/-- Settles O37: each command completes, every input byte has a code, and O36 gives the input back. -/
theorem roundTrip : Obligations.RoundTrip := by
  intro s d cap u hi hsrc
  have hfit : countBase false s + s.srcLen.toNat ≤ 2 ^ 32 - 1 := by rw [countBase_false]; omega
  have hib := (hi.counted false hfit).succeeded.built.succeeded
  obtain ⟨tab, htab⟩ := codesOf_total hib rfl
  refine ⟨_, _, _, exec_count_of_fits hsrc hfit, exec_build _, exec_gencode_ok rfl htab, rfl, ?_⟩
  intro (hr : RangesLegal (readyToEncode s tab d cap))
    (hroom : ∀ p, payload (readyToEncode s tab d cap) s.source = .ok p → p.length ≤ cap.toNat)
  have hie : Invariants (readyToEncode s tab d cap) := (hib.coded rfl htab).succeeded.hostFields _ _ d cap _ _
  have hsource := source_readyToEncode s tab d cap
  obtain ⟨e, he, hed⟩ := exec_encode_fits hie rfl hr (hsource ▸ code_of_counted htab) (hsource ▸ hroom)
  refine ⟨e, he, hed, fun hur husrc huroom => ?_⟩
  obtain ⟨v, hv, hvd, hbytes, hsyms, hout, _⟩ := decodeUndoesEncode _ e u hie he hed hur husrc huroom
  exact ⟨v, hv, hvd, hsource ▸ hbytes, hsyms, hout⟩

end Sys2Proof.Machine

/-! Settling the family of spec/60_exceptions.md: which errors each command can raise, and what asserts and
deasserts the interrupt. -/

namespace Sys2Proof.Machine

/-! ## The errors of each command -/

/-- The scan for codes raises NO_CODE (R127). -/
theorem checkCodes_code {s : State} {a : Nat} {xs : List Symbol} {e : CmdError}
    (h : checkCodes s a xs = some e) : e.code = .noCode := by
  rcases checkCodes_cases s a xs with ⟨h', _⟩ | ⟨_, _, h', _⟩
  · exact absurd (h.symm.trans h') (Option.some_ne_none e)
  · obtain rfl := Option.some.inj (h.symm.trans h')
    rfl

theorem exec_count_errCode {s t : State} {acc : Bool} (h : exec (.count acc) s = .next t) (herr : t.err = true) :
    t.errCode = .range ∨ t.errCode = .overflow := by
  rcases exec_count_cases acc s with ⟨_, h'⟩ | ⟨_, _, h'⟩ | ⟨_, _, h'⟩ <;>
    obtain rfl := Host.Outcome.next.inj (h.symm.trans h')
  · exact .inl rfl
  · exact .inr rfl
  · exact absurd herr Bool.false_ne_true

theorem exec_gencode_errCode {s t : State} (h : exec .gencode s = .next t) (herr : t.err = true) :
    t.errCode = .sequence := by
  rcases exec_gencode_cases h with ⟨_, rfl⟩ | ⟨_, _, _, rfl⟩
  · rfl
  · exact absurd herr Bool.false_ne_true

theorem exec_encode_errCode {s t : State} (h : exec .encode s = .next t) (herr : t.err = true) :
    t.errCode = .sequence ∨ (t.errCode = .range ∨ t.errCode = .overlap) ∨ t.errCode = .noCode ∨
      t.errCode = .dstFull := by
  rcases exec_encode_cases h with ⟨_, rfl⟩ | ⟨_, e, he, rfl⟩ | ⟨_, _, e, he, rfl⟩ |
    ⟨_, _, _, _, _, ⟨_, rfl⟩ | ⟨_, rfl⟩⟩
  · exact .inl rfl
  · exact .inr (.inl (rangeChecks_code he))
  · exact .inr (.inr (.inl (checkCodes_code he)))
  · exact .inr (.inr (.inr rfl))
  · exact absurd herr Bool.false_ne_true

/-- Settles O55, command by command; DECODE's errors are those of O35. -/
theorem errorsByCommand : Obligations.ErrorsByCommand := by
  intro s t i h herr
  cases i with
  | nop => cases h; exact absurd herr Bool.false_ne_true
  | count acc => simpa using exec_count_errCode h herr
  | build => cases h; exact absurd herr Bool.false_ne_true
  | gencode => simpa using exec_gencode_errCode h herr
  | encode => simpa [or_assoc] using exec_encode_errCode h herr
  | decode =>
    rcases decodeErrorsKeepTheRest s t h herr with ⟨hrange | hoverlap, _⟩ | ⟨hbody, _⟩
    · simp [hrange]
    · simp [hoverlap]
    · rcases hbody with hcode | hcode | hcode | hcode <;> simp [hcode]

/-! ## The interrupt -/

theorem irq_iff (s : State) : irq s = true ↔ s.irqEn = true ∧ (s.done = true ∨ s.err = true) := by
  simp only [irq, Bool.and_eq_true, Bool.or_eq_true]

theorem irq_of_flag {s : State} (h : s.done = true ∨ s.err = true) : irq s = s.irqEn := by
  rw [irq, (Bool.or_eq_true _ _).mpr h, Bool.and_true]

theorem irq_of_disabled {s : State} (h : s.irqEn = false) : irq s = false := by
  rw [irq, h, Bool.false_and]

/-- A command completes with DONE or ERR (R93, R94). -/
theorem exec_done_or_err {s t : State} {i : Instr} (h : exec i s = .next t) : t.done = true ∨ t.err = true := by
  obtain ⟨_, _, rfl | ⟨_, rfl⟩⟩ := exec_effect h
  · exact .inl rfl
  · exact .inr rfl

/-- Clearing both completion flags deasserts the interrupt (R29, R153). -/
theorem irq_writeStatus_clear {w : Word} (h1 : w.getLsbD 1 = true) (h2 : w.getLsbD 2 = true) (s : State) :
    irq (writeStatus w s) = false := by
  simp [irq, h1, h2]

/-- The interrupt is that of IRQ_EN's new value after a CTRL write that does not reset (R21, R153). -/
theorem irq_writeCtrl {w : Word} (h : w.getLsbD 0 = false) (s : State) :
    irq (writeCtrl w s) = (w.getLsbD 1 && (s.done || s.err)) := by
  rw [writeCtrl_of_not_softReset h]
  rfl

/-- Settles O53: no command writes IRQ_EN, and each event that deasserts leaves IRQ_EN or both flags 0. -/
theorem interruptFollowsCompletion : Obligations.InterruptFollowsCompletion := by
  intro s t
  refine ⟨irq_iff s, fun i h => ?_,
    fun hflag => (irq_writeCtrl rfl s).trans ((Bool.or_eq_true _ _).mpr hflag),
    fun w => irq_acceptCommand w s, irq_writeStatus_clear rfl rfl s, irq_writeCtrl rfl s,
    irq_of_disabled (softReset_irqEn s), irq_of_disabled rfl, fun _ => rfl⟩
  obtain ⟨_, _, _, _, _, hirqEn, _⟩ := commandsKeepOperandsAndControl s t i h
  exact (irq_of_flag (exec_done_or_err h)).trans hirqEn

end Sys2Proof.Machine

/-! Settling the family of spec/70_reset_and_hazards.md: what the soft reset does to BUF (R163, R166). -/

namespace Sys2Proof.Machine

/-- BUF reads the same after the registers are reset: no table, register or flag is part of it (R166). -/
@[simp] theorem readByte_resetRegisters (s : State) (b : Nat) : (resetRegisters s).readByte b = s.readByte b := rfl

/-- An ENCODE or a DECODE is abandoned where BUSY is 1 and CMD holds one of the two (R163). -/
theorem abandonsWriter_iff (s : State) :
    abandonsWriter s = true ↔ s.busy = true ∧ (decode s.cmd = some .encode ∨ decode s.cmd = some .decode) := by
  simp only [abandonsWriter, Bool.and_eq_true, Bool.or_eq_true, beq_iff_eq]

/-- The soft reset touches BUF in one case: a writer is abandoned whose window lies in BUF (R166). -/
theorem softReset_buf_cases (s : State) :
    SameBuf s (softReset s) ∨
      abandonsWriter s = true ∧ s.dstAddr.toNat + s.dstCap.toNat ≤ s.cfg.bufSize ∧
        softReset s = resetRegisters (drawn (anyWindow s.draws s)) := by
  unfold softReset
  split
  next h =>
    obtain ⟨habandons, hwindow⟩ := (Bool.and_eq_true _ _).mp h
    exact .inr ⟨habandons, of_decide_eq_true hwindow, rfl⟩
  next => exact .inl (readByte_resetRegisters s)

/-- Outside the window of the operand registers the soft reset keeps every byte (R166). -/
theorem sameOutside_softReset (s : State) : SameOutside s.dstAddr.toNat s.dstCap.toNat s (softReset s) := by
  intro b hb
  rcases softReset_buf_cases s with hsame | ⟨_, _, hreset⟩
  · exact hsame b
  · calc (softReset s).readByte b
      _ = (anyWindow s.draws s).readByte b := by rw [hreset]; rfl
      _ = s.readByte b := readByte_anyWindow_outside s.draws s b hb

/-- Settles O52: only an abandoned writer with its window in BUF loses bytes, and only in that window. -/
theorem softResetKeepsBuf : Obligations.SoftResetKeepsBuf := by
  refine fun s => ⟨fun hnone => ?_, sameOutside_softReset s, fun hpast => ?_⟩
  · rcases softReset_buf_cases s with hsame | ⟨habandons, _⟩
    · exact hsame
    · obtain ⟨hbusy, hwriter⟩ := (abandonsWriter_iff s).mp habandons
      rcases hnone with hidle | ⟨hencode, hdecode⟩
      · exact absurd hidle (by simp [hbusy])
      · exact absurd hwriter (not_or.mpr ⟨hencode, hdecode⟩)
  · rcases softReset_buf_cases s with hsame | ⟨_, hwindow, _⟩
    · exact hsame
    · exact absurd hwindow hpast.not_ge

end Sys2Proof.Machine
